-- ==== Sys2Proof/Word.lean ====
section
/-! DEFINITION. The word types of SIOC. All values are unsigned (00_scope.md R10); nothing here is
arithmetic of its own. -/

namespace Sys2Proof

/-- One 8-bit register, one ring element of the transport, one GPIO register (20_memory.md R64). -/
abbrev Byte := BitVec 8

/-- One operation word, format OPW (30_encoding.md R91). -/
abbrev Word := BitVec 32

/-- One response word (30_encoding.md R95); also the width of `BAUD_DIV` (10_state.md R29). -/
abbrev Half := BitVec 16

end Sys2Proof
end

