-- ==== Sys2Proof/Syntax.lean ====
section
/-! DEFINITION. The 20 operations of SIOC (30_encoding.md R90), one constructor per row of
spec/opcode_table.json. Operands as 30_encoding.md R92 gives them. -/

namespace Sys2Proof

/-- The buffer an operation names: `sel` = 0 is TXB, `sel` = 1 is RXB (30_encoding.md R92). -/
inductive Sel where
  | tx
  | rx
deriving DecidableEq, Repr

/-- The operations (30_encoding.md R90, R93). -/
inductive Instr where
  /-- ENQ: `Enqueue(value)` (40_ring_buffer.md R121). -/
  | enq (sel : Sel) (val : Byte)
  /-- DEQ: `Dequeue()` (40_ring_buffer.md R125). -/
  | deq (sel : Sel)
  /-- SIZE: `Size()` of a ring (40_ring_buffer.md R129). -/
  | size (sel : Sel)
  /-- INIT: `Init(baud)` (41_serial_transport.md R152). -/
  | init (baud : BitVec 24)
  /-- WRITE: `Write(byte)` (41_serial_transport.md R155). -/
  | write (val : Byte)
  /-- READ: `Read()` (41_serial_transport.md R160). -/
  | read
  /-- TSIZE: `Size(direction)` (41_serial_transport.md R163). -/
  | tsize (sel : Sel)
  /-- GIEN: set the global interrupt enable (43_line_and_host_control.md R206). -/
  | gien
  /-- GDIS: clear the global interrupt enable (43_line_and_host_control.md R207). -/
  | gdis
  /-- IRQRX: one execution of the receive-complete handler (42_interrupt_handlers.md R180). -/
  | irqrx
  /-- IRQTX: one execution of the transmit-ready handler (42_interrupt_handlers.md R184). -/
  | irqtx
  /-- LRX: a byte arrives from the line (43_line_and_host_control.md R200). -/
  | lrx (val : Byte)
  /-- LTX: the line takes the byte in the data register (43_line_and_host_control.md R203). -/
  | ltx
  /-- GET: `Get(pin)` (44_gpio.md R223). -/
  | get (pin : Byte)
  /-- HIGH: `High(pin)` (44_gpio.md R224). -/
  | high (pin : Byte)
  /-- LOW: `Low(pin)` (44_gpio.md R225). -/
  | low (pin : Byte)
  /-- DIRIN: `In(pin)` (44_gpio.md R226). -/
  | dirin (pin : Byte)
  /-- DIROUT: `Out(pin)` (44_gpio.md R227). -/
  | dirout (pin : Byte)
  /-- SETV: `Set(pin, value)` (44_gpio.md R228). -/
  | setv (pin : Byte) (pval : Byte)
  /-- TOGGLE: `Set(pin)` with no value (44_gpio.md R229). -/
  | toggle (pin : Byte)
deriving DecidableEq, Repr

end Sys2Proof
end

