-- ==== Sys2Proof/WellFormed.lean ====
section
/-! DEFINITION. Which operations are well formed: those that have an operation word. -/

namespace Sys2Proof

/-- INIT's `baud` is 1 to 16,777,215 (30_encoding.md R92, R101 (d)); every other operand takes every
value its field holds. A pin outside the present ports is no illegal encoding (30_encoding.md R102). -/
def Instr.wf : Instr → Bool
  | .init baud => baud != 0
  | .enq _ _ | .deq _ | .size _ | .write _ | .read | .tsize _ | .gien | .gdis | .irqrx | .irqtx
  | .lrx _ | .ltx | .get _ | .high _ | .low _ | .dirin _ | .dirout _ | .setv _ _ | .toggle _ => true

end Sys2Proof
end

