-- ==== Sys2Proof/Decode.lean ====
section
/-! DEFINITION. The decoder of operation words, total, with a named reason for every word it does not
accept, then the encoder and the opcode map (30_encoding.md R91 to R93, R101). -/

namespace Sys2Proof

/-- Why a word is illegal (30_encoding.md R101 (a) to (d)). -/
inductive Illegal where
  /-- (a) `unit` 0 or 6 to 15. -/
  | reservedUnit
  /-- (b) a `fn` with no row. -/
  | reservedFn
  /-- (c) a must-be-zero bit is set. -/
  | mustBeZero
  /-- (d) INIT with `baud = 0`. -/
  | zeroBaud
deriving DecidableEq, Repr

/-- What the decoder reads from a word. -/
inductive Decoded where
  | instr (i : Instr)
  | illegal (why : Illegal)
deriving DecidableEq, Repr

/-- `w[31:28]` (30_encoding.md R91). -/
def unitOf (w : Word) : Nat := (w.extractLsb' 28 4).toNat

/-- `w[27:24]` (30_encoding.md R91). -/
def fnOf (w : Word) : Nat := (w.extractLsb' 24 4).toNat

/-- `arg[7:0]`: `val` or `pin` (30_encoding.md R92). -/
def lowByte (w : Word) : Byte := w.extractLsb' 0 8

/-- `arg[15:8]`: `pval` (30_encoding.md R92). -/
def highByte (w : Word) : Byte := w.extractLsb' 8 8

/-- `arg[23:0]`: `baud` (30_encoding.md R92). -/
def argOf (w : Word) : BitVec 24 := w.extractLsb' 0 24

/-- `arg[8]`: `sel` (30_encoding.md R92). -/
def selOf (w : Word) : Sel := if w.extractLsb' 8 1 = 1#1 then .rx else .tx

/-- The operand of an operation whose must-be-zero bits are all 0, else illegal (R101 (c)). -/
def whenZero (zero : Bool) (i : Instr) : Decoded := if zero then .instr i else .illegal .mustBeZero

/-- `arg[23:9]` is zero. -/
def zeroAbove9 (w : Word) : Bool := w.extractLsb' 9 15 == 0#15

/-- `arg[23:8]` is zero. -/
def zeroAbove8 (w : Word) : Bool := w.extractLsb' 8 16 == 0#16

/-- `arg[23:16]` is zero. -/
def zeroAbove16 (w : Word) : Bool := w.extractLsb' 16 8 == 0#8

/-- `arg[23:0]` is zero. -/
def zeroArg (w : Word) : Bool := argOf w == 0#24

/-- `arg` is zero but for `sel`. -/
def zeroButSel (w : Word) : Bool := zeroAbove9 w && lowByte w == 0#8

/-- Unit 1, RB (30_encoding.md R93). -/
def decodeRb (w : Word) : Decoded :=
  match fnOf w with
  | 0 => whenZero (zeroAbove9 w) (.enq (selOf w) (lowByte w))
  | 1 => whenZero (zeroButSel w) (.deq (selOf w))
  | 2 => whenZero (zeroButSel w) (.size (selOf w))
  | _ => .illegal .reservedFn

/-- Unit 2, ST (30_encoding.md R93). -/
def decodeSt (w : Word) : Decoded :=
  match fnOf w with
  | 0 => if argOf w = 0#24 then .illegal .zeroBaud else .instr (.init (argOf w))
  | 1 => whenZero (zeroAbove8 w) (.write (lowByte w))
  | 2 => whenZero (zeroArg w) .read
  | 3 => whenZero (zeroButSel w) (.tsize (selOf w))
  | _ => .illegal .reservedFn

/-- Unit 3, IC (30_encoding.md R93). -/
def decodeIc (w : Word) : Decoded :=
  match fnOf w with
  | 0 => whenZero (zeroArg w) .gien
  | 1 => whenZero (zeroArg w) .gdis
  | _ => .illegal .reservedFn

/-- Unit 4, EV (30_encoding.md R93). -/
def decodeEv (w : Word) : Decoded :=
  match fnOf w with
  | 0 => whenZero (zeroArg w) .irqrx
  | 1 => whenZero (zeroArg w) .irqtx
  | 2 => whenZero (zeroAbove8 w) (.lrx (lowByte w))
  | 3 => whenZero (zeroArg w) .ltx
  | _ => .illegal .reservedFn

/-- Unit 5, GP (30_encoding.md R93). -/
def decodeGp (w : Word) : Decoded :=
  match fnOf w with
  | 0 => whenZero (zeroAbove8 w) (.get (lowByte w))
  | 1 => whenZero (zeroAbove8 w) (.high (lowByte w))
  | 2 => whenZero (zeroAbove8 w) (.low (lowByte w))
  | 3 => whenZero (zeroAbove8 w) (.dirin (lowByte w))
  | 4 => whenZero (zeroAbove8 w) (.dirout (lowByte w))
  | 5 => whenZero (zeroAbove16 w) (.setv (lowByte w) (highByte w))
  | 6 => whenZero (zeroAbove8 w) (.toggle (lowByte w))
  | _ => .illegal .reservedFn

/-- The decoder (30_encoding.md R93, R101). -/
def decode (w : Word) : Decoded :=
  match unitOf w with
  | 1 => decodeRb w
  | 2 => decodeSt w
  | 3 => decodeIc w
  | 4 => decodeEv w
  | 5 => decodeGp w
  | _ => .illegal .reservedUnit

/-- `sel` as one bit (30_encoding.md R92). -/
def selBit : Sel → BitVec 1
  | .tx => 0#1
  | .rx => 1#1

/-- The operation word of an instruction (30_encoding.md R91 to R93). -/
def encode : Instr → Word
  | .enq sel val  => 1#4 ++ 0#4 ++ (0#15 ++ selBit sel ++ val)
  | .deq sel      => 1#4 ++ 1#4 ++ (0#15 ++ selBit sel ++ 0#8)
  | .size sel     => 1#4 ++ 2#4 ++ (0#15 ++ selBit sel ++ 0#8)
  | .init baud    => 2#4 ++ 0#4 ++ baud
  | .write val    => 2#4 ++ 1#4 ++ (0#16 ++ val)
  | .read         => 2#4 ++ 2#4 ++ 0#24
  | .tsize sel    => 2#4 ++ 3#4 ++ (0#15 ++ selBit sel ++ 0#8)
  | .gien         => 3#4 ++ 0#4 ++ 0#24
  | .gdis         => 3#4 ++ 1#4 ++ 0#24
  | .irqrx        => 4#4 ++ 0#4 ++ 0#24
  | .irqtx        => 4#4 ++ 1#4 ++ 0#24
  | .lrx val      => 4#4 ++ 2#4 ++ (0#16 ++ val)
  | .ltx          => 4#4 ++ 3#4 ++ 0#24
  | .get pin      => 5#4 ++ 0#4 ++ (0#16 ++ pin)
  | .high pin     => 5#4 ++ 1#4 ++ (0#16 ++ pin)
  | .low pin      => 5#4 ++ 2#4 ++ (0#16 ++ pin)
  | .dirin pin    => 5#4 ++ 3#4 ++ (0#16 ++ pin)
  | .dirout pin   => 5#4 ++ 4#4 ++ (0#16 ++ pin)
  | .setv pin pv  => 5#4 ++ 5#4 ++ (0#8 ++ pv ++ pin)
  | .toggle pin   => 5#4 ++ 6#4 ++ (0#16 ++ pin)

/-- The `match` of an operation's row (30_encoding.md R93). -/
def opMatch : Instr → Word
  | .enq _ _  => 0x10000000#32
  | .deq _    => 0x11000000#32
  | .size _   => 0x12000000#32
  | .init _   => 0x20000000#32
  | .write _  => 0x21000000#32
  | .read     => 0x22000000#32
  | .tsize _  => 0x23000000#32
  | .gien     => 0x30000000#32
  | .gdis     => 0x31000000#32
  | .irqrx    => 0x40000000#32
  | .irqtx    => 0x41000000#32
  | .lrx _    => 0x42000000#32
  | .ltx      => 0x43000000#32
  | .get _    => 0x50000000#32
  | .high _   => 0x51000000#32
  | .low _    => 0x52000000#32
  | .dirin _  => 0x53000000#32
  | .dirout _ => 0x54000000#32
  | .setv _ _ => 0x55000000#32
  | .toggle _ => 0x56000000#32

/-- The `mask` of an operation's row (30_encoding.md R93). -/
def opMask : Instr → Word
  | .enq _ _  => 0xFFFFFE00#32
  | .deq _ | .size _ | .tsize _ => 0xFFFFFEFF#32
  | .init _   => 0xFF000000#32
  | .write _ | .lrx _ | .get _ | .high _ | .low _ | .dirin _ | .dirout _ | .toggle _ => 0xFFFFFF00#32
  | .setv _ _ => 0xFFFF0000#32
  | .read | .gien | .gdis | .irqrx | .irqtx | .ltx => 0xFFFFFFFF#32

/-- The instruction a decoded word stands for, if it is legal. -/
def Decoded.toInstr : Decoded → Option Instr
  | .instr i => some i
  | .illegal _ => none

/-- The host's reading of one opcode-table row: every operation word is one 32-bit word
(30_encoding.md R91), so the table's number is the word itself. -/
def decodeTableWord (_nbits w : Nat) : Option Instr := (decode (BitVec.ofNat 32 w)).toInstr

end Sys2Proof
end

