-- ==== Sys2Proof/Config.lean ====
section
/-! DEFINITION. The implementation parameters of 00_scope.md R6 as plain data, and the free values:
constants with no body, of which nothing can be proved but that they are what they are. -/

namespace Sys2Proof

/-- `IRQ_PRIO`: which handler is entered when both are eligible (60_exceptions.md R263). -/
inductive IrqPrio where
  | any
  | rxFirst
  | txFirst
deriving DecidableEq, Repr

/-- The parameters of 00_scope.md R6. `NPORTS` is the length of `aOut`, since the address table has
entries for present ports only (44_gpio.md R221). `nRb` is the capacity of the standalone RB and `wT` its
element width; the transport's own width is 8, the type of its slots. -/
structure Config where
  /-- `N_TX`, capacity of TXB. -/
  nTx : Nat
  /-- `N_RX`, capacity of RXB. -/
  nRx : Nat
  /-- Capacity of the standalone RB instance (log 8). -/
  nRb : Nat
  /-- `W_T`, the bit width of an element of the standalone RB, free there (log 8). -/
  wT : Nat
  /-- `F_CLK`, the peripheral clock in Hz. -/
  fClk : Nat
  /-- `STOP_BITS`, the default stop bits of the frame. -/
  stopBits : Nat
  /-- `IRQ_PRIO`. -/
  irqPrio : IrqPrio
  /-- `LF`, the line-feed byte. -/
  lf : Byte
  /-- `CR`, the carriage-return byte. -/
  cr : Byte
  /-- `A_OUT[p]` for the present ports `p`. -/
  aOut : List Nat
  /-- `OFF_DIR`. -/
  offDir : Nat
  /-- `OFF_IN`. -/
  offIn : Nat
  /-- `NO_PIN`, the sentinel. -/
  noPin : Byte
deriving DecidableEq, Repr

/-- `NPORTS` (00_scope.md R6). -/
def Config.nports (c : Config) : Nat := c.aOut.length

/-- Every register address of the GPIO space: the outputs, the directions, the inputs
(10_state.md R44). -/
def Config.gpioAddrs (c : Config) : List Nat :=
  c.aOut ++ c.aOut.map (· - c.offDir) ++ c.aOut.map (· - c.offIn)

/-- A capacity the spec allows (00_scope.md R6, R7). -/
def Config.capacityOk (n : Nat) : Bool := decide (1 ≤ n) && decide (n ≤ 255)

/-- The constraints of 00_scope.md R6. That the offsets fit below every `A_OUT[p]` and that no two
GPIO registers share an address is DEDUCED (10_state.md R44 gives each port three registers; log 9). -/
def Config.wf (c : Config) : Bool :=
  Config.capacityOk c.nTx && Config.capacityOk c.nRx && Config.capacityOk c.nRb
    && decide (1 ≤ c.wT) && decide (0 < c.fClk) && (c.lf != c.cr) && decide (c.nports ≤ 31)
    && decide (0 < c.offDir) && decide (0 < c.offIn) && (c.offDir != c.offIn)
    && c.aOut.all (fun a => decide (c.offDir ≤ a) && decide (c.offIn ≤ a))
    && decide c.gpioAddrs.Nodup
    && decide (8 * c.nports ≤ c.noPin.toNat)

/-- Free: `divisor(F_CLK, baud)`, a total function of its two arguments, formula open
(00_scope.md R6, 91_not_in_source.md N16; log 10). -/
opaque Config.divisor : Nat → Nat → Half

/-- Free: `F_CLK - 1` of the machine at reset (00_scope.md R6: `F_CLK` open, positive; log 10). -/
opaque Config.openClockPred : Nat

/-- Free: `STOP_BITS` of the machine at reset (00_scope.md R6: open; log 10). -/
opaque Config.openStopBits : Nat

/-- Free: the `n`-th drawn bit (00_scope.md R11 `draw`; log 14, log 15). -/
opaque Config.freeBit : Nat → Bool

/-- Free: the `n`-th drawn byte, for `INP` (93_implementation_defined.md U8; log 13). -/
opaque Config.freeByte : Nat → Byte

/-- Free: what a slot index outside the backing array would read as. No operation forms one
(20_memory.md R63), so only states no run reaches read it (log 20). -/
opaque Config.slotOutside {α : Type} [Inhabited α] : Nat → α

/-- Free: the address of the output register of the absent port `p`. Indexing the address table with an
absent port is undefined (44_gpio.md R221) and no operation does it in a run (R232; log 30). -/
opaque Config.absentAddr : (p : Nat) → Nat

/-- Free: the element an ENQ stores whose operand `x` is no `w`-bit value (30_encoding.md R92 states the
encoding for `W_T <= 8` and no result for such an operand; log 26). It is taken modulo `2^w`. -/
opaque Config.unfitElement : (w x : Nat) → Nat

/-- Free: the `value` byte of the response to a DEQ of an element wider than a byte, which has no encoded
form (30_encoding.md R92; log 26). -/
opaque Config.wideByte : Nat → Byte

/-- The configuration of `State.reset`. `N_TX = N_RX = 8`, `IRQ_PRIO = ANY`, `LF`, `CR`, `NO_PIN` are
the spec's values (00_scope.md R6; log 23). DESIGN CHOICE (log 9): the standalone capacity 8, its
element width 8 and the GPIO layout of 31 ports. -/
def Config.default : Config where
  nTx := 8
  nRx := 8
  nRb := 8
  wT := 8
  fClk := Config.openClockPred + 1
  stopBits := Config.openStopBits
  irqPrio := .any
  lf := 0x0A#8
  cr := 0x0D#8
  aOut := List.range' 62 31
  offDir := 31
  offIn := 62
  noPin := 0xFF#8

end Sys2Proof
end

