-- ==== Sys2Proof/Machine/State.lean ====
section
/-! DEFINITION. The state of SIOC, all of it plain data: the rings, the transport and peripheral
registers, the interrupt control state, each agent's operation in flight, the GPIO space, the
histories, the responses, the configuration and the schedule. And the reset state. -/

namespace Sys2Proof.Machine

open Sys2Proof

/-- One ring buffer instance (10_state.md R21 to R25). `T` is generic (40_ring_buffer.md R137). -/
structure RingBuf (α : Type) where
  /-- `mem[0 .. N-1]`. -/
  mem : List α
  /-- `head`, the next slot to dequeue. -/
  head : Byte
  /-- `tail`, the next slot to fill. -/
  tail : Byte
  /-- `count`, the only field both sides write. -/
  count : Byte
deriving DecidableEq, Repr

/-- The micro-step an ENQ is about to take (40_ring_buffer.md R121). -/
inductive EnqAt where
  | e1
  | e2
  | e3
  | e4
deriving DecidableEq, Repr

/-- The micro-step a DEQ is about to take, with the temporary `v` once it is read
(40_ring_buffer.md R125). -/
inductive DeqAt (α : Type) where
  | d1
  | d2
  | d3 (v : α)
  | d4 (v : α)
deriving DecidableEq, Repr

/-- What one micro-step of ENQ leads to: the next micro-step, `Ok`, or the signal `Full`. -/
inductive EnqNext where
  | more (pos : EnqAt)
  | ok
  | full
deriving DecidableEq, Repr

/-- What one micro-step of DEQ leads to: the next micro-step, `Ok(v)`, or the signal `Empty`. -/
inductive DeqNext (α : Type) where
  | more (pos : DeqAt α)
  | ok (v : α)
  | empty
deriving DecidableEq, Repr

/-- The micro-step an INIT is about to take (41_serial_transport.md R152). -/
inductive InitAt where
  | i1
  | i2
  | i3
  | i4
deriving DecidableEq, Repr

/-- The micro-step a WRITE is about to take, with `cur` and `pending_lf` while they live
(41_serial_transport.md R155). `w2` carries the position of the ENQ it performs. -/
inductive WriteAt where
  | w1
  | w2 (cur : Byte) (pendingLf : Bool) (pos : EnqAt)
  | w3 (pendingLf : Bool)
  | w4 (pendingLf : Bool)
deriving DecidableEq, Repr

/-- The micro-step a READ is about to take (41_serial_transport.md R160). `rd1` carries the position
of the DEQ it performs. -/
inductive ReadAt where
  | rd1 (pos : DeqAt Byte)
  | rd2 (v : Byte)
deriving DecidableEq, Repr

/-- The read-modify-write GPIO operations (44_gpio.md R224 to R229). -/
inductive RmwOp where
  | high
  | low
  | dirin
  | dirout
  | setv (pval : Byte)
  | toggle
deriving DecidableEq, Repr

/-- The micro-step a read-modify-write is about to take, with `x` once it is read. -/
inductive RmwAt where
  | p1
  | p2 (x : Byte)
deriving DecidableEq, Repr

/-- `main`: the mainline's operation in flight, its operands, temporaries and position
(10_state.md R41, R42). `tsize`, `gien`, `gdis` and `get` take one micro-step. -/
inductive Main where
  | idle
  | init (baud : BitVec 24) (pos : InitAt)
  | write (byte : Byte) (pos : WriteAt)
  | read (pos : ReadAt)
  | rmw (op : RmwOp) (pin : Byte) (pos : RmwAt)
  | tsize (sel : Sel)
  | gien
  | gdis
  | get (pin : Byte)
deriving DecidableEq, Repr

/-- The position of HRX, with `d` while it lives (42_interrupt_handlers.md R180). -/
inductive RxAt where
  | h1
  | h2 (d : Byte) (pos : EnqAt)
  | h3
deriving DecidableEq, Repr

/-- The position of HTX, with `v` while it lives (42_interrupt_handlers.md R184). -/
inductive TxAt where
  | t1 (pos : DeqAt Byte)
  | t2a (v : Byte)
  | t2b
  | t3
deriving DecidableEq, Repr

/-- `isr`, the in-service marker (10_state.md R40). -/
inductive Isr where
  | none
  | rx (pos : RxAt)
  | tx (pos : TxAt)
deriving DecidableEq, Repr

/-- Port P's operation in flight on the standalone RB (30_encoding.md R97, R99). An element is its `W_T`
bits as an unsigned number (R92; log 25). -/
inductive ProdOp where
  | idle
  | enq (v : Nat) (pos : EnqAt)
  | size
deriving DecidableEq, Repr

/-- Port C's operation in flight on the standalone RB (30_encoding.md R97, R99). -/
inductive ConsOp where
  | idle
  | deq (pos : DeqAt Nat)
  | size
deriving DecidableEq, Repr

/-- `st`, the transport's lifecycle state (10_state.md R36). -/
inductive Lifecycle where
  | uninitialized
  | ready
deriving DecidableEq, Repr

/-- The parity of a frame; INIT writes `none` (10_state.md R37). -/
inductive Parity where
  | none
  | even
  | odd
deriving DecidableEq, Repr

/-- `FRAME` (10_state.md R37). -/
structure Frame where
  dataBits : Nat
  parity : Parity
  stop : Nat
deriving DecidableEq, Repr

/-- The agents that take turns, as a trace line names them (30_encoding.md R105). PINS has no
operation word; its input is `State.pinIn`. -/
inductive Agent where
  | main
  | hrx
  | htx
  | line
  | prod
  | cons
deriving DecidableEq, Repr

/-- One turn of the schedule: the trace line `<AGENT>: <word>` (30_encoding.md R105), how many micro-steps
the agent takes before another agent may move (log 1, log 2), and the bits above the eighth of an ENQ's
element, which the word does not encode (R92; log 25). -/
structure Turn where
  agent : Agent
  word : Word
  steps : Nat
  above : Nat
deriving DecidableEq, Repr

/-- The GPIO register space: address and byte, addresses strictly rising, no entry equal to what an
unlisted address reads as (20_memory.md R60). -/
abbrev Memory := List Host.Cell

/-- What an unlisted GPIO register reads as. The spec leaves it unspecified (10_state.md R44, R46);
DESIGN CHOICE 0, unsafe (log 12). -/
def Memory.unlisted : Byte := 0#8

/-- The canonical form of the GPIO space. -/
def Memory.wf : Memory → Bool
  | [] => true
  | (a, v) :: m => (v != Memory.unlisted) && m.all (fun c => decide (a < c.1)) && Memory.wf m

/-- The state of the block. -/
structure State where
  /-- The parameters of 00_scope.md R6; never written. -/
  cfg : Config
  /-- TXB (10_state.md R21). -/
  txb : RingBuf Byte
  /-- RXB (10_state.md R21). -/
  rxb : RingBuf Byte
  /-- The standalone RB instance (30_encoding.md R97; log 8), its elements unsigned numbers of `W_T` bits
  (10_state.md R25; log 25). -/
  rb : RingBuf Nat
  /-- Port P's operation in flight. -/
  prod : ProdOp
  /-- Port C's operation in flight. -/
  cons : ConsOp
  /-- `BAUD_DIV` (10_state.md R29). -/
  baudDiv : Half
  /-- `RX_EN` (10_state.md R30). -/
  rxEn : Bool
  /-- `TX_EN` (10_state.md R30). -/
  txEn : Bool
  /-- `RXC` (10_state.md R31). -/
  rxc : Bool
  /-- `RXD` (10_state.md R32). -/
  rxd : Byte
  /-- `TXR` (10_state.md R33). -/
  txr : Bool
  /-- `TXD` (10_state.md R34). -/
  txd : Byte
  /-- `RXC_IE` (10_state.md R35). -/
  rxcIe : Bool
  /-- `TXR_IE` (10_state.md R35). -/
  txrIe : Bool
  /-- `st` (10_state.md R36). -/
  st : Lifecycle
  /-- `FRAME` (10_state.md R37). -/
  frame : Frame
  /-- `GIE` (10_state.md R39). -/
  gie : Bool
  /-- `isr` (10_state.md R40). -/
  isr : Isr
  /-- `main` (10_state.md R41). -/
  main : Main
  /-- `OUT[p]`, `DIR[p]`, `INP[p]` (10_state.md R44). -/
  gpio : Memory
  /-- The bytes PINS puts on `INP` at the coming reads; when empty, a free value (log 13). -/
  pinIn : List Byte
  /-- `line_out` (10_state.md R41). -/
  lineOut : List Byte
  /-- `line_in` (10_state.md R41). -/
  lineIn : List Byte
  /-- The response on port H to the last request, once produced (30_encoding.md R95; log 19). -/
  hostResp : Option Half
  /-- The response on port P. -/
  prodResp : Option Half
  /-- The response on port C. -/
  consResp : Option Half
  /-- The element in port C's response, all `W_T` bits of it, when that is a DEQ's `Ok`
  (30_encoding.md R92; log 25). -/
  consValue : Option Nat
  /-- How many free values have been drawn (log 16). -/
  draws : Nat
  /-- The turns not yet taken, next first (log 1). -/
  sched : List Turn
  /-- The agent whose turn it is (log 1). -/
  agent : Agent
  /-- The micro-steps this turn takes (log 2). -/
  steps : Nat
  /-- The bits above the eighth of the element an ENQ on port P carries (30_encoding.md R92; log 25). -/
  above : Nat
deriving DecidableEq, Repr

/-- Why a step could fault. The constructors: none. "The hardware raises no trap, sets no sticky error
bit and stops for no reason" (60_exceptions.md R252), so nobody raises one, and that is safe. -/
inductive Fault where
deriving DecidableEq, Repr

/-- Why a step has no meaning. Every refusal is safe: the model stops where the hardware would go on
(92_eei_decisions.md: "toward unprovable"). -/
inductive Refusal where
  /-- Raised by exec's arm of an instruction with no meaning yet; safe. -/
  | notModelled (mnemonic : String)
  /-- Raised by WRITE and READ while `st` is Uninitialized (41_serial_transport.md R151, U6); safe. -/
  | uninitialized
  /-- Raised by a GPIO operation on the sentinel pin (44_gpio.md R232, U4); safe. -/
  | sentinelPin
  /-- Raised by a GPIO operation on a pin of an absent port (44_gpio.md R232, U5); safe. -/
  | absentPort
  /-- Raised by an operation asked of an agent that has not its role (30_encoding.md R104, U3;
  70_reset_and_hazards.md R307); safe. -/
  | roleViolation
  /-- Raised by a word presented on a port that has not yet answered the one before
  (30_encoding.md R97, R99; log 4); safe. -/
  | portBusy
  /-- Raised by a schedule that labels a handler execution or a line event with an illegal word
  (30_encoding.md R100; log 6); safe. -/
  | noSuchLabel
deriving DecidableEq, Repr

/-- The outcome of an instruction or a step. -/
abbrev Result := Host.Outcome State Fault Refusal

/-- An empty ring of capacity `n` (10_state.md R27). The slots are unspecified at reset (R25);
DESIGN CHOICE `zero`, the element 0, unsafe (log 11). -/
def RingBuf.reset {α : Type} (n : Nat) (zero : α) : RingBuf α where
  mem := List.replicate n zero
  head := 0#8
  tail := 0#8
  count := 0#8

/-- The reset state of a block with configuration `c` (10_state.md R46, 70_reset_and_hazards.md R290).
The fields R46 leaves unspecified are DESIGN CHOICE 0, unsafe (log 11, log 12). -/
def State.resetOf (c : Config) : State where
  cfg := c
  txb := RingBuf.reset c.nTx 0#8
  rxb := RingBuf.reset c.nRx 0#8
  rb := RingBuf.reset c.nRb 0
  prod := .idle
  cons := .idle
  baudDiv := 0#16
  rxEn := false
  txEn := false
  rxc := false
  rxd := 0#8
  txr := true
  txd := 0#8
  rxcIe := false
  txrIe := false
  st := .uninitialized
  frame := { dataBits := 0, parity := .none, stop := 0 }
  gie := false
  isr := .none
  main := .idle
  gpio := []
  pinIn := []
  lineOut := []
  lineIn := []
  hostResp := none
  prodResp := none
  consResp := none
  consValue := none
  draws := 0
  sched := []
  agent := .main
  steps := 0
  above := 0

/-- The machine right after reset (70_reset_and_hazards.md R290, R291). -/
def State.reset : State := State.resetOf Config.default

end Sys2Proof.Machine
end

