-- ==== Sys2Proof/Machine/Operands.lean ====
section
/-! DEFINITION. The operand forms: the buffer a `sel` names, the element an ENQ carries, the pin arithmetic, the GPIO register
addresses, and what a read-modify-write stores. -/

namespace Sys2Proof.Machine

open Sys2Proof

/-- The port index of a pin: `pin div 8` (44_gpio.md R222). -/
def pinPort (pin : Byte) : Nat := pin.toNat / 8

/-- The bit index of a pin: `pin mod 8` (44_gpio.md R222). -/
def pinBit (pin : Byte) : Nat := pin.toNat % 8

/-- `1 << bit` as an 8-bit value (44_gpio.md R222). -/
def pinMask (pin : Byte) : Byte := 1#8 <<< pinBit pin

/-- `addr_out(p) = A_OUT[p]` (44_gpio.md R221). Only present ports have an entry and the
operations ask for no other (R232). DESIGN CHOICE: the address of an absent port, which R221 leaves
undefined, is a free value (log 30), from which `addrDir` and `addrIn` compute as for a present one. -/
def addrOut (c : Config) (p : Nat) : Nat := c.aOut.getD p (Config.absentAddr p)

/-- `addr_dir(p) = A_OUT[p] - OFF_DIR` (44_gpio.md R221). -/
def addrDir (c : Config) (p : Nat) : Nat := addrOut c p - c.offDir

/-- `addr_in(p) = A_OUT[p] - OFF_IN` (44_gpio.md R221). -/
def addrIn (c : Config) (p : Nat) : Nat := addrOut c p - c.offIn

/-- The register a read-modify-write reads and writes: `DIR[p]` for DIRIN and DIROUT, else `OUT[p]`
(44_gpio.md R224 to R229). -/
def rmwAddr (c : Config) (op : RmwOp) (pin : Byte) : Nat :=
  match op with
  | .dirin | .dirout => addrDir c (pinPort pin)
  | .high | .low | .setv _ | .toggle => addrOut c (pinPort pin)

/-- The byte a read-modify-write stores, from the byte it read and the pin's mask
(44_gpio.md R224 to R229). SETV is HIGH when `pval` is not zero, else LOW (R228). -/
def rmwValue (op : RmwOp) (x mask : Byte) : Byte :=
  match op with
  | .high | .dirout => x ||| mask
  | .low | .dirin => x &&& ~~~mask
  | .setv pval => if pval = 0#8 then x &&& ~~~mask else x ||| mask
  | .toggle => x ^^^ mask

/-- The instruction a read-modify-write in flight belongs to. -/
def rmwInstr (op : RmwOp) (pin : Byte) : Instr :=
  match op with
  | .high => .high pin
  | .low => .low pin
  | .dirin => .dirin pin
  | .dirout => .dirout pin
  | .setv pval => .setv pin pval
  | .toggle => .toggle pin

/-- `count` of the buffer `sel` names (41_serial_transport.md R163). -/
def countOf (s : State) : Sel → Byte
  | .tx => s.txb.count
  | .rx => s.rxb.count

/-- The element of an ENQ on the standalone RB: the word's eight bits with those above them
(30_encoding.md R92; log 25). The spec states no result for an operand that is no `W_T`-bit value: its
element is free (log 26). -/
def enqElement (s : State) (val : Byte) : Nat :=
  if val.toNat + 256 * s.above < 2 ^ s.cfg.wT then val.toNat + 256 * s.above
  else Config.unfitElement s.cfg.wT (val.toNat + 256 * s.above) % 2 ^ s.cfg.wT

/-- The `value` byte that answers an element: the element itself where a byte encodes it
(30_encoding.md R92, R96), else free (log 26). -/
def elementByte (c : Config) (v : Nat) : Byte :=
  if c.wT ≤ 8 then BitVec.ofNat 8 v else Config.wideByte v

/-- `BAUD_H` (10_state.md R29). -/
def baudH (s : State) : Byte := s.baudDiv.extractLsb' 8 8

/-- `BAUD_L` (10_state.md R29). -/
def baudL (s : State) : Byte := s.baudDiv.extractLsb' 0 8

end Sys2Proof.Machine
end

