-- ==== Sys2Proof/Machine/Ops.lean ====
section
/-! DEFINITION. The named operations over the machine's storage: the ring primitives' micro-steps, the
GPIO space, free values, responses, handler entry and return, bursts of micro-steps, and taking a turn
of the schedule. -/

namespace Sys2Proof.Machine

open Sys2Proof

/-! ### Ring primitives (40_ring_buffer.md) -/

section
variable {α : Type}

/-- `SlotRead(b, i)` (00_scope.md R11). Outside the array the value is free (log 20). -/
def slotRead [Inhabited α] (b : RingBuf α) (i : Byte) : α :=
  b.mem.getD i.toNat (Config.slotOutside i.toNat)

/-- `SlotWrite(b, i, v)` (00_scope.md R11). Outside the array nothing is stored (log 20). -/
def slotWrite (b : RingBuf α) (i : Byte) (v : α) : RingBuf α :=
  { b with mem := b.mem.set i.toNat v }

/-- Cursor advance modulo `n`: `if x + 1 = N then 0 else x + 1` (20_memory.md R63). -/
def advance (n : Nat) (x : Byte) : Byte := if x.toNat + 1 = n then 0#8 else x + 1#8

/-- One micro-step of `ENQ b, v` on a ring of capacity `n` (40_ring_buffer.md R121). E1 decides on the
value it reads; E4 adds to the value `count` holds then (20_memory.md R70). -/
def enqMicro (n : Nat) (v : α) (pos : EnqAt) (b : RingBuf α) : RingBuf α × EnqNext :=
  match pos with
  | .e1 => (b, if b.count.toNat = n then .full else .more .e2)
  | .e2 => (slotWrite b b.tail v, .more .e3)
  | .e3 => ({ b with tail := advance n b.tail }, .more .e4)
  | .e4 => ({ b with count := b.count + 1#8 }, .ok)

/-- One micro-step of `DEQ b` on a ring of capacity `n` (40_ring_buffer.md R125). -/
def deqMicro [Inhabited α] (n : Nat) (pos : DeqAt α) (b : RingBuf α) : RingBuf α × DeqNext α :=
  match pos with
  | .d1 => (b, if b.count = 0#8 then .empty else .more .d2)
  | .d2 => (b, .more (.d3 (slotRead b b.head)))
  | .d3 v => ({ b with head := advance n b.head }, .more (.d4 v))
  | .d4 v => ({ b with count := b.count - 1#8 }, .ok v)

end

/-! ### The GPIO space (20_memory.md R60, R64) -/

/-- `MemRead(addr, 1)` (00_scope.md R11). -/
def memRead : Memory → Nat → Byte
  | [], _ => Memory.unlisted
  | (a, v) :: m, x => if a = x then v else memRead m x

/-- `MemWrite(addr, 1, v)` (00_scope.md R11), keeping the canonical form. -/
def memWrite : Memory → Nat → Byte → Memory
  | [], x, v => if v = Memory.unlisted then [] else [(x, v)]
  | (a, w) :: m, x, v =>
    if x < a then
      (if v = Memory.unlisted then (a, w) :: m else (x, v) :: (a, w) :: m)
    else if a = x then
      (if v = Memory.unlisted then m else (x, v) :: m)
    else (a, w) :: memWrite m x v

/-! ### Free values (00_scope.md R11 `draw`) -/

/-- The next free bit, and the state that has drawn it (log 16). -/
def drawBit (s : State) : Bool × State :=
  (Config.freeBit s.draws, { s with draws := s.draws + 1 })

/-- What PINS drives on an input register at this read: the next byte of its input, or a free byte
(10_state.md R44, 93_implementation_defined.md U8; log 13). -/
def samplePins (s : State) : Byte × State :=
  match s.pinIn with
  | v :: rest => (v, { s with pinIn := rest })
  | [] => (Config.freeByte s.draws, { s with draws := s.draws + 1 })

/-! ### Responses (30_encoding.md R95, R96) -/

/-- The status of a response. -/
inductive Status where
  | ok
  | full
  | empty
  | illegal
deriving DecidableEq, Repr

/-- The status codes (30_encoding.md R95, 60_exceptions.md R251). -/
def statusCode : Status → BitVec 2
  | .ok => 0#2
  | .full => 1#2
  | .empty => 2#2
  | .illegal => 3#2

/-- The response word: `r[15:10]` zero, `r[9:8]` status, `r[7:0]` value (30_encoding.md R95). -/
def response (status : Status) (value : Byte) : Half := 0#6 ++ statusCode status ++ value

/-- Answer on port H. -/
def answerHost (status : Status) (value : Byte) (s : State) : State :=
  { s with hostResp := some (response status value) }

/-- Answer on port P. -/
def answerProd (status : Status) (value : Byte) (s : State) : State :=
  { s with prodResp := some (response status value) }

/-- Answer on port C, with no element (log 25). -/
def answerCons (status : Status) (value : Byte) (s : State) : State :=
  { s with consResp := some (response status value), consValue := none }

/-- A request is presented on port H: MAIN is about to take its first micro-step, and the response to
the request before is gone (30_encoding.md R97; log 19). -/
def presentMain (first : Main) (s : State) : State := { s with main := first, hostResp := none }

/-- A request is presented on port P. -/
def presentProd (first : ProdOp) (s : State) : State := { s with prod := first, prodResp := none }

/-- A request is presented on port C. -/
def presentCons (first : ConsOp) (s : State) : State :=
  { s with cons := first, consResp := none, consValue := none }

/-- Port P's operation ends: the port is idle and has its response. -/
def finishProd (status : Status) (value : Byte) (s : State) : State :=
  answerProd status value { s with prod := .idle }

/-- Port C's operation ends: the port is idle and has its response. -/
def finishCons (status : Status) (value : Byte) (s : State) : State :=
  answerCons status value { s with cons := .idle }

/-- Port C's DEQ ends with `Ok(v)`: the response with its encoded byte, and the element whole
(30_encoding.md R92, R96; log 25). -/
def finishDeq (v : Nat) (s : State) : State :=
  { finishCons .ok (elementByte s.cfg v) s with consValue := some v }

/-- MAIN's operation ends with `result Ok(value)`: `main` is `Idle` and port H has its response. -/
def finishMain (value : Byte) (s : State) : State :=
  answerHost .ok value { s with main := .idle }

/-! ### Handler entry and return (60_exceptions.md R262, R264) -/

/-- Entry: only the in-service marker is written; nothing is saved (60_exceptions.md R262). -/
def enterHandler (first : Isr) (s : State) : State := { s with isr := first }

/-- Return: the marker is cleared; nothing is restored (60_exceptions.md R264). -/
def returnFromHandler (s : State) : State := { s with isr := .none }

/-! ### Agents at rest -/

/-- Whether MAIN has no operation in flight. -/
def mainIdle (s : State) : Bool :=
  match s.main with
  | .idle => true
  | .init _ _ | .write _ _ | .read _ | .rmw _ _ _ | .tsize _ | .gien | .gdis | .get _ => false

/-- Whether no handler is in service. -/
def noIsr (s : State) : Bool :=
  match s.isr with
  | .none => true
  | .rx _ | .tx _ => false

/-- Whether port P has no operation in flight. -/
def prodIdle (s : State) : Bool :=
  match s.prod with
  | .idle => true
  | .enq _ _ | .size => false

/-- Whether port C has no operation in flight. -/
def consIdle (s : State) : Bool :=
  match s.cons with
  | .idle => true
  | .deq _ | .size => false

/-- The operation MAIN has in flight, with its operands (10_state.md R41). -/
def inFlight (s : State) : Option Instr :=
  match s.main with
  | .idle => none
  | .init baud _ => some (.init baud)
  | .write byte _ => some (.write byte)
  | .read _ => some .read
  | .rmw op pin _ => some (rmwInstr op pin)
  | .tsize sel => some (.tsize sel)
  | .gien => some .gien
  | .gdis => some .gdis
  | .get pin => some (.get pin)

/-! ### Bursts -/

/-- Up to `k` micro-steps of one agent, ending early where `stop` holds (log 2). -/
def burst (stop : State → Bool) (micro : State → State) : Nat → State → State
  | 0, s => s
  | k + 1, s => if stop s then s else burst stop micro k (micro s)

/-! ### Words that are not accepted (30_encoding.md R98, R99, R101) -/

/-- A word that the agent's port does not accept is answered `ILLEGAL`/0 and changes nothing else
(30_encoding.md R98, R101). While a handler is in service MAIN takes no step (10_state.md R40); a port
takes one operation at a time (R97, R99). An agent with no port gets the refusal `why`. -/
def answerIllegal (why : Refusal) (s : State) : Result :=
  match s.agent with
  | .main =>
    if noIsr s then
      if mainIdle s then .next (answerHost .illegal 0#8 s) else .refused .portBusy
    else .next s
  | .prod => if prodIdle s then .next (answerProd .illegal 0#8 s) else .refused .portBusy
  | .cons => if consIdle s then .next (answerCons .illegal 0#8 s) else .refused .portBusy
  | .hrx | .htx | .line => .refused why

/-- A legal word that is not this agent's to perform. -/
def notAccepted (s : State) : Result := answerIllegal .roleViolation s

/-- An illegal word on a port, or as a label (30_encoding.md R101; log 5, log 6). -/
def illegalWord (s : State) : Result := answerIllegal .noSuchLabel s

/-! ### Taking a turn of the schedule (log 1) -/

/-- The next turn's word, and the state in which its agent moves. -/
def nextTurn (s : State) : Option (Word × State) :=
  match s.sched with
  | [] => none
  | t :: rest => some (t.word, { s with sched := rest, agent := t.agent, steps := t.steps, above := t.above })

/-- The agent that performs an instruction on this hardware when nothing else names one: the port that
accepts it, or the handler or line side it labels (30_encoding.md R98 to R100). -/
def presenter : Instr → Agent
  | .enq _ _ | .size _ => .prod
  | .deq _ => .cons
  | .irqrx => .hrx
  | .irqtx => .htx
  | .lrx _ | .ltx => .line
  | .init _ | .write _ | .read | .tsize _ | .gien | .gdis | .get _ | .high _ | .low _ | .dirin _
  | .dirout _ | .setv _ _ | .toggle _ => .main

/-- Put a turn in front of the schedule. -/
def scheduleNext (t : Turn) (s : State) : State := { s with sched := t :: s.sched }

end Sys2Proof.Machine
end

