-- ==== Sys2Proof/Machine/Flags.lean ====
section
/-! DEFINITION. The flags: eligibility of the two handlers, and every write of a condition flag or an
enable bit (10_state.md R43, 60_exceptions.md R261, R266). -/

namespace Sys2Proof.Machine

open Sys2Proof

/-- HRX is eligible (60_exceptions.md R261). -/
def rxEligible (s : State) : Bool := s.rxc && s.rxcIe && s.gie && noIsr s

/-- HTX is eligible (60_exceptions.md R261). -/
def txEligible (s : State) : Bool := s.txr && s.txrIe && s.gie && noIsr s

/-- HRX may be entered: it is eligible, and `IRQ_PRIO` does not put an eligible HTX first
(60_exceptions.md R263; log 21). -/
def rxMayEnter (s : State) : Bool :=
  rxEligible s && !(s.cfg.irqPrio == .txFirst && txEligible s)

/-- HTX may be entered: it is eligible, and `IRQ_PRIO` does not put an eligible HRX first
(60_exceptions.md R263; log 21). -/
def txMayEnter (s : State) : Bool :=
  txEligible s && !(s.cfg.irqPrio == .rxFirst && rxEligible s)

/-- The read of the data register: the byte `RXD`, and the state with `RXC` cleared
(20_memory.md R65). -/
def readDataRegister (s : State) : Byte × State := (s.rxd, { s with rxc := false })

/-- The write of the data register: `TXD` is stored and `TXR` cleared (20_memory.md R65). -/
def writeDataRegister (v : Byte) (s : State) : State := { s with txd := v, txr := false }

/-- Write `TXR_IE`, one atomic bit (10_state.md R35). -/
def setTxrIe (b : Bool) (s : State) : State := { s with txrIe := b }

/-- Write `GIE` (10_state.md R39). -/
def setGie (b : Bool) (s : State) : State := { s with gie := b }

/-- A byte is latched from the line: `RXC` is set; on a peripheral overrun `RXD` keeps the old or takes
the new byte, a free choice (43_line_and_host_control.md R200, R201, U2; log 15). When an overrun can
happen is log 29. -/
def latchReceived (val : Byte) (s : State) : State :=
  if s.rxc then
    { (drawBit s).2 with
      rxd := if (drawBit s).1 then val else s.rxd
      rxc := true
      lineIn := s.lineIn ++ [val] }
  else { s with rxd := val, rxc := true, lineIn := s.lineIn ++ [val] }

/-- The line takes the byte in the data register (43_line_and_host_control.md R203). -/
def takeTransmitted (s : State) : State :=
  { s with lineOut := s.lineOut ++ [s.txd], txr := true }

/-- I2's bits: `RXC_IE`, `RX_EN`, `TX_EN` set, and `TXR_IE` a draw from `{0, TXR_IE}`
(41_serial_transport.md R152, R153 (b), U1; log 14). -/
def enableByInit (s : State) : State :=
  { (drawBit s).2 with
    rxcIe := true
    rxEn := true
    txEn := true
    txrIe := s.txrIe && (drawBit s).1 }

end Sys2Proof.Machine
end

