-- ==== Sys2Proof/Machine/Mainline.lean ====
section
/-! DEFINITION. MAIN's micro-steps, and the admission of a request on port H that every MAIN operation
shares. -/

namespace Sys2Proof.Machine

open Sys2Proof

/-- One micro-step of `INIT baud` (41_serial_transport.md R152). -/
def initMicro (baud : BitVec 24) (pos : InitAt) (s : State) : State :=
  match pos with
  | .i1 => { s with baudDiv := Config.divisor s.cfg.fClk baud.toNat, main := .init baud .i2 }
  | .i2 => { enableByInit s with main := .init baud .i3 }
  | .i3 =>
    { s with
      frame := { dataBits := 8, parity := .none, stop := s.cfg.stopBits }
      main := .init baud .i4 }
  | .i4 => finishMain 0#8 { s with st := .ready }

/-- Where W2 goes after one micro-step of its ENQ: `Full` starts a new attempt at E1
(41_serial_transport.md R155). -/
def afterEnq (cur : Byte) (pendingLf : Bool) : EnqNext → WriteAt
  | .more pos => .w2 cur pendingLf pos
  | .full => .w2 cur pendingLf .e1
  | .ok => .w3 pendingLf

/-- One micro-step of `WRITE byte` (41_serial_transport.md R155; log 18). -/
def writeMicro (byte : Byte) (pos : WriteAt) (s : State) : State :=
  match pos with
  | .w1 =>
    { s with
      main := .write byte (if byte = s.cfg.lf then .w2 s.cfg.cr true .e1 else .w2 byte false .e1) }
  | .w2 cur pendingLf e =>
    { s with
      txb := (enqMicro s.cfg.nTx cur e s.txb).1
      main := .write byte (afterEnq cur pendingLf (enqMicro s.cfg.nTx cur e s.txb).2) }
  | .w3 pendingLf => { setTxrIe true s with main := .write byte (.w4 pendingLf) }
  | .w4 true => { s with main := .write byte (.w2 s.cfg.lf false .e1) }
  | .w4 false => finishMain 0#8 s

/-- Where Rd1 goes after one micro-step of its DEQ: `Empty` starts a new attempt at D1
(41_serial_transport.md R160). -/
def afterDeqRead : DeqNext Byte → ReadAt
  | .more pos => .rd1 pos
  | .empty => .rd1 .d1
  | .ok v => .rd2 v

/-- One micro-step of READ (41_serial_transport.md R160; log 18). -/
def readMicro (pos : ReadAt) (s : State) : State :=
  match pos with
  | .rd1 d =>
    { s with
      rxb := (deqMicro s.cfg.nRx d s.rxb).1
      main := .read (afterDeqRead (deqMicro s.cfg.nRx d s.rxb).2) }
  | .rd2 v => finishMain v s

/-- One micro-step of a GPIO read-modify-write: P1 reads, P2 writes (44_gpio.md R224 to R229). -/
def rmwMicro (op : RmwOp) (pin : Byte) (pos : RmwAt) (s : State) : State :=
  match pos with
  | .p1 => { s with main := .rmw op pin (.p2 (memRead s.gpio (rmwAddr s.cfg op pin))) }
  | .p2 x =>
    finishMain 0#8
      { s with gpio := memWrite s.gpio (rmwAddr s.cfg op pin) (rmwValue op x (pinMask pin)) }

/-- GET's one micro-step: PINS drives the input register, GET reads it and answers its bit
(44_gpio.md R223; log 13). -/
def getMicro (pin : Byte) (s : State) : State :=
  finishMain (if (samplePins s).1 &&& pinMask pin = 0#8 then 0#8 else 1#8)
    { (samplePins s).2 with
      gpio := memWrite s.gpio (addrIn s.cfg (pinPort pin)) (samplePins s).1 }

/-- MAIN's next micro-step (10_state.md R42). With nothing in flight there is none. TSIZE's is SIZE's S1
on the buffer it names (41_serial_transport.md R163, 40_ring_buffer.md R129); GIEN and GDIS write `GIE`
(43_line_and_host_control.md R206, R207). -/
def mainMicro (s : State) : State :=
  match s.main with
  | .idle => s
  | .init baud pos => initMicro baud pos s
  | .write byte pos => writeMicro byte pos s
  | .read pos => readMicro pos s
  | .rmw op pin pos => rmwMicro op pin pos s
  | .tsize sel => finishMain (countOf s sel) s
  | .gien => finishMain 0#8 (setGie true s)
  | .gdis => finishMain 0#8 (setGie false s)
  | .get pin => getMicro pin s

/-- Up to `k` micro-steps of MAIN, ending with its operation. -/
def runMain (k : Nat) (s : State) : State := burst mainIdle mainMicro k s

/-- An operation of port H (30_encoding.md R98), `first` its first position and `bar` why the spec gives
it no meaning here, if it gives none (log 24). MAIN, when no handler is in service (10_state.md R40),
presents it, or goes on with it when it is the operation in flight, and takes the turn's micro-steps; on
ports P and C it is not accepted; the other agents have not the role (log 17). -/
def byMain (i : Instr) (first : Main) (bar : Option Refusal) (s : State) : Result :=
  match s.agent with
  | .main =>
    if noIsr s then
      match inFlight s, bar with
      | none, none => .next (runMain s.steps (presentMain first s))
      | none, some why => .refused why
      | some j, _ => if j = i then .next (runMain s.steps s) else .refused .portBusy
    else .next s
  | .prod | .cons | .hrx | .htx | .line => notAccepted s

end Sys2Proof.Machine
end

