-- ==== Sys2Proof/Machine/Gpio.lean ====
section
/-! DEFINITION. Unit GP: the meanings of GET, HIGH, LOW, DIRIN, DIROUT, SETV and TOGGLE
(44_gpio.md R223 to R229). -/

namespace Sys2Proof.Machine

open Sys2Proof

/-- Why an operation on a pin has no meaning: it is the sentinel (U4), or of an absent port (U5)
(44_gpio.md R232; log 17). -/
def pinBar (c : Config) (pin : Byte) : Option Refusal :=
  if pin = c.noPin then some .sentinelPin
  else if c.nports ≤ pinPort pin then some .absentPort
  else none

/-- A read-modify-write (44_gpio.md R224 to R229). -/
def byRmw (op : RmwOp) (pin : Byte) (s : State) : Result :=
  byMain (rmwInstr op pin) (.rmw op pin .p1) (pinBar s.cfg pin) s

/-- GET (44_gpio.md R223). -/
def execGet (pin : Byte) (s : State) : Result := byMain (.get pin) (.get pin) (pinBar s.cfg pin) s

/-- HIGH (44_gpio.md R224). -/
def execHigh (pin : Byte) (s : State) : Result := byRmw .high pin s

/-- LOW (44_gpio.md R225). -/
def execLow (pin : Byte) (s : State) : Result := byRmw .low pin s

/-- DIRIN (44_gpio.md R226). -/
def execDirin (pin : Byte) (s : State) : Result := byRmw .dirin pin s

/-- DIROUT (44_gpio.md R227). -/
def execDirout (pin : Byte) (s : State) : Result := byRmw .dirout pin s

/-- SETV (44_gpio.md R228). -/
def execSetv (pin pval : Byte) (s : State) : Result := byRmw (.setv pval) pin s

/-- TOGGLE (44_gpio.md R229). -/
def execToggle (pin : Byte) (s : State) : Result := byRmw .toggle pin s

end Sys2Proof.Machine
end

