-- ==== Sys2Proof/Machine/HostControl.lean ====
section
/-! DEFINITION. Unit IC: the meanings of GIEN and GDIS (43_line_and_host_control.md R206, R207). -/

namespace Sys2Proof.Machine

open Sys2Proof

/-- GIEN: `GIE <- 1` (43_line_and_host_control.md R206). -/
def execGien (s : State) : Result := byMain .gien .gien none s

/-- GDIS: `GIE <- 0` (43_line_and_host_control.md R207). -/
def execGdis (s : State) : Result := byMain .gdis .gdis none s

end Sys2Proof.Machine
end

