-- ==== Sys2Proof/Machine/Line.lean ====
section
/-! DEFINITION. The line events: the meanings of LRX and LTX (43_line_and_host_control.md R200, R203). -/

namespace Sys2Proof.Machine

open Sys2Proof

/-- LRX: a byte arrives (43_line_and_host_control.md R200). With `RX_EN` = 0 it is no step (log 3). It may
occur at any point, inside a handler too (20_memory.md R68). DESIGN CHOICE: it may follow another LRX
also while HRX is eligible and not yet entered (R208, 60_exceptions.md R262), where R201 (a) may be read
to say that no second byte arrives then (log 29). -/
def execLrx (val : Byte) (s : State) : Result :=
  match s.agent with
  | .line => if s.rxEn then .next (latchReceived val s) else .next s
  | .main | .prod | .cons | .hrx | .htx => notAccepted s

/-- LTX: the line takes the byte in the data register (43_line_and_host_control.md R203), enabled only
when `TX_EN` = 1 and `TXR` = 0; else it is no step (R204 (a); log 3). -/
def execLtx (s : State) : Result :=
  match s.agent with
  | .line => if s.txEn && !s.txr then .next (takeTransmitted s) else .next s
  | .main | .prod | .cons | .hrx | .htx => notAccepted s

end Sys2Proof.Machine
end

