-- ==== Sys2Proof/Machine/Handlers.lean ====
section
/-! DEFINITION. The two interrupt handlers: their micro-steps, and the meanings of IRQRX and IRQTX
(42_interrupt_handlers.md). -/

namespace Sys2Proof.Machine

open Sys2Proof

/-- Where H2 goes after one micro-step of its ENQ: on `Full` the byte is discarded and nothing else
happens (42_interrupt_handlers.md R180). -/
def afterEnqRx (d : Byte) : EnqNext → RxAt
  | .more pos => .h2 d pos
  | .full => .h3
  | .ok => .h3

/-- One micro-step of HRX (42_interrupt_handlers.md R180). -/
def rxMicro (pos : RxAt) (s : State) : State :=
  match pos with
  | .h1 => { (readDataRegister s).2 with isr := .rx (.h2 (readDataRegister s).1 .e1) }
  | .h2 d e =>
    { s with
      rxb := (enqMicro s.cfg.nRx d e s.rxb).1
      isr := .rx (afterEnqRx d (enqMicro s.cfg.nRx d e s.rxb).2) }
  | .h3 => returnFromHandler s

/-- Where T1 goes after one micro-step of its DEQ (42_interrupt_handlers.md R184). -/
def afterDeqTx : DeqNext Byte → TxAt
  | .more pos => .t1 pos
  | .ok v => .t2a v
  | .empty => .t2b

/-- One micro-step of HTX (42_interrupt_handlers.md R184). -/
def txMicro (pos : TxAt) (s : State) : State :=
  match pos with
  | .t1 d =>
    { s with
      txb := (deqMicro s.cfg.nTx d s.txb).1
      isr := .tx (afterDeqTx (deqMicro s.cfg.nTx d s.txb).2) }
  | .t2a v => { writeDataRegister v s with isr := .tx .t3 }
  | .t2b => { setTxrIe false s with isr := .tx .t3 }
  | .t3 => returnFromHandler s

/-- The next micro-step of the handler in service; with none in service there is none. -/
def isrMicro (s : State) : State :=
  match s.isr with
  | .none => s
  | .rx pos => rxMicro pos s
  | .tx pos => txMicro pos s

/-- Up to `k` micro-steps of the handler in service, ending with its return. -/
def runIsr (k : Nat) (s : State) : State := burst noIsr isrMicro k s

/-- IRQRX (42_interrupt_handlers.md R180). HRX is entered when it may be, or goes on when it is in
service; when neither holds there is no step (60_exceptions.md R261; log 3). Entry comes
before the turn's micro-steps and may stand alone (R262; log 2). -/
def execIrqrx (s : State) : Result :=
  match s.agent with
  | .hrx =>
    match s.isr with
    | .none =>
      if rxMayEnter s then .next (runIsr s.steps (enterHandler (.rx .h1) s)) else .next s
    | .rx _ => .next (runIsr s.steps s)
    | .tx _ => .next s
  | .main | .prod | .cons | .htx | .line => notAccepted s

/-- IRQTX (42_interrupt_handlers.md R184), as IRQRX for HTX. -/
def execIrqtx (s : State) : Result :=
  match s.agent with
  | .htx =>
    match s.isr with
    | .none =>
      if txMayEnter s then .next (runIsr s.steps (enterHandler (.tx (.t1 .d1)) s)) else .next s
    | .tx _ => .next (runIsr s.steps s)
    | .rx _ => .next s
  | .main | .prod | .cons | .hrx | .line => notAccepted s

end Sys2Proof.Machine
end

