-- ==== Sys2Proof/Machine/RingPrimitives.lean ====
section
/-! DEFINITION. Unit RB: the meanings of ENQ, DEQ and SIZE (40_ring_buffer.md), as requests on ports P
and C of the standalone RB (30_encoding.md R99), and as labels of the ring primitive that WRITE, READ,
TSIZE, HRX or HTX has in flight (R100). -/

namespace Sys2Proof.Machine

open Sys2Proof

/-- One micro-step of port P's operation on the standalone RB (40_ring_buffer.md R121, R129,
30_encoding.md R96). -/
def prodMicro (s : State) : State :=
  match s.prod with
  | .idle => s
  | .enq v e =>
    match enqMicro s.cfg.nRb v e s.rb with
    | (b, .more pos) => { s with rb := b, prod := .enq v pos }
    | (b, .ok) => finishProd .ok 0#8 { s with rb := b }
    | (b, .full) => finishProd .full 0#8 { s with rb := b }
  | .size => finishProd .ok s.rb.count s

/-- Up to `k` micro-steps of port P's operation. -/
def runProd (k : Nat) (s : State) : State := burst prodIdle prodMicro k s

/-- One micro-step of port C's operation on the standalone RB (40_ring_buffer.md R125, R129,
30_encoding.md R96). DEQ's `Ok` gives the element, whole (log 25). -/
def consMicro (s : State) : State :=
  match s.cons with
  | .idle => s
  | .deq d =>
    match deqMicro s.cfg.nRb d s.rb with
    | (b, .more pos) => { s with rb := b, cons := .deq pos }
    | (b, .ok v) => finishDeq v { s with rb := b }
    | (b, .empty) => finishCons .empty 0#8 { s with rb := b }
  | .size => finishCons .ok s.rb.count s

/-- Up to `k` micro-steps of port C's operation. -/
def runCons (k : Nat) (s : State) : State := burst consIdle consMicro k s

/-- The first position of port P's operation, which says which operation it is. -/
def ProdOp.first : ProdOp → ProdOp
  | .idle => .idle
  | .enq v _ => .enq v .e1
  | .size => .size

/-- The first position of port C's operation, which says which operation it is. -/
def ConsOp.first : ConsOp → ConsOp
  | .idle => .idle
  | .deq _ => .deq .d1
  | .size => .size

/-- A request port P accepts: presented on an idle port, gone on with when it is in flight
(30_encoding.md R99; log 4). -/
def byProd (first : ProdOp) (s : State) : Result :=
  if prodIdle s then .next (runProd s.steps (presentProd first s))
  else if s.prod.first = first then .next (runProd s.steps s)
  else .refused .portBusy

/-- A request port C accepts (30_encoding.md R99; log 4). -/
def byCons (first : ConsOp) (s : State) : Result :=
  if consIdle s then .next (runCons s.steps (presentCons first s))
  else if s.cons.first = first then .next (runCons s.steps s)
  else .refused .portBusy

/-- The element MAIN's WRITE is enqueuing at W2, if it is there. -/
def mainEnqueuing (s : State) : Option Byte :=
  match s.main with
  | .write _ (.w2 cur _ _) => some cur
  | .write _ .w1 | .write _ (.w3 _) | .write _ (.w4 _) | .idle | .init _ _ | .read _ | .rmw _ _ _
  | .tsize _ | .gien | .gdis | .get _ => none

/-- Whether MAIN's READ is dequeuing at Rd1. -/
def mainDequeuing (s : State) : Bool :=
  match s.main with
  | .read (.rd1 _) => true
  | .read (.rd2 _) | .idle | .init _ _ | .write _ _ | .rmw _ _ _
  | .tsize _ | .gien | .gdis | .get _ => false

/-- The element HRX is enqueuing at H2, if it is there. -/
def rxEnqueuing (s : State) : Option Byte :=
  match s.isr with
  | .rx (.h2 d _) => some d
  | .rx .h1 | .rx .h3 | .none | .tx _ => none

/-- Whether HTX is dequeuing at T1. -/
def txDequeuing (s : State) : Bool :=
  match s.isr with
  | .tx (.t1 _) => true
  | .tx (.t2a _) | .tx .t2b | .tx .t3 | .none | .rx _ => false

/-- The buffer MAIN's TSIZE is about to read the `count` of, if a TSIZE is there. -/
def mainSizing (s : State) : Option Sel :=
  match s.main with
  | .tsize sel => some sel
  | .idle | .init _ _ | .write _ _ | .read _ | .rmw _ _ _ | .gien | .gdis | .get _ => none

/-- ENQ (40_ring_buffer.md R121). Port P performs it on the standalone RB, whose `sel` must be 0
(30_encoding.md R92, R99); on port C it is a role violation (R104). DESIGN CHOICE: with `sel` = 1, on
port P or C, it is answered `ILLEGAL` and not refused as R103 and R104 may be read (log 28). As a label (R100) it is MAIN's ENQ
on TXB inside WRITE, or HRX's on RXB inside IRQRX, with the element in flight (log 7); on port H it is
otherwise not accepted (R98). -/
def execEnq (sel : Sel) (val : Byte) (s : State) : Result :=
  match s.agent with
  | .prod => if sel = .tx then byProd (.enq (enqElement s val) .e1) s else notAccepted s
  | .cons => if consIdle s && sel == .tx then .refused .roleViolation else notAccepted s
  | .main =>
    if noIsr s && sel == .tx && mainEnqueuing s == some val then
      .next (burst (fun t => mainEnqueuing t == none) mainMicro s.steps s)
    else notAccepted s
  | .hrx =>
    if sel == .rx && rxEnqueuing s == some val then
      .next (burst (fun t => rxEnqueuing t == none) isrMicro s.steps s)
    else notAccepted s
  | .htx | .line => notAccepted s

/-- DEQ (40_ring_buffer.md R125). Port C performs it on the standalone RB; on port P it is a role
violation (30_encoding.md R104). DESIGN CHOICE: with `sel` = 1, on port P or C, it is answered `ILLEGAL`
and not refused as R103 and R104 may be read (log 28). As a label (R100) it is MAIN's DEQ on RXB inside READ, or HTX's on TXB
inside IRQTX (log 7). -/
def execDeq (sel : Sel) (s : State) : Result :=
  match s.agent with
  | .cons => if sel = .tx then byCons (.deq .d1) s else notAccepted s
  | .prod => if prodIdle s && sel == .tx then .refused .roleViolation else notAccepted s
  | .main =>
    if noIsr s && sel == .rx && mainDequeuing s then
      .next (burst (fun t => !mainDequeuing t) mainMicro s.steps s)
    else notAccepted s
  | .htx =>
    if sel == .tx && txDequeuing s then
      .next (burst (fun t => !txDequeuing t) isrMicro s.steps s)
    else notAccepted s
  | .hrx | .line => notAccepted s

/-- SIZE (40_ring_buffer.md R129): ports P and C read `count` of the standalone RB with `sel` = 0
(30_encoding.md R99). As a label (R100) it is the SIZE inside MAIN's TSIZE, of the buffer TSIZE names
(log 7); on port H it is otherwise not accepted (R98). -/
def execSize (sel : Sel) (s : State) : Result :=
  match s.agent with
  | .prod => if sel = .tx then byProd .size s else notAccepted s
  | .cons => if sel = .tx then byCons .size s else notAccepted s
  | .main =>
    if noIsr s && mainSizing s == some sel then
      .next (burst (fun t => mainSizing t == none) mainMicro s.steps s)
    else notAccepted s
  | .hrx | .htx | .line => notAccepted s

end Sys2Proof.Machine
end

