-- ==== Sys2Proof/Machine/Transport.lean ====
section
/-! DEFINITION. Unit ST: the meanings of INIT, WRITE, READ and TSIZE (41_serial_transport.md). -/

namespace Sys2Proof.Machine

open Sys2Proof

/-- Why WRITE and READ have no meaning: `st` is `Uninitialized` (41_serial_transport.md R151, U6;
log 17). -/
def lifecycleBar (s : State) : Option Refusal :=
  match s.st with
  | .uninitialized => some .uninitialized
  | .ready => none

/-- INIT (41_serial_transport.md R152), allowed in both lifecycle states (R151, R153). `baud` = 0 has no
legal word and is answered as one (30_encoding.md R101 (d)). -/
def execInit (baud : BitVec 24) (s : State) : Result :=
  if baud = 0#24 then notAccepted s else byMain (.init baud) (.init baud .i1) none s

/-- WRITE (41_serial_transport.md R155), refused before INIT (R151; log 17, log 24). -/
def execWrite (val : Byte) (s : State) : Result :=
  byMain (.write val) (.write val .w1) (lifecycleBar s) s

/-- READ (41_serial_transport.md R160), refused before INIT (R151; log 17, log 24). -/
def execRead (s : State) : Result := byMain .read (.read (.rd1 .d1)) (lifecycleBar s) s

/-- TSIZE (41_serial_transport.md R163), allowed in both lifecycle states (R151). -/
def execTsize (sel : Sel) (s : State) : Result := byMain (.tsize sel) (.tsize sel) none s

end Sys2Proof.Machine
end

