-- ==== Sys2Proof/Machine/Dispatch.lean ====
section
/-! DEFINITION. The dispatch: one arm per operation of 30_encoding.md R93, in the table's order. -/

namespace Sys2Proof.Machine

open Sys2Proof

/-- One turn of the agent `s.agent`, labelled with the operation `i`. -/
def exec (i : Instr) (s : State) : Host.Outcome State Fault Refusal :=
  match i with
  | .enq sel val => Sys2Proof.Machine.execEnq sel val s
  | .deq sel => Sys2Proof.Machine.execDeq sel s
  | .size sel => Sys2Proof.Machine.execSize sel s
  | .init baud => Sys2Proof.Machine.execInit baud s
  | .write val => Sys2Proof.Machine.execWrite val s
  | .read => Sys2Proof.Machine.execRead s
  | .tsize sel => Sys2Proof.Machine.execTsize sel s
  | .gien => Sys2Proof.Machine.execGien s
  | .gdis => Sys2Proof.Machine.execGdis s
  | .irqrx => Sys2Proof.Machine.execIrqrx s
  | .irqtx => Sys2Proof.Machine.execIrqtx s
  | .lrx val => Sys2Proof.Machine.execLrx val s
  | .ltx => Sys2Proof.Machine.execLtx s
  | .get pin => Sys2Proof.Machine.execGet pin s
  | .high pin => Sys2Proof.Machine.execHigh pin s
  | .low pin => Sys2Proof.Machine.execLow pin s
  | .dirin pin => Sys2Proof.Machine.execDirin pin s
  | .dirout pin => Sys2Proof.Machine.execDirout pin s
  | .setv pin pval => Sys2Proof.Machine.execSetv pin pval s
  | .toggle pin => Sys2Proof.Machine.execToggle pin s

end Sys2Proof.Machine
end

