-- ==== Sys2Proof/Machine/Step.lean ====
section
/-! DEFINITION. One step: the next turn of the schedule is taken, its word decoded, and its operation
run by its agent (00_scope.md R16; log 1). -/

namespace Sys2Proof.Machine

open Sys2Proof

/-- One step. With no turn scheduled no agent moves and the block stays as it is
(70_reset_and_hazards.md R311: it never halts of itself; log 1). -/
def step (s : State) : Host.Outcome State Fault Refusal :=
  match nextTurn s with
  | none => .next s
  | some (w, s') =>
    match decode w with
    | .instr i => exec i s'
    | .illegal _ => illegalWord s'

/-- The agent a word goes to when it stands alone: the performer of its operation, or MAIN's port for an
illegal word. -/
def State.wordAgent (w : Word) : Agent :=
  match decode w with
  | .instr i => presenter i
  | .illegal _ => .main

/-- `s` with the operation word `w` as the next turn of the schedule, on the port or as the label its
operation belongs to, with micro-steps enough to run any operation that does not wait (log 1). Every
operation word is one 32-bit word, so `nbits` adds nothing (30_encoding.md R91). -/
def State.withFetchWord (s : State) (_nbits w : Nat) : State :=
  scheduleNext
    { agent := State.wordAgent (BitVec.ofNat 32 w), word := BitVec.ofNat 32 w, steps := 32
      above := 0 } s

end Sys2Proof.Machine
end

