-- ==== Sys2Proof/Safety.lean ====
section
/-! DEFINITION. What claims about SIOC are stated in: the whole effect of a ring primitive, the queue a
ring holds, the invariants of the rings and of the machine, finished and drained states, and the
fairness assumptions. -/

namespace Sys2Proof.Machine

open Sys2Proof

/-! ### Rings -/

section
variable {α : Type}

/-- The whole effect of a successful ENQ, E2 to E4 (40_ring_buffer.md R121). -/
def ringPut (n : Nat) (v : α) (b : RingBuf α) : RingBuf α where
  mem := b.mem.set b.tail.toNat v
  head := b.head
  tail := advance n b.tail
  count := b.count + 1#8

/-- The whole effect of a successful DEQ on the ring, D2 to D4 (40_ring_buffer.md R125). -/
def ringTake (n : Nat) (b : RingBuf α) : RingBuf α where
  mem := b.mem
  head := advance n b.head
  tail := b.tail
  count := b.count - 1#8

/-- Slot `i` of the backing array. -/
def slotAt [Inhabited α] (b : RingBuf α) (i : Nat) : α := b.mem.getD i (Config.slotOutside i)

/-- The `k` elements from `head` on, oldest first (10_state.md R26). -/
def liveFrom [Inhabited α] (n : Nat) (b : RingBuf α) (k : Nat) : List α :=
  (List.range k).map (fun j => slotAt b ((b.head.toNat + j) % n))

/-- The live elements of a quiescent ring (10_state.md R26). -/
def queue [Inhabited α] (n : Nat) (b : RingBuf α) : List α := liveFrom n b b.count.toNat

/-- 1 when the producer has advanced `tail` (E3) and not yet published (E4), else 0. -/
def unpublished : Option (α × EnqAt) → Nat
  | some (_, .e4) => 1
  | some (_, .e1) | some (_, .e2) | some (_, .e3) | none => 0

/-- 1 when the consumer has advanced `head` (D3) and not yet released (D4), else 0. -/
def unreleased : Option (DeqAt α) → Nat
  | some (.d4 _) => 1
  | some .d1 | some .d2 | some (.d3 _) | none => 0

/-- Whether the producer is past E1's decision to go on. -/
def pastE1 : Option (α × EnqAt) → Bool
  | some (_, .e2) | some (_, .e3) | some (_, .e4) => true
  | some (_, .e1) | none => false

/-- Whether the consumer is past D1's decision to go on. -/
def pastD1 : Option (DeqAt α) → Bool
  | some .d2 | some (.d3 _) | some (.d4 _) => true
  | some .d1 | none => false

/-- How many elements lie between the two cursors: `E - D` of 10_state.md R26. -/
def between (b : RingBuf α) (p : Option (α × EnqAt)) (c : Option (DeqAt α)) : Nat :=
  b.count.toNat + unpublished p - unreleased c

/-- The elements between the two cursors, oldest first. -/
def inRing [Inhabited α] (n : Nat) (b : RingBuf α) (p : Option (α × EnqAt)) (c : Option (DeqAt α)) :
    List α :=
  liveFrom n b (between b p c)

/-- The invariant of a ring of capacity `n` whose producer stands at `p` and consumer at `c`, in flight
or not (10_state.md R26, 40_ring_buffer.md R135). -/
structure RingOk [Inhabited α] (n : Nat) (b : RingBuf α) (p : Option (α × EnqAt))
    (c : Option (DeqAt α)) : Prop where
  /-- The backing array has `N` slots. -/
  size : b.mem.length = n
  /-- `head < N`. -/
  head : b.head.toNat < n
  /-- `tail < N`. -/
  tail : b.tail.toNat < n
  /-- `count <= N`. -/
  count : b.count.toNat ≤ n
  /-- A producer past E1 has room. -/
  room : pastE1 p = true → b.count.toNat < n
  /-- A consumer past D1 has an element. -/
  element : pastD1 c = true → 0 < b.count.toNat
  /-- `tail` and `head` differ by the elements between them, modulo `N`. -/
  cursors : (b.head.toNat + b.count.toNat + unpublished p) % n = (b.tail.toNat + unreleased c) % n
  /-- After E2 the slot at `tail` holds the element. -/
  stored : ∀ v, p = some (v, .e3) → slotAt b b.tail.toNat = v
  /-- After D2 the temporary holds the element at `head`. -/
  copied : ∀ v, c = some (.d3 v) → slotAt b b.head.toNat = v

end

/-- Where a producer of `v` stands after a micro-step. -/
def afterEnqMicro {α : Type} (v : α) : EnqNext → Option (α × EnqAt)
  | .more e => some (v, e)
  | .ok | .full => none

/-- Where a consumer stands after a micro-step. -/
def afterDeqMicro {α : Type} : DeqNext α → Option (DeqAt α)
  | .more d => some d
  | .ok _ | .empty => none

/-! ### Where the producers and consumers stand -/

/-- MAIN as producer of TXB. -/
def txbProducer (s : State) : Option (Byte × EnqAt) :=
  match s.main with
  | .write _ (.w2 cur _ e) => some (cur, e)
  | .write _ .w1 | .write _ (.w3 _) | .write _ (.w4 _) | .idle | .init _ _ | .read _ | .rmw _ _ _
  | .tsize _ | .gien | .gdis | .get _ => none

/-- HTX as consumer of TXB. -/
def txbConsumer (s : State) : Option (DeqAt Byte) :=
  match s.isr with
  | .tx (.t1 d) => some d
  | .tx (.t2a _) | .tx .t2b | .tx .t3 | .none | .rx _ => none

/-- HRX as producer of RXB. -/
def rxbProducer (s : State) : Option (Byte × EnqAt) :=
  match s.isr with
  | .rx (.h2 d e) => some (d, e)
  | .rx .h1 | .rx .h3 | .none | .tx _ => none

/-- MAIN as consumer of RXB. -/
def rxbConsumer (s : State) : Option (DeqAt Byte) :=
  match s.main with
  | .read (.rd1 d) => some d
  | .read (.rd2 _) | .idle | .init _ _ | .write _ _ | .rmw _ _ _
  | .tsize _ | .gien | .gdis | .get _ => none

/-- Port P as producer of the standalone RB. -/
def rbProducer (s : State) : Option (Nat × EnqAt) :=
  match s.prod with
  | .enq v e => some (v, e)
  | .idle | .size => none

/-- Port C as consumer of the standalone RB. -/
def rbConsumer (s : State) : Option (DeqAt Nat) :=
  match s.cons with
  | .deq d => some d
  | .idle | .size => none

/-! ### The machine -/

/-- Whether HTX is in service and has not yet written the data register or its enable. -/
def txBeforeWrite (s : State) : Bool :=
  match s.isr with
  | .tx (.t1 _) | .tx (.t2a _) | .tx .t2b => true
  | .tx .t3 | .none | .rx _ => false

/-- Every element of the standalone RB is a `W_T`-bit value wherever it stands: in a slot, with the
producer, with the consumer, or in port C's response (10_state.md R25, 20_memory.md R64). -/
structure ElementsFit (s : State) : Prop where
  /-- In the slots. -/
  slots : ∀ x ∈ s.rb.mem, x < 2 ^ s.cfg.wT
  /-- The producer's. -/
  producer : ∀ v e, rbProducer s = some (v, e) → v < 2 ^ s.cfg.wT
  /-- The consumer's, once it is read. -/
  consumer : ∀ v, rbConsumer s = some (.d3 v) ∨ rbConsumer s = some (.d4 v) → v < 2 ^ s.cfg.wT
  /-- The one in port C's response. -/
  given : ∀ v, s.consValue = some v → v < 2 ^ s.cfg.wT

/-- The invariant of the machine. -/
structure Inv (s : State) : Prop where
  /-- The configuration meets 00_scope.md R6. -/
  cfg : s.cfg.wf = true
  /-- TXB under MAIN and HTX. -/
  txb : RingOk s.cfg.nTx s.txb (txbProducer s) (txbConsumer s)
  /-- RXB under HRX and MAIN. -/
  rxb : RingOk s.cfg.nRx s.rxb (rxbProducer s) (rxbConsumer s)
  /-- The standalone RB under ports P and C. -/
  rb : RingOk s.cfg.nRb s.rb (rbProducer s) (rbConsumer s)
  /-- The elements of the standalone RB are `W_T`-bit values. -/
  fits : ElementsFit s
  /-- HTX finds the data register free (42_interrupt_handlers.md R184). -/
  free : txBeforeWrite s = true → s.txr = true
  /-- The GPIO space has its canonical form. -/
  gpio : s.gpio.wf = true

/-- Whether MAIN is inside WRITE after an E4 and before the following W3. -/
def beforeW3 (s : State) : Bool :=
  match s.main with
  | .write _ (.w3 _) => true
  | .write _ .w1 | .write _ (.w2 _ _ _) | .write _ (.w4 _) | .idle | .init _ _ | .read _
  | .rmw _ _ _ | .tsize _ | .gien | .gdis | .get _ => false

/-- Whether MAIN has a WRITE in flight. -/
def mainWriting (s : State) : Bool :=
  match s.main with
  | .write _ _ => true
  | .idle | .init _ _ | .read _ | .rmw _ _ _ | .tsize _ | .gien | .gdis | .get _ => false

/-- Whether MAIN has an INIT in flight. -/
def mainInitialising (s : State) : Bool :=
  match s.main with
  | .init _ _ => true
  | .idle | .write _ _ | .read _ | .rmw _ _ _ | .tsize _ | .gien | .gdis | .get _ => false

/-- The transmit gating of 41_serial_transport.md R167, with what its proof carries through a handler and
before INIT: a byte in TXB is never stranded with the interrupt disabled. -/
structure TxGated (s : State) : Prop where
  /-- `TXB.count > 0` has `TXR_IE = 1`, unless MAIN is between an E4 and its W3. -/
  armed : 0 < s.txb.count.toNat → s.txrIe = true ∨ beforeW3 s = true
  /-- At T2b TXB is empty. -/
  empty : s.isr = .tx .t2b → s.txb.count = 0#8
  /-- Before INIT nothing has been written. -/
  fresh : s.st = .uninitialized → s.txb.count = 0#8 ∧ mainWriting s = false

/-- What HTX has taken from TXB and not yet written to the data register. -/
def txInHand (s : State) : List Byte :=
  match s.isr with
  | .tx (.t1 (.d4 v)) => [v]
  | .tx (.t2a v) => [v]
  | .tx (.t1 .d1) | .tx (.t1 .d2) | .tx (.t1 (.d3 _)) | .tx .t2b | .tx .t3 | .none | .rx _ => []

/-- Every byte MAIN has enqueued, in order, wherever it stands: on the line, in the data register, in
HTX's hand, or in TXB (20_memory.md R73). -/
def txStream (s : State) : List Byte :=
  s.lineOut ++ (if s.txr then [] else [s.txd]) ++ txInHand s
    ++ inRing s.cfg.nTx s.txb (txbProducer s) (txbConsumer s)

/-- What WRITE enqueues for one byte (41_serial_transport.md R157). -/
def expand (c : Config) (b : Byte) : List Byte := if b = c.lf then [c.cr, c.lf] else [b]

/-- What the WRITE in flight has still to enqueue: until its E3 the byte it is enqueuing, and until W4
the LF after a CR (41_serial_transport.md R155, R157). -/
def pendingOut (s : State) : List Byte :=
  match s.main with
  | .write byte .w1 => expand s.cfg byte
  | .write _ (.w2 _ lf .e4) | .write _ (.w3 lf) | .write _ (.w4 lf) => if lf then [s.cfg.lf] else []
  | .write _ (.w2 cur lf .e1) | .write _ (.w2 cur lf .e2) | .write _ (.w2 cur lf .e3) =>
    cur :: (if lf then [s.cfg.lf] else [])
  | .idle | .init _ _ | .read _ | .rmw _ _ _ | .tsize _ | .gien | .gdis | .get _ => []

/-- MAIN has the turn, no handler is in service and no operation is in flight: a request may be presented
on port H (30_encoding.md R97, 10_state.md R40). -/
def hostReady (s : State) : Bool := s.agent == .main && noIsr s && mainIdle s

/-- A pin that meets the precondition of 44_gpio.md R232. -/
def pinOk (c : Config) (pin : Byte) : Bool := pin != c.noPin && decide (pinPort pin < c.nports)

/-- The operation `i` is under way in `s`, and the agent whose turn it is performs it. -/
def goesOn (i : Instr) (s : State) : Bool :=
  match i with
  | .irqrx => s.agent == .hrx && (match s.isr with | .rx _ => true | .none | .tx _ => false)
  | .irqtx => s.agent == .htx && (match s.isr with | .tx _ => true | .none | .rx _ => false)
  | .enq sel v =>
    s.agent == .prod && sel == .tx
      && s.prod.first == .enq (enqElement s v) .e1
  | .deq sel => s.agent == .cons && sel == .tx && s.cons.first == .deq .d1
  | .size sel =>
    sel == .tx && ((s.agent == .prod && s.prod == .size) || (s.agent == .cons && s.cons == .size))
  | .init _ | .write _ | .read | .tsize _ | .gien | .gdis | .get _ | .high _ | .low _ | .dirin _
  | .dirout _ | .setv _ _ | .toggle _ => s.agent == .main && inFlight s == some i
  | .lrx _ | .ltx => false

/-- A finished state (70_reset_and_hazards.md R311). -/
def finished (s : State) : Bool := mainIdle s && noIsr s && !rxEligible s && !txEligible s

/-- A drained state (70_reset_and_hazards.md R311). -/
def drained (s : State) : Bool := finished s && s.txb.count == 0#8 && !s.txrIe && s.txr

/-! ### Runs and the fairness assumptions (70_reset_and_hazards.md R310; log 22) -/

/-- An endless run under an endless schedule. -/
def IsRun (turns : Nat → Turn) (r : Nat → State) : Prop :=
  ∀ n, step (scheduleNext (turns n) (r n)) = .next (r (n + 1))

/-- F1: a handler that stays eligible is eventually entered (an entered one is not eligible). What `stays
eligible` means while the other handler is in service is DESIGN CHOICE (log 27): eligibility is read in
every state of the run as 60_exceptions.md R261 has it, so there neither handler is eligible. -/
def FairHandlers (r : Nat → State) : Prop :=
  ∀ n, (∃ m, n ≤ m ∧ rxEligible (r m) = false) ∧ (∃ m, n ≤ m ∧ txEligible (r m) = false)

/-- F2: LTX, once enabled, eventually occurs. -/
def FairLine (r : Nat → State) : Prop :=
  ∀ n, ∃ m, n ≤ m ∧ ((r m).txEn && !(r m).txr) = false

/-- F3: MAIN, when no handler is in service, eventually takes its next micro-step. While it is idle it
has none; else some later turn is MAIN's, finds no handler in service and takes a micro-step. -/
def FairMain (turns : Nat → Turn) (r : Nat → State) : Prop :=
  ∀ n, ∃ m, n ≤ m ∧ (mainIdle (r m) = true
    ∨ ((turns m).agent = .main ∧ noIsr (r m) = true ∧ 1 ≤ (turns m).steps))

end Sys2Proof.Machine
end

