-- ==== Sys2Proof/Certificates/Slice0/Obligations.lean ====
section
/-! DEFINITION. The statements about SIOC, from the numbered rules of spec/. Each docstring names the rule
and the sentence it formalises. A record equation `t = { s with f := t.f }` says that every field but
those listed is unchanged. -/

open Sys2Proof Sys2Proof.Machine

/-! ### Encoding (30_encoding.md) -/

/-- R91 to R93: the decoder inverts the encoder on every well-formed instruction, every operand at every
value its field admits. -/
def Obligations.DecodeInvertsEncode : Prop :=
  ∀ i : Instr, i.wf = true → decode (encode i) = .instr i

/-- R91 to R93: a word has one meaning: what it decodes to encodes to it again, and is well formed. -/
def Obligations.DecodedWordReencodes : Prop :=
  ∀ (w : Word) (i : Instr), decode w = .instr i → encode i = w ∧ i.wf = true

/-- R93: a word selects the row when `w & mask = match`; the rows are disjoint; bits outside the mask are
operand bits. INIT's row has `baud` not 0. -/
def Obligations.OpcodeMapSelectsRows : Prop :=
  (∀ (w : Word) (i : Instr), decode w = .instr i → w &&& opMask i = opMatch i)
    ∧ (∀ (w : Word) (i : Instr), w &&& opMask i = opMatch i → w ≠ 0x20000000#32 →
        ∃ j, decode w = .instr j ∧ opMatch j = opMatch i)
    ∧ (∀ (w : Word) (i j : Instr), w &&& opMask i = opMatch i → w &&& opMask j = opMatch j →
        opMatch i = opMatch j)

/-- R101: exactly the words of (a) to (d) are illegal, and on an idle port each is answered `ILLEGAL`/0
and changes no state; port C's response holds no element (log 25). -/
def Obligations.IllegalWordsAnsweredIllegal : Prop :=
  (∀ w : Word, (∃ why, decode w = .illegal why) ↔
      (unitOf w = 0 ∨ 6 ≤ unitOf w)
        ∨ ((unitOf w = 1 ∧ 3 ≤ fnOf w) ∨ (unitOf w = 2 ∧ 4 ≤ fnOf w) ∨ (unitOf w = 3 ∧ 2 ≤ fnOf w)
            ∨ (unitOf w = 4 ∧ 4 ≤ fnOf w) ∨ (unitOf w = 5 ∧ 7 ≤ fnOf w))
        ∨ (∃ i, w &&& 0xFF000000#32 = opMatch i ∧ w &&& opMask i ≠ opMatch i)
        ∨ w = 0x20000000#32)
    ∧ (∀ (s : State) (t : Turn) (rest : List Turn) (why : Illegal),
        s.sched = t :: rest → decode t.word = .illegal why →
        (t.agent = .main → noIsr s = true → mainIdle s = true →
          step s = .next { s with
            sched := rest, agent := .main, steps := t.steps, above := t.above
            hostResp := some 0x0300#16 })
        ∧ (t.agent = .prod → prodIdle s = true →
          step s = .next { s with
            sched := rest, agent := .prod, steps := t.steps, above := t.above
            prodResp := some 0x0300#16 })
        ∧ (t.agent = .cons → consIdle s = true →
          step s = .next { s with
            sched := rest, agent := .cons, steps := t.steps, above := t.above
            consResp := some 0x0300#16, consValue := none }))

/-- 95_test_vectors.md B12 and the words of S6, S7, B11: a few words read from the encoding tables. -/
def Obligations.SpecWordsDecode : Prop :=
  decode 0x20002580#32 = .instr (.init 9600#24)
    ∧ decode 0x21000058#32 = .instr (.write 0x58#8)
    ∧ decode 0x23000100#32 = .instr (.tsize .rx)
    ∧ decode 0x10000141#32 = .instr (.enq .rx 0x41#8)
    ∧ decode 0x42000041#32 = .instr (.lrx 0x41#8)
    ∧ decode 0x41000000#32 = .instr .irqtx
    ∧ decode 0x5500FF0D#32 = .instr (.setv 13#8 0xFF#8)
    ∧ decode 0x13000000#32 = .illegal .reservedFn
    ∧ decode 0x21000141#32 = .illegal .mustBeZero
    ∧ decode 0x20000000#32 = .illegal .zeroBaud

/-- R95: the layout of the response word and its codes. -/
def Obligations.ResponseWordLayout : Prop :=
  (∀ (st : Status) (v : Byte),
      (response st v).extractLsb' 10 6 = 0#6
        ∧ (response st v).extractLsb' 8 2 = statusCode st
        ∧ (response st v).extractLsb' 0 8 = v)
    ∧ statusCode .ok = 0#2 ∧ statusCode .full = 1#2 ∧ statusCode .empty = 2#2
    ∧ statusCode .illegal = 3#2

/-! ### Steps and ports -/

/-- 00_scope.md R16 in the model's schedule (log 1): a step takes the next turn and is exec of the
instruction its word decodes to, in the state in which that turn's agent moves; with no turn nothing
moves. -/
def Obligations.StepRunsDecodedInstruction : Prop :=
  (∀ (s : State) (t : Turn) (rest : List Turn) (i : Instr),
      s.sched = t :: rest → decode t.word = .instr i →
      step s = exec i { s with
        sched := rest, agent := t.agent, steps := t.steps, above := t.above })
    ∧ (∀ s : State, s.sched = [] → step s = .next s)

/-- R98: port H takes the words of units ST, IC and GP and no others: a word of unit RB or EV, or one that
matches no row, gets the response `ILLEGAL`/0 and changes no state; an accepted word is not answered
`ILLEGAL`. -/
def Obligations.HostPortAdmission : Prop :=
  (∀ i : Instr, presenter i = .main ↔
      unitOf (encode i) = 2 ∨ unitOf (encode i) = 3 ∨ unitOf (encode i) = 5)
    ∧ ∀ s : State, hostReady s = true →
      (∀ i : Instr, presenter i ≠ .main →
        exec i s = .next { s with hostResp := some 0x0300#16 })
      ∧ illegalWord s = .next { s with hostResp := some 0x0300#16 }
      ∧ (∀ i : Instr, i.wf = true → presenter i = .main →
        ∀ t, exec i s = .next t → t.hostResp ≠ some 0x0300#16)

/-- R99: port P takes ENQ and SIZE with `sel` 0, port C takes DEQ and SIZE with `sel` 0, one operation at
a time. Every other word an idle port gets is answered `ILLEGAL`, but for the role violations of R104;
while an operation is in flight another is refused. That ports P and C answer `ILLEGAL` is the model's
reading of R251 (log 5), for ENQ and DEQ with `sel` 1 too, which R103 and R104 point to refusing (log 28);
the refusal of a second word is the model's (log 4). -/
def Obligations.RingPortAdmission : Prop :=
  ∀ (s : State) (i : Instr),
    (s.agent = .prod → s.prod = .idle → (∀ v, i ≠ .enq .tx v) → i ≠ .size .tx → i ≠ .deq .tx →
      exec i s = .next { s with prodResp := some 0x0300#16 })
    ∧ (s.agent = .cons → s.cons = .idle → (∀ v, i ≠ .enq .tx v) → i ≠ .size .tx → i ≠ .deq .tx →
      exec i s = .next { s with consResp := some 0x0300#16, consValue := none })
    ∧ (s.agent = .prod →
      (∀ v e, s.prod = .enq v e → (∀ val, i = .enq .tx val → enqElement s val ≠ v) →
        exec i s = .refused .portBusy)
      ∧ (s.prod = .size → i ≠ .size .tx → exec i s = .refused .portBusy))
    ∧ (s.agent = .cons →
      (∀ d, s.cons = .deq d → i ≠ .deq .tx → exec i s = .refused .portBusy)
      ∧ (s.cons = .size → i ≠ .size .tx → exec i s = .refused .portBusy))

/-- R97: "MAIN presents one operation word at a time and receives its response before presenting the
next". A second word while one is in flight has no meaning (log 4); words of units ST, IC and GP here. -/
def Obligations.HostPortTakesOneOperation : Prop :=
  ∀ (s : State) (i j : Instr), s.agent = .main → noIsr s = true → inFlight s = some j →
    presenter i = .main → i ≠ j → exec i s = .refused .portBusy

/-- R104: on the standalone RB, ENQ on port C and DEQ on port P are refused, with `sel` 0 (with `sel` 1 they
are answered `ILLEGAL`, log 28). The rest is wider than R104,
R307 and R9 and is the model's choice: HRX, HTX and LINE refuse every operation but their own and the
labels of the ring primitive in flight (log 17), SIZE among them, which R100 labels inside TSIZE only
(log 7). -/
def Obligations.RoleViolationsRefused : Prop :=
  ∀ (s : State) (i : Instr),
    (s.agent = .cons → s.cons = .idle → ∀ v, i = .enq .tx v → exec i s = .refused .roleViolation)
    ∧ (s.agent = .prod → s.prod = .idle → i = .deq .tx → exec i s = .refused .roleViolation)
    ∧ (s.agent = .hrx → i ≠ .irqrx → (∀ v, i = .enq .rx v → rxEnqueuing s ≠ some v) →
      exec i s = .refused .roleViolation)
    ∧ (s.agent = .htx → i ≠ .irqtx → (i = .deq .tx → txDequeuing s = false) →
      exec i s = .refused .roleViolation)
    ∧ (s.agent = .line → i ≠ .ltx → (∀ v, i ≠ .lrx v) → exec i s = .refused .roleViolation)

/-- R9: MAIN is the only producer of TXB and the only consumer of RXB, HTX the only consumer of TXB, HRX
the only producer of RXB; ports P and C for the standalone RB. A producer's side is `tail` and the
slots, a consumer's side is `head`; only the two sides move `count`. -/
def Obligations.CursorsWrittenOnlyByTheirSide : Prop :=
  ∀ (s t : State) (i : Instr), exec i s = .next t →
    (t.txb.tail ≠ s.txb.tail ∨ t.txb.mem ≠ s.txb.mem → s.agent = .main)
    ∧ (t.txb.head ≠ s.txb.head → s.agent = .htx)
    ∧ (t.txb.count ≠ s.txb.count → s.agent = .main ∨ s.agent = .htx)
    ∧ (t.rxb.tail ≠ s.rxb.tail ∨ t.rxb.mem ≠ s.rxb.mem → s.agent = .hrx)
    ∧ (t.rxb.head ≠ s.rxb.head → s.agent = .main)
    ∧ (t.rxb.count ≠ s.rxb.count → s.agent = .hrx ∨ s.agent = .main)
    ∧ (t.rb.tail ≠ s.rb.tail ∨ t.rb.mem ≠ s.rb.mem → s.agent = .prod)
    ∧ (t.rb.head ≠ s.rb.head → s.agent = .cons)
    ∧ (t.rb.count ≠ s.rb.count → s.agent = .prod ∨ s.agent = .cons)

/-! ### Reset (10_state.md, 70_reset_and_hazards.md) -/

/-- R46: the reset table, for the machine's reset state and for every other configuration's. The fields the
table leaves unspecified are not stated. -/
def Obligations.ResetFollowsTable : Prop :=
  ∀ s : State, (s = State.reset ∨ ∃ c, s = State.resetOf c) →
    s.txb.count = 0#8 ∧ s.rxb.count = 0#8
      ∧ s.txb.head = 0#8 ∧ s.txb.tail = 0#8 ∧ s.rxb.head = 0#8 ∧ s.rxb.tail = 0#8
      ∧ s.txb.mem.length = s.cfg.nTx ∧ s.rxb.mem.length = s.cfg.nRx
      ∧ s.st = .uninitialized ∧ s.rxEn = false ∧ s.txEn = false
      ∧ s.rxcIe = false ∧ s.txrIe = false ∧ s.rxc = false ∧ s.txr = true
      ∧ s.gie = false ∧ s.isr = .none ∧ s.main = .idle
      ∧ s.lineOut = [] ∧ s.lineIn = []

/-- The reset state meets the invariants the steps keep; it rests on the model's choice of parameters at
reset (log 9). In it and in every other configuration's, the standalone RB is empty with its cursors at 0
(10_state.md R27), ports P and C are idle (log 8), and no port holds a response (log 19) or an element
(log 25). -/
def Obligations.ResetMeetsInvariants : Prop :=
  (Inv State.reset ∧ TxGated State.reset ∧ txStream State.reset = [] ∧ finished State.reset = true)
    ∧ ∀ s : State, (s = State.reset ∨ ∃ c, s = State.resetOf c) →
      s.rb.count = 0#8 ∧ s.rb.head = 0#8 ∧ s.rb.tail = 0#8 ∧ s.rb.mem.length = s.cfg.nRb
        ∧ s.prod = .idle ∧ s.cons = .idle
        ∧ s.hostResp = none ∧ s.prodResp = none ∧ s.consResp = none ∧ s.consValue = none

/-! ### Invariants every step keeps -/

/-- 10_state.md R26 and 40_ring_buffer.md R135 for all three rings at once, under every schedule, with the
canonical form of the GPIO space and the parameters of 00_scope.md R6. -/
def Obligations.StepKeepsInvariant : Prop :=
  ∀ s t : State, Inv s → step s = .next t → Inv t

/-- 41_serial_transport.md R167: a byte in TXB is never stranded with the transmit-ready interrupt
disabled, as long as no second INIT is performed. -/
def Obligations.StepKeepsTransmitGating : Prop :=
  ∀ s t : State, Inv s → TxGated s →
    (s.st = .ready → mainInitialising s = false
      ∧ ∀ turn rest baud, s.sched = turn :: rest → decode turn.word ≠ .instr (.init baud)) →
    step s = .next t → TxGated t

/-- 20_memory.md R73, transmit direction: the bytes MAIN has enqueued, read from the line back to TXB, are
never lost, changed or reordered by any step; MAIN alone appends to them. -/
def Obligations.StepExtendsTransmitStream : Prop :=
  ∀ s t : State, Inv s → step s = .next t →
    ∃ new, txStream t = txStream s ++ new ∧ (new = [] ∨ t.agent = .main)

/-- 44_gpio.md R234: the set of valid pins, `NPORTS` and the addresses never change, nor any other
parameter. -/
def Obligations.ConfigNeverChanges : Prop :=
  (∀ (i : Instr) (s t : State), exec i s = .next t → t.cfg = s.cfg)
    ∧ (∀ s t : State, step s = .next t → t.cfg = s.cfg)

/-- 10_state.md R43 and 60_exceptions.md R266: who sets and who clears each flag and enable, over every
operation of every agent. -/
def Obligations.FlagsWrittenOnlyByTheirWriters : Prop :=
  ∀ (i : Instr) (s t : State), exec i s = .next t →
    (t.rxc ≠ s.rxc → (∃ v, i = .lrx v ∧ t.rxc = true) ∨ (i = .irqrx ∧ t.rxc = false))
    ∧ (t.txr ≠ s.txr → (i = .ltx ∧ t.txr = true) ∨ (i = .irqtx ∧ t.txr = false))
    ∧ (t.rxcIe ≠ s.rxcIe → (∃ b, i = .init b) ∧ t.rxcIe = true)
    ∧ (t.txrIe ≠ s.txrIe →
        (∃ v, i = .write v ∧ t.txrIe = true) ∨ (i = .irqtx ∧ t.txrIe = false)
          ∨ (∃ b, i = .init b ∧ t.txrIe = false))
    ∧ (t.gie ≠ s.gie → (i = .gien ∧ t.gie = true) ∨ (i = .gdis ∧ t.gie = false))
    ∧ (t.rxEn ≠ s.rxEn → (∃ b, i = .init b) ∧ t.rxEn = true)
    ∧ (t.txEn ≠ s.txEn → (∃ b, i = .init b) ∧ t.txEn = true)
    ∧ (t.st ≠ s.st → (∃ b, i = .init b) ∧ t.st = .ready)

/-! ### The ring buffer (40_ring_buffer.md), for every capacity and element type -/

/-- R135 (i), (ii), (iii): whatever the other side is doing, each micro-step of ENQ and of DEQ keeps the
ring's invariant, and E2 never writes a slot between the cursors. -/
def Obligations.RingMicroStepsKeepInvariant : Prop :=
  ∀ (α : Type) [Inhabited α] (n : Nat), 1 ≤ n → n ≤ 255 →
    (∀ (b : RingBuf α) (v : α) (e : EnqAt) (c : Option (DeqAt α)), RingOk n b (some (v, e)) c →
      RingOk n (enqMicro n v e b).1 (afterEnqMicro v (enqMicro n v e b).2) c
        ∧ (e = .e2 → ∀ k, k < between b (some (v, e)) c →
            (b.head.toNat + k) % n ≠ b.tail.toNat))
    ∧ (∀ (b : RingBuf α) (p : Option (α × EnqAt)) (d : DeqAt α), RingOk n b p (some d) →
      RingOk n (deqMicro n d b).1 p (afterDeqMicro (deqMicro n d b).2))

/-- R135 (iv), (v): under any interleaving E3 appends exactly the element being enqueued, D3 takes exactly
the oldest element, no other micro-step changes the elements between the cursors, and DEQ returns what
it took. -/
def Obligations.RingIsFifoUnderInterleaving : Prop :=
  ∀ (α : Type) [Inhabited α] (n : Nat), 1 ≤ n → n ≤ 255 →
    (∀ (b : RingBuf α) (v : α) (e : EnqAt) (c : Option (DeqAt α)), RingOk n b (some (v, e)) c →
      inRing n (enqMicro n v e b).1 (afterEnqMicro v (enqMicro n v e b).2) c
        = inRing n b (some (v, e)) c ++ (if e = .e3 then [v] else []))
    ∧ (∀ (b : RingBuf α) (p : Option (α × EnqAt)) (d : DeqAt α), RingOk n b p (some d) →
      (∀ v, d = .d3 v →
        inRing n b p (some d)
          = v :: inRing n (deqMicro n d b).1 p (afterDeqMicro (deqMicro n d b).2))
      ∧ ((∀ v, d ≠ .d3 v) →
        inRing n b p (some d)
          = inRing n (deqMicro n d b).1 p (afterDeqMicro (deqMicro n d b).2))
      ∧ (∀ v, d = .d4 v → (deqMicro n d b).2 = .ok v))

/-- R132: with no other operation in flight, ENQ appends to the queue or gives `Full`, DEQ returns the
oldest element or gives `Empty`, SIZE returns the length. -/
def Obligations.SequentialQueueLaw : Prop :=
  ∀ s : State, Inv s → s.prod = .idle → s.cons = .idle →
    (s.agent = .prod → 4 ≤ s.steps → ∀ val,
      ((queue s.cfg.nRb s.rb).length < s.cfg.nRb →
        ∃ t, exec (.enq .tx val) s = .next t ∧ t.prodResp = some (response .ok 0#8)
          ∧ queue s.cfg.nRb t.rb = queue s.cfg.nRb s.rb ++ [enqElement s val])
      ∧ ((queue s.cfg.nRb s.rb).length = s.cfg.nRb →
        ∃ t, exec (.enq .tx val) s = .next t ∧ t.prodResp = some (response .full 0#8)
          ∧ t.rb = s.rb))
    ∧ (s.agent = .cons → 4 ≤ s.steps →
      (∀ x rest, queue s.cfg.nRb s.rb = x :: rest →
        ∃ t, exec (.deq .tx) s = .next t ∧ t.consResp = some (response .ok (elementByte s.cfg x))
          ∧ t.consValue = some x ∧ queue s.cfg.nRb t.rb = rest)
      ∧ (queue s.cfg.nRb s.rb = [] →
        ∃ t, exec (.deq .tx) s = .next t ∧ t.consResp = some (response .empty 0#8)
          ∧ t.consValue = none ∧ t.rb = s.rb))
    ∧ (s.agent = .prod → 1 ≤ s.steps → exec (.size .tx) s =
        .next { s with
          prodResp := some (response .ok (BitVec.ofNat 8 (queue s.cfg.nRb s.rb).length)) })
    ∧ (s.agent = .cons → 1 ≤ s.steps → exec (.size .tx) s =
        .next { s with
          consResp := some (response .ok (BitVec.ofNat 8 (queue s.cfg.nRb s.rb).length))
          consValue := none })

/-- R121 on port P: the four micro-steps of ENQ one by one, `Full` at E1 with nothing changed, and the whole
operation. The element is the word's eight bits with the bits above them, which the abstract operation
carries (R92; the model carries them in the turn, log 25), where that is a `W_T`-bit value; where it is
not, nothing is said of it (log 26). -/
def Obligations.EnqOnProducerPort : Prop :=
  ∀ (s : State) (val : Byte), s.agent = .prod →
    let v := enqElement s val
    (val.toNat + 256 * s.above < 2 ^ s.cfg.wT → v = val.toNat + 256 * s.above)
    ∧ (s.prod = .idle → s.rb.count.toNat = s.cfg.nRb → 1 ≤ s.steps →
      exec (.enq .tx val) s = .next { s with prodResp := some (response .full 0#8) })
    ∧ (s.prod = .idle → s.rb.count.toNat ≠ s.cfg.nRb → s.steps = 1 →
      exec (.enq .tx val) s = .next { s with prod := .enq v .e2, prodResp := none })
    ∧ (s.prod = .idle → s.rb.count.toNat ≠ s.cfg.nRb → 4 ≤ s.steps →
      exec (.enq .tx val) s = .next { s with
        rb := ringPut s.cfg.nRb v s.rb, prodResp := some (response .ok 0#8) })
    ∧ (s.prod = .enq v .e1 → s.steps = 1 → s.rb.count.toNat = s.cfg.nRb →
      exec (.enq .tx val) s = .next { s with
        prod := .idle, prodResp := some (response .full 0#8) })
    ∧ (s.prod = .enq v .e1 → s.steps = 1 → s.rb.count.toNat ≠ s.cfg.nRb →
      exec (.enq .tx val) s = .next { s with prod := .enq v .e2 })
    ∧ (s.prod = .enq v .e2 → s.steps = 1 →
      exec (.enq .tx val) s = .next { s with
        rb := { s.rb with mem := s.rb.mem.set s.rb.tail.toNat v }, prod := .enq v .e3 })
    ∧ (s.prod = .enq v .e3 → s.steps = 1 →
      exec (.enq .tx val) s = .next { s with
        rb := { s.rb with
          tail := if s.rb.tail.toNat + 1 = s.cfg.nRb then 0#8 else s.rb.tail + 1#8 }
        prod := .enq v .e4 })
    ∧ (s.prod = .enq v .e4 → s.steps = 1 →
      exec (.enq .tx val) s = .next { s with
        rb := { s.rb with count := s.rb.count + 1#8 }
        prod := .idle, prodResp := some (response .ok 0#8) })

/-- R125 on port C: the four micro-steps of DEQ one by one, `Empty` at D1 with nothing changed and
no value (U9), and the whole operation. The slot is not cleared. The response's byte is the element
where `W_T <= 8` (R92); the element whole stands in `consValue` (log 25). -/
def Obligations.DeqOnConsumerPort : Prop :=
  ∀ s : State, s.agent = .cons →
    (∀ v, s.cfg.wT ≤ 8 → elementByte s.cfg v = BitVec.ofNat 8 v)
    ∧ (s.cons = .idle → s.rb.count = 0#8 → 1 ≤ s.steps →
      exec (.deq .tx) s = .next { s with
        consResp := some (response .empty 0#8), consValue := none })
    ∧ (s.cons = .idle → s.rb.count ≠ 0#8 → s.steps = 1 →
      exec (.deq .tx) s = .next { s with cons := .deq .d2, consResp := none, consValue := none })
    ∧ (s.cons = .idle → s.rb.count ≠ 0#8 → 4 ≤ s.steps →
      exec (.deq .tx) s = .next { s with
        rb := ringTake s.cfg.nRb s.rb
        consResp := some (response .ok (elementByte s.cfg (slotAt s.rb s.rb.head.toNat)))
        consValue := some (slotAt s.rb s.rb.head.toNat) })
    ∧ (s.cons = .deq .d1 → s.steps = 1 → s.rb.count = 0#8 →
      exec (.deq .tx) s = .next { s with
        cons := .idle, consResp := some (response .empty 0#8), consValue := none })
    ∧ (s.cons = .deq .d1 → s.steps = 1 → s.rb.count ≠ 0#8 →
      exec (.deq .tx) s = .next { s with cons := .deq .d2 })
    ∧ (s.cons = .deq .d2 → s.steps = 1 →
      exec (.deq .tx) s = .next { s with cons := .deq (.d3 (slotAt s.rb s.rb.head.toNat)) })
    ∧ (∀ v, s.cons = .deq (.d3 v) → s.steps = 1 →
      exec (.deq .tx) s = .next { s with
        rb := { s.rb with
          head := if s.rb.head.toNat + 1 = s.cfg.nRb then 0#8 else s.rb.head + 1#8 }
        cons := .deq (.d4 v) })
    ∧ (∀ v, s.cons = .deq (.d4 v) → s.steps = 1 →
      exec (.deq .tx) s = .next { s with
        rb := { s.rb with count := s.rb.count - 1#8 }
        cons := .idle, consResp := some (response .ok (elementByte s.cfg v))
        consValue := some v })

/-- R129: SIZE answers `count` on either port and writes no state, presented or already in flight. -/
def Obligations.SizeOnRingPorts : Prop :=
  ∀ s : State, 1 ≤ s.steps →
    (s.agent = .prod → s.prod = .idle ∨ s.prod = .size →
      exec (.size .tx) s = .next { s with
        prod := .idle, prodResp := some (response .ok s.rb.count) })
    ∧ (s.agent = .cons → s.cons = .idle ∨ s.cons = .size →
      exec (.size .tx) s = .next { s with
        cons := .idle, consResp := some (response .ok s.rb.count), consValue := none })

/-- 30_encoding.md R100: inside the transport a unit RB word labels the ring primitive in flight: MAIN's
ENQ on TXB, HRX's ENQ on RXB, MAIN's DEQ on RXB, HTX's DEQ on TXB, and the SIZE inside MAIN's TSIZE
(log 7). -/
def Obligations.RingLabelsPerformThePrimitive : Prop :=
  ∀ s : State, 4 ≤ s.steps →
    (∀ byte cur lf, s.agent = .main → noIsr s = true → s.main = .write byte (.w2 cur lf .e1) →
      s.txb.count.toNat ≠ s.cfg.nTx →
      exec (.enq .tx cur) s = .next { s with
        txb := ringPut s.cfg.nTx cur s.txb, main := .write byte (.w3 lf) })
    ∧ (∀ d, s.agent = .hrx → s.isr = .rx (.h2 d .e1) → s.rxb.count.toNat ≠ s.cfg.nRx →
      exec (.enq .rx d) s = .next { s with
        rxb := ringPut s.cfg.nRx d s.rxb, isr := .rx .h3 })
    ∧ (s.agent = .main → noIsr s = true → s.main = .read (.rd1 .d1) → s.rxb.count ≠ 0#8 →
      exec (.deq .rx) s = .next { s with
        rxb := ringTake s.cfg.nRx s.rxb, main := .read (.rd2 (slotAt s.rxb s.rxb.head.toNat)) })
    ∧ (s.agent = .htx → s.isr = .tx (.t1 .d1) → s.txb.count ≠ 0#8 →
      exec (.deq .tx) s = .next { s with
        txb := ringTake s.cfg.nTx s.txb, isr := .tx (.t2a (slotAt s.txb s.txb.head.toNat)) })
    ∧ (∀ sel, s.agent = .main → noIsr s = true → s.main = .tsize sel →
      exec (.size sel) s = .next { s with
        main := .idle, hostResp := some (response .ok (countOf s sel)) })

/-! ### The transport (41_serial_transport.md) -/

/-- R152, R153 (b): INIT in either lifecycle state, whole and micro-step by micro-step; `TXR_IE` ends 0 or
as it was, by a free choice, and from 0 it stays 0; neither buffer, `GIE`, nor a condition flag is
touched. -/
def Obligations.InitProgramsTransport : Prop :=
  ∀ (s : State) (baud : BitVec 24),
    (hostReady s = true → baud ≠ 0#24 → 4 ≤ s.steps → ∃ keep : Bool,
      exec (.init baud) s = .next { s with
        baudDiv := Config.divisor s.cfg.fClk baud.toNat
        rxcIe := true, rxEn := true, txEn := true
        txrIe := s.txrIe && keep
        frame := { dataBits := 8, parity := .none, stop := s.cfg.stopBits }
        st := .ready
        draws := s.draws + 1
        hostResp := some (response .ok 0#8) })
    ∧ (hostReady s = true → baud ≠ 0#24 → s.steps = 1 →
      exec (.init baud) s = .next { s with
        baudDiv := Config.divisor s.cfg.fClk baud.toNat, main := .init baud .i2, hostResp := none })
    ∧ (s.agent = .main → noIsr s = true → baud ≠ 0#24 → s.steps = 1 →
      (s.main = .init baud .i1 →
        exec (.init baud) s = .next { s with
          baudDiv := Config.divisor s.cfg.fClk baud.toNat, main := .init baud .i2 })
      ∧ (s.main = .init baud .i2 → ∃ keep : Bool,
        exec (.init baud) s = .next { s with
          rxcIe := true, rxEn := true, txEn := true, txrIe := s.txrIe && keep
          draws := s.draws + 1, main := .init baud .i3 })
      ∧ (s.main = .init baud .i3 →
        exec (.init baud) s = .next { s with
          frame := { dataBits := 8, parity := .none, stop := s.cfg.stopBits }
          main := .init baud .i4 })
      ∧ (s.main = .init baud .i4 →
        exec (.init baud) s = .next { s with
          st := .ready, main := .idle, hostResp := some (response .ok 0#8) }))

/-- R151: before INIT, WRITE and READ are refused; TSIZE and INIT are allowed in both states. -/
def Obligations.TransportRefusedBeforeInit : Prop :=
  ∀ s : State, hostReady s = true →
    (s.st = .uninitialized → ∀ v, exec (.write v) s = .refused .uninitialized)
    ∧ (s.st = .uninitialized → exec .read s = .refused .uninitialized)
    ∧ (∀ sel, ∃ t, exec (.tsize sel) s = .next t
        ∧ (1 ≤ s.steps → t.hostResp = some (response .ok (countOf s sel))))
    ∧ (∀ baud, baud ≠ 0#24 → ∃ t, exec (.init baud) s = .next t
        ∧ (4 ≤ s.steps → t.st = .ready ∧ t.hostResp = some (response .ok 0#8)))

/-- R155: WRITE micro-step by micro-step: W1 chooses the byte, W2 is an ENQ on TXB that starts again at E1
on `Full`, W3 sets `TXR_IE` whatever it was, W4 goes on with the LF or ends. -/
def Obligations.WriteMicroSteps : Prop :=
  ∀ (s : State) (v : Byte), s.agent = .main → noIsr s = true →
    (s.steps = 1 → s.main = .idle → s.st = .ready →
      exec (.write v) s = .next { s with
        main := .write v (if v = s.cfg.lf then .w2 s.cfg.cr true .e1 else .w2 v false .e1)
        hostResp := none })
    ∧ (s.steps = 1 → s.main = .write v .w1 →
      exec (.write v) s = .next { s with
        main := .write v (if v = s.cfg.lf then .w2 s.cfg.cr true .e1 else .w2 v false .e1) })
    ∧ (∀ cur lf, s.main = .write v (.w2 cur lf .e1) → s.txb.count.toNat = s.cfg.nTx →
      exec (.write v) s = .next s)
    ∧ (s.steps = 1 → ∀ cur lf, s.main = .write v (.w2 cur lf .e1) → s.txb.count.toNat ≠ s.cfg.nTx →
      exec (.write v) s = .next { s with main := .write v (.w2 cur lf .e2) })
    ∧ (s.steps = 1 → ∀ cur lf, s.main = .write v (.w2 cur lf .e2) →
      exec (.write v) s = .next { s with
        txb := { s.txb with mem := s.txb.mem.set s.txb.tail.toNat cur }
        main := .write v (.w2 cur lf .e3) })
    ∧ (s.steps = 1 → ∀ cur lf, s.main = .write v (.w2 cur lf .e3) →
      exec (.write v) s = .next { s with
        txb := { s.txb with
          tail := if s.txb.tail.toNat + 1 = s.cfg.nTx then 0#8 else s.txb.tail + 1#8 }
        main := .write v (.w2 cur lf .e4) })
    ∧ (s.steps = 1 → ∀ cur lf, s.main = .write v (.w2 cur lf .e4) →
      exec (.write v) s = .next { s with
        txb := { s.txb with count := s.txb.count + 1#8 }, main := .write v (.w3 lf) })
    ∧ (s.steps = 1 → ∀ lf, s.main = .write v (.w3 lf) →
      exec (.write v) s = .next { s with txrIe := true, main := .write v (.w4 lf) })
    ∧ (s.steps = 1 → s.main = .write v (.w4 true) →
      exec (.write v) s = .next { s with main := .write v (.w2 s.cfg.lf false .e1) })
    ∧ (s.steps = 1 → s.main = .write v (.w4 false) →
      exec (.write v) s = .next { s with main := .idle, hostResp := some (response .ok 0#8) })

/-- R155: WRITE of a byte other than LF into a TXB with room. -/
def Obligations.WritePlainByteEnqueues : Prop :=
  ∀ (s : State) (v : Byte), hostReady s = true → s.st = .ready → v ≠ s.cfg.lf →
    s.txb.count.toNat ≠ s.cfg.nTx → 7 ≤ s.steps →
    exec (.write v) s = .next { s with
      txb := ringPut s.cfg.nTx v s.txb
      txrIe := true
      hostResp := some (response .ok 0#8) }

/-- R155: WRITE of LF with two free slots enqueues CR, then LF, adjacent. -/
def Obligations.WriteLineFeedEnqueuesCrLf : Prop :=
  ∀ s : State, hostReady s = true → s.st = .ready → s.cfg.nTx ≤ 255 →
    s.txb.count.toNat + 2 ≤ s.cfg.nTx → 13 ≤ s.steps →
    exec (.write s.cfg.lf) s = .next { s with
      txb := ringPut s.cfg.nTx s.cfg.lf (ringPut s.cfg.nTx s.cfg.cr s.txb)
      txrIe := true
      hostResp := some (response .ok 0#8) }

/-- R157: what any turn does to the bytes on their way out. With what the WRITE in flight has still to
enqueue, the stream grows by `expand(byte)` when WRITE is presented and by nothing otherwise, whatever
spins, handlers and line events come between, and nothing is outstanding once MAIN is idle: a WRITE that
completes has added exactly its expansion. With room and micro-steps enough it completes in one turn. -/
def Obligations.WriteAddsItsExpansion : Prop :=
  (∀ (s t : State) (i : Instr), Inv s → exec i s = .next t →
    txStream t ++ pendingOut t
      = txStream s ++ pendingOut s
        ++ (if hostReady s then (match i with
            | .write v => expand s.cfg v
            | _ => []) else []))
    ∧ (∀ s : State, mainIdle s = true → pendingOut s = [])
    ∧ ∀ (s : State) (v : Byte), Inv s → hostReady s = true → s.st = .ready →
      s.txb.count.toNat + (expand s.cfg v).length ≤ s.cfg.nTx → 13 ≤ s.steps →
      ∃ t, exec (.write v) s = .next t ∧ mainIdle t = true
        ∧ txStream t = txStream s ++ expand s.cfg v

/-- R156 (a), R161 (a), 70_reset_and_hazards.md R303: a WRITE spinning on a full TXB and a READ spinning
on an empty RXB change nothing, however many attempts the turn takes; the first attempt after the other
side has moved goes on to the end. -/
def Obligations.SpinningChangesNothing : Prop :=
  ∀ s : State, s.agent = .main → noIsr s = true →
    (∀ v cur lf, s.main = .write v (.w2 cur lf .e1) →
      (s.txb.count.toNat = s.cfg.nTx → exec (.write v) s = .next s)
      ∧ (s.txb.count.toNat ≠ s.cfg.nTx → lf = false → 6 ≤ s.steps →
        exec (.write v) s = .next { s with
          txb := ringPut s.cfg.nTx cur s.txb, txrIe := true, main := .idle
          hostResp := some (response .ok 0#8) })
      ∧ (s.txb.count.toNat ≠ s.cfg.nTx → lf = true → s.steps = 6 →
        exec (.write v) s = .next { s with
          txb := ringPut s.cfg.nTx cur s.txb, txrIe := true
          main := .write v (.w2 s.cfg.lf false .e1) }))
    ∧ (s.main = .read (.rd1 .d1) →
      (s.rxb.count = 0#8 → exec .read s = .next s)
      ∧ (s.rxb.count ≠ 0#8 → 5 ≤ s.steps →
        exec .read s = .next { s with
          rxb := ringTake s.cfg.nRx s.rxb, main := .idle
          hostResp := some (response .ok (slotAt s.rxb s.rxb.head.toNat)) }))

/-- R160: READ of a non-empty RXB returns the oldest byte as it is; and READ micro-step by micro-step: Rd1
is a DEQ on RXB that starts again at D1 on `Empty`, Rd2 answers the byte. -/
def Obligations.ReadReturnsOldestByte : Prop :=
  ∀ s : State,
    (hostReady s = true → s.st = .ready → s.rxb.count ≠ 0#8 → 5 ≤ s.steps →
      exec .read s = .next { s with
        rxb := ringTake s.cfg.nRx s.rxb
        hostResp := some (response .ok (slotAt s.rxb s.rxb.head.toNat)) })
    ∧ (hostReady s = true → s.st = .ready → s.rxb.count = 0#8 →
      exec .read s = .next { s with main := .read (.rd1 .d1), hostResp := none })
    ∧ (hostReady s = true → s.st = .ready → s.rxb.count ≠ 0#8 → s.steps = 1 →
      exec .read s = .next { s with main := .read (.rd1 .d2), hostResp := none })
    ∧ (s.agent = .main → noIsr s = true → s.steps = 1 →
      (s.main = .read (.rd1 .d1) → s.rxb.count = 0#8 → exec .read s = .next s)
      ∧ (s.main = .read (.rd1 .d1) → s.rxb.count ≠ 0#8 →
        exec .read s = .next { s with main := .read (.rd1 .d2) })
      ∧ (s.main = .read (.rd1 .d2) →
        exec .read s = .next { s with
          main := .read (.rd1 (.d3 (slotAt s.rxb s.rxb.head.toNat))) })
      ∧ (∀ v, s.main = .read (.rd1 (.d3 v)) →
        exec .read s = .next { s with
          rxb := { s.rxb with
            head := if s.rxb.head.toNat + 1 = s.cfg.nRx then 0#8 else s.rxb.head + 1#8 }
          main := .read (.rd1 (.d4 v)) })
      ∧ (∀ v, s.main = .read (.rd1 (.d4 v)) →
        exec .read s = .next { s with
          rxb := { s.rxb with count := s.rxb.count - 1#8 }, main := .read (.rd2 v) })
      ∧ (∀ v, s.main = .read (.rd2 v) →
        exec .read s = .next { s with main := .idle, hostResp := some (response .ok v) }))

/-- R163: TSIZE reports the occupancy of the named buffer, in either lifecycle state, and writes no state.
Presented or already in flight. -/
def Obligations.TsizeReportsOccupancy : Prop :=
  ∀ (s : State) (sel : Sel),
    let c := match sel with
      | .tx => s.txb.count
      | .rx => s.rxb.count
    hostReady s = true ∨ (s.agent = .main ∧ noIsr s = true ∧ s.main = .tsize sel) → 1 ≤ s.steps →
      exec (.tsize sel) s = .next { s with main := .idle, hostResp := some (response .ok c) }

/-- 43_line_and_host_control.md R206, R207: GIEN and GDIS write `GIE` and nothing else, presented
or already in flight. -/
def Obligations.HostControlWritesGie : Prop :=
  ∀ s : State,
    (hostReady s = true ∨ (s.agent = .main ∧ noIsr s = true ∧ s.main = .gien) → 1 ≤ s.steps →
      exec .gien s = .next { s with
        gie := true, main := .idle, hostResp := some (response .ok 0#8) })
    ∧ (hostReady s = true ∨ (s.agent = .main ∧ noIsr s = true ∧ s.main = .gdis) → 1 ≤ s.steps →
      exec .gdis s = .next { s with
        gie := false, main := .idle, hostResp := some (response .ok 0#8) })

/-! ### Interrupts (42_interrupt_handlers.md, 60_exceptions.md) -/

/-- R261: the gating rule, and no step when it does not hold. R262: a handler that is eligible may be
entered, under `IRQ_PRIO = ANY` whatever the other is, and under `RX_FIRST` and `TX_FIRST` at least when
the other is not eligible; that those two leave a handler eligible alone as it is, is the model's reading
(log 21). -/
def Obligations.EligibilityGatesEntry : Prop :=
  ∀ s : State,
    (rxEligible s = true ↔ s.rxc = true ∧ s.rxcIe = true ∧ s.gie = true ∧ s.isr = .none)
    ∧ (txEligible s = true ↔ s.txr = true ∧ s.txrIe = true ∧ s.gie = true ∧ s.isr = .none)
    ∧ (s.agent = .hrx → s.isr = .none → rxEligible s = false → exec .irqrx s = .next s)
    ∧ (s.agent = .htx → s.isr = .none → txEligible s = false → exec .irqtx s = .next s)
    ∧ (rxEligible s = true → s.cfg.irqPrio = .any ∨ txEligible s = false → rxMayEnter s = true)
    ∧ (txEligible s = true → s.cfg.irqPrio = .any ∨ rxEligible s = false → txMayEnter s = true)

/-- R180, R181 (a): a whole execution of HRX: `RXC` is cleared and the byte enqueued, or silently dropped
when RXB is full; and HRX micro-step by micro-step. -/
def Obligations.ReceiveHandlerMovesByte : Prop :=
  ∀ s : State, s.agent = .hrx →
    (rxMayEnter s = true → s.rxb.count.toNat ≠ s.cfg.nRx → 6 ≤ s.steps →
      exec .irqrx s = .next { s with rxc := false, rxb := ringPut s.cfg.nRx s.rxd s.rxb })
    ∧ (rxMayEnter s = true → s.rxb.count.toNat = s.cfg.nRx → 3 ≤ s.steps →
      exec .irqrx s = .next { s with rxc := false })
    ∧ (s.steps = 1 →
      (s.isr = .rx .h1 →
        exec .irqrx s = .next { s with rxc := false, isr := .rx (.h2 s.rxd .e1) })
      ∧ (∀ d, s.isr = .rx (.h2 d .e1) → s.rxb.count.toNat = s.cfg.nRx →
        exec .irqrx s = .next { s with isr := .rx .h3 })
      ∧ (∀ d, s.isr = .rx (.h2 d .e1) → s.rxb.count.toNat ≠ s.cfg.nRx →
        exec .irqrx s = .next { s with isr := .rx (.h2 d .e2) })
      ∧ (∀ d, s.isr = .rx (.h2 d .e2) →
        exec .irqrx s = .next { s with
          rxb := { s.rxb with mem := s.rxb.mem.set s.rxb.tail.toNat d }, isr := .rx (.h2 d .e3) })
      ∧ (∀ d, s.isr = .rx (.h2 d .e3) →
        exec .irqrx s = .next { s with
          rxb := { s.rxb with
            tail := if s.rxb.tail.toNat + 1 = s.cfg.nRx then 0#8 else s.rxb.tail + 1#8 }
          isr := .rx (.h2 d .e4) })
      ∧ (∀ d, s.isr = .rx (.h2 d .e4) →
        exec .irqrx s = .next { s with
          rxb := { s.rxb with count := s.rxb.count + 1#8 }, isr := .rx .h3 })
      ∧ (s.isr = .rx .h3 → exec .irqrx s = .next { s with isr := .none }))

/-- R184: a whole execution of HTX: one byte goes to the data register and `TXR` is cleared, or, when TXB
is empty, `TXR_IE` is cleared and nothing is written; and HTX micro-step by micro-step. -/
def Obligations.TransmitHandlerSendsByte : Prop :=
  ∀ s : State, s.agent = .htx →
    (txMayEnter s = true → s.txb.count ≠ 0#8 → 6 ≤ s.steps →
      exec .irqtx s = .next { s with
        txb := ringTake s.cfg.nTx s.txb
        txd := slotAt s.txb s.txb.head.toNat
        txr := false })
    ∧ (txMayEnter s = true → s.txb.count = 0#8 → 3 ≤ s.steps →
      exec .irqtx s = .next { s with txrIe := false })
    ∧ (s.steps = 1 →
      (s.isr = .tx (.t1 .d1) → s.txb.count = 0#8 →
        exec .irqtx s = .next { s with isr := .tx .t2b })
      ∧ (s.isr = .tx (.t1 .d1) → s.txb.count ≠ 0#8 →
        exec .irqtx s = .next { s with isr := .tx (.t1 .d2) })
      ∧ (s.isr = .tx (.t1 .d2) →
        exec .irqtx s = .next { s with
          isr := .tx (.t1 (.d3 (slotAt s.txb s.txb.head.toNat))) })
      ∧ (∀ v, s.isr = .tx (.t1 (.d3 v)) →
        exec .irqtx s = .next { s with
          txb := { s.txb with
            head := if s.txb.head.toNat + 1 = s.cfg.nTx then 0#8 else s.txb.head + 1#8 }
          isr := .tx (.t1 (.d4 v)) })
      ∧ (∀ v, s.isr = .tx (.t1 (.d4 v)) →
        exec .irqtx s = .next { s with
          txb := { s.txb with count := s.txb.count - 1#8 }, isr := .tx (.t2a v) })
      ∧ (∀ v, s.isr = .tx (.t2a v) →
        exec .irqtx s = .next { s with txd := v, txr := false, isr := .tx .t3 })
      ∧ (s.isr = .tx .t2b → exec .irqtx s = .next { s with txrIe := false, isr := .tx .t3 })
      ∧ (s.isr = .tx .t3 → exec .irqtx s = .next { s with isr := .none }))

/-- R262: entry is one step that writes the in-service marker and nothing else. -/
def Obligations.HandlerEntryWritesOnlyMarker : Prop :=
  ∀ s : State, s.steps = 0 →
    (s.agent = .hrx → rxMayEnter s = true → exec .irqrx s = .next { s with isr := .rx .h1 })
    ∧ (s.agent = .htx → txMayEnter s = true →
      exec .irqtx s = .next { s with isr := .tx (.t1 .d1) })

/-- R264: the last micro-step of a handler clears the in-service marker; nothing else is restored. -/
def Obligations.HandlerReturnClearsOnlyMarker : Prop :=
  ∀ s : State, 1 ≤ s.steps →
    (s.agent = .hrx → s.isr = .rx .h3 → exec .irqrx s = .next { s with isr := .none })
    ∧ (s.agent = .htx → s.isr = .tx .t3 → exec .irqtx s = .next { s with isr := .none })

/-- 10_state.md R40, 60_exceptions.md R265: while a handler is in service MAIN takes no step whatever it
presents, and the other handler is not entered. -/
def Obligations.NoStepWhileHandlerInService : Prop :=
  ∀ s : State,
    (s.agent = .main → s.isr ≠ .none → ∀ i, exec i s = .next s)
    ∧ (s.agent = .htx → ∀ pos, s.isr = .rx pos → exec .irqtx s = .next s)
    ∧ (s.agent = .hrx → ∀ pos, s.isr = .tx pos → exec .irqrx s = .next s)

/-- R263: with `IRQ_PRIO = ANY` and both handlers eligible either may be entered; it runs and returns, the
other stays eligible and may be entered next, and once both have returned the state is the same whichever
ran first. `RX_FIRST` and `TX_FIRST` fix the order: only the first may be entered, and the other after it
has returned. -/
def Obligations.SimultaneousHandlersCommute : Prop :=
  ∀ s : State, rxEligible s = true → txEligible s = true →
    (s.cfg.irqPrio = .any → rxMayEnter s = true ∧ txMayEnter s = true
      ∧ (6 ≤ s.steps → ∃ rx rxtx tx txrx,
        exec .irqrx { s with agent := .hrx } = .next rx
          ∧ rx.rxc = false ∧ rx.isr = .none ∧ txMayEnter rx = true
          ∧ exec .irqtx { rx with agent := .htx } = .next rxtx
          ∧ (rxtx.txr = false ∨ rxtx.txrIe = false) ∧ rxtx.isr = .none
          ∧ exec .irqtx { s with agent := .htx } = .next tx
          ∧ (tx.txr = false ∨ tx.txrIe = false) ∧ tx.isr = .none ∧ rxMayEnter tx = true
          ∧ exec .irqrx { tx with agent := .hrx } = .next txrx
          ∧ txrx.rxc = false ∧ txrx.isr = .none
          ∧ { rxtx with agent := s.agent } = { txrx with agent := s.agent }))
    ∧ (s.cfg.irqPrio = .rxFirst → rxMayEnter s = true ∧ txMayEnter s = false
      ∧ (s.agent = .htx → exec .irqtx s = .next s)
      ∧ (s.agent = .hrx → 6 ≤ s.steps → ∃ rx, exec .irqrx s = .next rx
        ∧ rx.rxc = false ∧ rx.isr = .none ∧ txMayEnter rx = true))
    ∧ (s.cfg.irqPrio = .txFirst → txMayEnter s = true ∧ rxMayEnter s = false
      ∧ (s.agent = .hrx → exec .irqrx s = .next s)
      ∧ (s.agent = .htx → 6 ≤ s.steps → ∃ tx, exec .irqtx s = .next tx
        ∧ (tx.txr = false ∨ tx.txrIe = false) ∧ tx.isr = .none ∧ rxMayEnter tx = true))

/-- 00_scope.md R12, R16 and log 2: taking an operation's micro-steps in two turns, or in one longer turn,
leads to the same state, so the turns of the schedule only group micro-steps. A turn of no micro-step
presents a request: the operation stands at its first micro-step, the response before is gone (log 19)
and nothing else has changed. -/
def Obligations.TurnsOnlyGroupMicroSteps : Prop :=
  (∀ (i : Instr) (s t u : State) (a b : Nat),
    exec i { s with steps := a } = .next t → goesOn i t = true →
    exec i { t with steps := b } = .next u →
    exec i { s with steps := a + b } = .next { u with steps := a + b })
  ∧ ∀ s : State, s.steps = 0 →
    (hostReady s = true →
      (∀ baud, baud ≠ 0#24 →
        exec (.init baud) s = .next { s with main := .init baud .i1, hostResp := none })
      ∧ (s.st = .ready → ∀ v,
        exec (.write v) s = .next { s with main := .write v .w1, hostResp := none })
      ∧ (s.st = .ready →
        exec .read s = .next { s with main := .read (.rd1 .d1), hostResp := none })
      ∧ (∀ sel, exec (.tsize sel) s = .next { s with main := .tsize sel, hostResp := none })
      ∧ exec .gien s = .next { s with main := .gien, hostResp := none }
      ∧ exec .gdis s = .next { s with main := .gdis, hostResp := none }
      ∧ ∀ pin, pinOk s.cfg pin = true →
        exec (.get pin) s = .next { s with main := .get pin, hostResp := none }
        ∧ ∀ op, exec (rmwInstr op pin) s = .next { s with
          main := .rmw op pin .p1, hostResp := none })
    ∧ (s.agent = .prod → s.prod = .idle →
      (∀ val, exec (.enq .tx val) s = .next { s with
        prod := .enq (enqElement s val) .e1, prodResp := none })
      ∧ exec (.size .tx) s = .next { s with prod := .size, prodResp := none })
    ∧ (s.agent = .cons → s.cons = .idle →
      exec (.deq .tx) s = .next { s with
        cons := .deq .d1, consResp := none, consValue := none }
      ∧ exec (.size .tx) s = .next { s with
        cons := .size, consResp := none, consValue := none })

/-! ### The line (43_line_and_host_control.md) -/

/-- R200: LRX latches the byte; with `RX_EN` = 0 it is no step; on an overrun one of the two bytes is kept,
which one is free, and the other fields are as for any arrival. -/
def Obligations.LrxLatchesByte : Prop :=
  ∀ (s : State) (v : Byte), s.agent = .line →
    (s.rxEn = false → exec (.lrx v) s = .next s)
    ∧ (s.rxEn = true → s.rxc = false →
      exec (.lrx v) s = .next { s with rxd := v, rxc := true, lineIn := s.lineIn ++ [v] })
    ∧ (s.rxEn = true → s.rxc = true →
      ∃ d, (d = s.rxd ∨ d = v)
        ∧ exec (.lrx v) s = .next { s with
          rxd := d, rxc := true, lineIn := s.lineIn ++ [v], draws := s.draws + 1 })

/-- R203, R204 (a): LTX takes the byte in the data register; when `TX_EN` = 0 or `TXR` = 1 it is no
step. -/
def Obligations.LtxTakesByte : Prop :=
  ∀ s : State, s.agent = .line →
    (s.txEn = true → s.txr = false →
      exec .ltx s = .next { s with lineOut := s.lineOut ++ [s.txd], txr := true })
    ∧ (s.txEn = false ∨ s.txr = true → exec .ltx s = .next s)

/-! ### GPIO (44_gpio.md) -/

/-- R222: the pin arithmetic, for every valid pin. -/
def Obligations.PinArithmetic : Prop :=
  (∀ (c : Config) (pin : Byte), pin.toNat < 8 * c.nports →
      pinPort pin = pin.toNat / 8 ∧ pinPort pin < c.nports
        ∧ pinBit pin = pin.toNat % 8 ∧ pinBit pin ≤ 7
        ∧ pinMask pin = 1#8 <<< pinBit pin ∧ pinMask pin ≠ 0#8
        ∧ pinMask pin ∈ [0x01#8, 0x02#8, 0x04#8, 0x08#8, 0x10#8, 0x20#8, 0x40#8, 0x80#8])
    ∧ pinPort 13#8 = 1 ∧ pinBit 13#8 = 5 ∧ pinMask 13#8 = 0x20#8

/-- R232: the sentinel pin and a pin of an absent port are refused, by every GPIO operation. -/
def Obligations.GpioPreconditionsRefused : Prop :=
  ∀ (s : State) (pin pval : Byte) (i : Instr), hostReady s = true →
    i ∈ [Instr.get pin, .high pin, .low pin, .dirin pin, .dirout pin, .setv pin pval, .toggle pin] →
    (pin = s.cfg.noPin → exec i s = .refused .sentinelPin)
    ∧ (pin ≠ s.cfg.noPin → 8 * s.cfg.nports ≤ pin.toNat → exec i s = .refused .absentPort)

/-- R223: GET answers 1 iff the pin's bit of the input register is set; the register's value is whatever
PINS drives at the read, and GET itself stores nothing. That PINS drives the input register at the read,
from `pinIn`, is the model's (log 13). -/
def Obligations.GetReadsInputBit : Prop :=
  ∀ (s : State) (pin : Byte), s.gpio.wf = true →
    ((hostReady s = true ∧ pinOk s.cfg pin = true)
        ∨ (s.agent = .main ∧ noIsr s = true ∧ s.main = .get pin) → 1 ≤ s.steps →
      ∃ t, exec (.get pin) s = .next t
        ∧ t.hostResp = some (response .ok
            (if memRead t.gpio (addrIn s.cfg (pinPort pin)) &&& pinMask pin ≠ 0#8 then 1#8 else 0#8))
        ∧ (∀ x rest, s.pinIn = x :: rest →
            t.pinIn = rest ∧ memRead t.gpio (addrIn s.cfg (pinPort pin)) = x)
        ∧ (∀ a, a ≠ addrIn s.cfg (pinPort pin) → memRead t.gpio a = memRead s.gpio a)
        ∧ t = { s with
            gpio := t.gpio, pinIn := t.pinIn, draws := t.draws, main := .idle
            hostResp := t.hostResp })

/-- R224: HIGH: P1 reads `OUT[p]`, P2 writes back the byte read at P1 with the pin's bit set:
P1 alone, both, and P2 alone after whatever ran since P1 (R75, R220). -/
def Obligations.HighSetsOutputBit : Prop :=
  ∀ (s : State) (pin : Byte),
    let a := addrOut s.cfg (pinPort pin)
    (hostReady s = true → pinOk s.cfg pin = true →
      (s.steps = 1 → exec (.high pin) s = .next { s with
          main := .rmw .high pin (.p2 (memRead s.gpio a)), hostResp := none })
      ∧ (2 ≤ s.steps → exec (.high pin) s = .next { s with
          gpio := memWrite s.gpio a (memRead s.gpio a ||| pinMask pin)
          hostResp := some (response .ok 0#8) }))
    ∧ (s.agent = .main → noIsr s = true →
      (s.main = .rmw .high pin .p1 → s.steps = 1 → exec (.high pin) s = .next { s with
          main := .rmw .high pin (.p2 (memRead s.gpio a)) })
      ∧ (∀ x, s.main = .rmw .high pin (.p2 x) → 1 ≤ s.steps → exec (.high pin) s = .next { s with
          gpio := memWrite s.gpio a (x ||| pinMask pin)
          main := .idle, hostResp := some (response .ok 0#8) }))

/-- R225: LOW: P1 reads `OUT[p]`, P2 writes back the byte read at P1 with the pin's bit cleared:
P1 alone, both, and P2 alone after whatever ran since P1 (R75, R220). -/
def Obligations.LowClearsOutputBit : Prop :=
  ∀ (s : State) (pin : Byte),
    let a := addrOut s.cfg (pinPort pin)
    (hostReady s = true → pinOk s.cfg pin = true →
      (s.steps = 1 → exec (.low pin) s = .next { s with
          main := .rmw .low pin (.p2 (memRead s.gpio a)), hostResp := none })
      ∧ (2 ≤ s.steps → exec (.low pin) s = .next { s with
          gpio := memWrite s.gpio a (memRead s.gpio a &&& ~~~pinMask pin)
          hostResp := some (response .ok 0#8) }))
    ∧ (s.agent = .main → noIsr s = true →
      (s.main = .rmw .low pin .p1 → s.steps = 1 → exec (.low pin) s = .next { s with
          main := .rmw .low pin (.p2 (memRead s.gpio a)) })
      ∧ (∀ x, s.main = .rmw .low pin (.p2 x) → 1 ≤ s.steps → exec (.low pin) s = .next { s with
          gpio := memWrite s.gpio a (x &&& ~~~pinMask pin)
          main := .idle, hostResp := some (response .ok 0#8) }))

/-- R226: DIRIN: P1 reads `DIR[p]`, P2 writes back the byte read at P1 with the pin's bit cleared:
P1 alone, both, and P2 alone after whatever ran since P1 (R75, R220). -/
def Obligations.DirinClearsDirectionBit : Prop :=
  ∀ (s : State) (pin : Byte),
    let a := addrDir s.cfg (pinPort pin)
    (hostReady s = true → pinOk s.cfg pin = true →
      (s.steps = 1 → exec (.dirin pin) s = .next { s with
          main := .rmw .dirin pin (.p2 (memRead s.gpio a)), hostResp := none })
      ∧ (2 ≤ s.steps → exec (.dirin pin) s = .next { s with
          gpio := memWrite s.gpio a (memRead s.gpio a &&& ~~~pinMask pin)
          hostResp := some (response .ok 0#8) }))
    ∧ (s.agent = .main → noIsr s = true →
      (s.main = .rmw .dirin pin .p1 → s.steps = 1 → exec (.dirin pin) s = .next { s with
          main := .rmw .dirin pin (.p2 (memRead s.gpio a)) })
      ∧ (∀ x, s.main = .rmw .dirin pin (.p2 x) → 1 ≤ s.steps → exec (.dirin pin) s = .next { s with
          gpio := memWrite s.gpio a (x &&& ~~~pinMask pin)
          main := .idle, hostResp := some (response .ok 0#8) }))

/-- R227: DIROUT: P1 reads `DIR[p]`, P2 writes back the byte read at P1 with the pin's bit set:
P1 alone, both, and P2 alone after whatever ran since P1 (R75, R220). -/
def Obligations.DiroutSetsDirectionBit : Prop :=
  ∀ (s : State) (pin : Byte),
    let a := addrDir s.cfg (pinPort pin)
    (hostReady s = true → pinOk s.cfg pin = true →
      (s.steps = 1 → exec (.dirout pin) s = .next { s with
          main := .rmw .dirout pin (.p2 (memRead s.gpio a)), hostResp := none })
      ∧ (2 ≤ s.steps → exec (.dirout pin) s = .next { s with
          gpio := memWrite s.gpio a (memRead s.gpio a ||| pinMask pin)
          hostResp := some (response .ok 0#8) }))
    ∧ (s.agent = .main → noIsr s = true →
      (s.main = .rmw .dirout pin .p1 → s.steps = 1 → exec (.dirout pin) s = .next { s with
          main := .rmw .dirout pin (.p2 (memRead s.gpio a)) })
      ∧ (∀ x, s.main = .rmw .dirout pin (.p2 x) → 1 ≤ s.steps → exec (.dirout pin) s = .next { s with
          gpio := memWrite s.gpio a (x ||| pinMask pin)
          main := .idle, hostResp := some (response .ok 0#8) }))

/-- R228: SETV does what HIGH does when `pval` is not 0, else what LOW does: P1 alone, both, and P2 alone
after whatever ran since P1 (R75, R220). -/
def Obligations.SetvDispatchesOnTruth : Prop :=
  ∀ (s : State) (pin pval : Byte),
    let a := addrOut s.cfg (pinPort pin)
    (hostReady s = true → pinOk s.cfg pin = true →
      (s.steps = 1 → exec (.setv pin pval) s = .next { s with
          main := .rmw (.setv pval) pin (.p2 (memRead s.gpio a)), hostResp := none })
      ∧ (2 ≤ s.steps →
        (pval ≠ 0#8 → exec (.setv pin pval) s = .next { s with
            gpio := memWrite s.gpio a (memRead s.gpio a ||| pinMask pin)
            hostResp := some (response .ok 0#8) }
          ∧ exec (.setv pin pval) s = exec (.high pin) s)
        ∧ (pval = 0#8 → exec (.setv pin pval) s = .next { s with
            gpio := memWrite s.gpio a (memRead s.gpio a &&& ~~~pinMask pin)
            hostResp := some (response .ok 0#8) }
          ∧ exec (.setv pin pval) s = exec (.low pin) s)))
    ∧ (s.agent = .main → noIsr s = true →
      (s.main = .rmw (.setv pval) pin .p1 → s.steps = 1 →
        exec (.setv pin pval) s = .next { s with
          main := .rmw (.setv pval) pin (.p2 (memRead s.gpio a)) })
      ∧ (∀ x, s.main = .rmw (.setv pval) pin (.p2 x) → 1 ≤ s.steps →
        (pval ≠ 0#8 → exec (.setv pin pval) s = .next { s with
          gpio := memWrite s.gpio a (x ||| pinMask pin)
          main := .idle, hostResp := some (response .ok 0#8) })
        ∧ (pval = 0#8 → exec (.setv pin pval) s = .next { s with
          gpio := memWrite s.gpio a (x &&& ~~~pinMask pin)
          main := .idle, hostResp := some (response .ok 0#8) })))

/-- R229: TOGGLE: P1 reads `OUT[p]`, P2 writes back the byte read at P1 with the pin's bit inverted:
P1 alone, both, and P2 alone after whatever ran since P1 (R75, R220). -/
def Obligations.ToggleInvertsOutputBit : Prop :=
  ∀ (s : State) (pin : Byte),
    let a := addrOut s.cfg (pinPort pin)
    (hostReady s = true → pinOk s.cfg pin = true →
      (s.steps = 1 → exec (.toggle pin) s = .next { s with
          main := .rmw .toggle pin (.p2 (memRead s.gpio a)), hostResp := none })
      ∧ (2 ≤ s.steps → exec (.toggle pin) s = .next { s with
          gpio := memWrite s.gpio a (memRead s.gpio a ^^^ pinMask pin)
          hostResp := some (response .ok 0#8) }))
    ∧ (s.agent = .main → noIsr s = true →
      (s.main = .rmw .toggle pin .p1 → s.steps = 1 → exec (.toggle pin) s = .next { s with
          main := .rmw .toggle pin (.p2 (memRead s.gpio a)) })
      ∧ (∀ x, s.main = .rmw .toggle pin (.p2 x) → 1 ≤ s.steps → exec (.toggle pin) s = .next { s with
          gpio := memWrite s.gpio a (x ^^^ pinMask pin)
          main := .idle, hostResp := some (response .ok 0#8) }))

/-- R233: TOGGLE is an involution; DIRIN, DIROUT, HIGH and LOW are idempotent under repetition, on every
register of the GPIO space. -/
def Obligations.ToggleInvolutionAndIdempotence : Prop :=
  ∀ (s : State) (pin : Byte), hostReady s = true → pinOk s.cfg pin = true → s.gpio.wf = true →
    2 ≤ s.steps →
    (∃ t u, exec (.toggle pin) s = .next t ∧ exec (.toggle pin) t = .next u
      ∧ ∀ a, memRead u.gpio a = memRead s.gpio a)
    ∧ (∀ i ∈ [Instr.dirin pin, .dirout pin, .high pin, .low pin],
      ∃ t u, exec i s = .next t ∧ exec i t = .next u ∧ ∀ a, memRead u.gpio a = memRead t.gpio a)

/-! ### Frames: 20_memory.md R61, which operation reaches which space -/

/-- The RB unit: ENQ, DEQ and SIZE, on the standalone RB or as labels. An ENQ on port P leaves `head` and
every slot but the one at `tail` alone; a DEQ on port C leaves `tail` and every slot alone. -/
def Obligations.RingUnitFrame : Prop :=
  ∀ (s t : State) (sel : Sel) (v : Byte),
    (exec (.enq sel v) s = .next t →
      t = { s with
        rb := t.rb, prod := t.prod, txb := t.txb, main := t.main, rxb := t.rxb, isr := t.isr
        hostResp := t.hostResp, prodResp := t.prodResp, consResp := t.consResp
        consValue := t.consValue }
      ∧ (s.agent = .prod → t = { s with rb := t.rb, prod := t.prod, prodResp := t.prodResp }
        ∧ t.rb.head = s.rb.head
        ∧ ∀ j, j ≠ s.rb.tail.toNat → slotAt t.rb j = slotAt s.rb j))
    ∧ (exec (.deq sel) s = .next t →
      t = { s with
        rb := t.rb, cons := t.cons, txb := t.txb, main := t.main, rxb := t.rxb, isr := t.isr
        hostResp := t.hostResp, prodResp := t.prodResp, consResp := t.consResp
        consValue := t.consValue }
      ∧ (s.agent = .cons → t = { s with
          rb := t.rb, cons := t.cons, consResp := t.consResp, consValue := t.consValue }
        ∧ t.rb.tail = s.rb.tail ∧ t.rb.mem = s.rb.mem))
    ∧ (exec (.size sel) s = .next t →
      t = { s with
        prod := t.prod, cons := t.cons, main := t.main
        hostResp := t.hostResp, prodResp := t.prodResp, consResp := t.consResp
        consValue := t.consValue })

/-- The ST and IC units on MAIN's turn, whatever part of the operation the turn takes. WRITE reaches TXB's
producer side and `TXR_IE`; READ reaches RXB's consumer side; INIT reaches the peripheral set; GIEN and
GDIS reach `GIE`; TSIZE reaches nothing. -/
def Obligations.TransportFrame : Prop :=
  ∀ s t : State, s.agent = .main →
    (∀ v, exec (.write v) s = .next t →
      t = { s with
        txb := t.txb, txrIe := t.txrIe, main := t.main, hostResp := t.hostResp }
      ∧ t.txb.head = s.txb.head
      ∧ ∀ j, j ≠ s.txb.tail.toNat → j ≠ (advance s.cfg.nTx s.txb.tail).toNat →
          slotAt t.txb j = slotAt s.txb j)
    ∧ (exec .read s = .next t →
      t = { s with rxb := t.rxb, main := t.main, hostResp := t.hostResp }
      ∧ t.rxb.tail = s.rxb.tail ∧ t.rxb.mem = s.rxb.mem)
    ∧ (∀ baud, exec (.init baud) s = .next t →
      t = { s with
        baudDiv := t.baudDiv, rxcIe := t.rxcIe, rxEn := t.rxEn, txEn := t.txEn, txrIe := t.txrIe
        frame := t.frame, st := t.st, draws := t.draws, main := t.main, hostResp := t.hostResp })
    ∧ (∀ sel, exec (.tsize sel) s = .next t →
      t = { s with main := t.main, hostResp := t.hostResp })
    ∧ (exec .gien s = .next t ∨ exec .gdis s = .next t →
      t = { s with gie := t.gie, main := t.main, hostResp := t.hostResp })

/-- The EV unit on its own agents: HRX reaches RXB's producer side and the receive half of the data
register, HTX reaches TXB's consumer side, the transmit half and `TXR_IE`; LRX and LTX reach the data
register, its condition flags and the histories. -/
def Obligations.EventFrame : Prop :=
  ∀ s t : State,
    (s.agent = .hrx → exec .irqrx s = .next t →
      t = { s with rxc := t.rxc, rxb := t.rxb, isr := t.isr }
      ∧ t.rxb.head = s.rxb.head
      ∧ ∀ j, j ≠ s.rxb.tail.toNat → slotAt t.rxb j = slotAt s.rxb j)
    ∧ (s.agent = .htx → exec .irqtx s = .next t →
      t = { s with
        txb := t.txb, txd := t.txd, txr := t.txr, txrIe := t.txrIe, isr := t.isr }
      ∧ t.txb.tail = s.txb.tail ∧ t.txb.mem = s.txb.mem)
    ∧ (s.agent = .line → ∀ v, exec (.lrx v) s = .next t →
      t = { s with rxd := t.rxd, rxc := t.rxc, lineIn := t.lineIn, draws := t.draws })
    ∧ (s.agent = .line → exec .ltx s = .next t →
      t = { s with txr := t.txr, lineOut := t.lineOut })

/-- The GP unit on MAIN's turn: a read-modify-write reaches one register, GET the pin's input register, and
every other byte of the GPIO space reads as before. -/
def Obligations.GpioFrame : Prop :=
  ∀ (s t : State) (op : RmwOp) (pin : Byte), s.agent = .main → s.gpio.wf = true →
    (exec (rmwInstr op pin) s = .next t →
      t = { s with gpio := t.gpio, main := t.main, hostResp := t.hostResp }
      ∧ ∀ a, a ≠ rmwAddr s.cfg op pin → memRead t.gpio a = memRead s.gpio a)
    ∧ (exec (.get pin) s = .next t →
      t = { s with
        gpio := t.gpio, pinIn := t.pinIn, draws := t.draws, main := t.main
        hostResp := t.hostResp }
      ∧ ∀ a, a ≠ addrIn s.cfg (pinPort pin) → memRead t.gpio a = memRead s.gpio a)
end

