-- ==== Sys2Proof/Laws/Burst.lean ====
section
/-! SUPPORT. Bursts of micro-steps: unfolding, composition, and the induction every property of a burst
goes through. -/

namespace Sys2Proof.Machine

open Sys2Proof

variable {stop : State → Bool} {micro : State → State}

@[simp] theorem burst_zero (s : State) : burst stop micro 0 s = s := rfl

theorem burst_succ (k : Nat) (s : State) :
    burst stop micro (k + 1) s = if stop s then s else burst stop micro k (micro s) := rfl

/-- A burst that has ended stays as it is. -/
@[simp] theorem burst_of_stop {s : State} (h : stop s = true) (k : Nat) :
    burst stop micro k s = s := by
  cases k with
  | zero => rfl
  | succ k => simp [burst_succ, h]

/-- One micro-step of a burst that has not ended. -/
theorem burst_of_go {s : State} (h : stop s = false) (k : Nat) :
    burst stop micro (k + 1) s = burst stop micro k (micro s) := by
  simp [burst_succ, h]

/-- Two bursts in a row are one: grouping micro-steps into turns adds no run and takes none away. -/
theorem burst_add (j k : Nat) (s : State) :
    burst stop micro (j + k) s = burst stop micro k (burst stop micro j s) := by
  induction j generalizing s with
  | zero => simp
  | succ j ih =>
    rw [Nat.succ_add]
    cases h : stop s with
    | true => simp [h]
    | false => rw [burst_of_go h, burst_of_go h, ih]

/-- What every micro-step of a burst keeps, the burst keeps. -/
theorem burst_induction {P : State → Prop}
    (keep : ∀ s, stop s = false → P s → P (micro s)) (k : Nat) {s : State} (h : P s) :
    P (burst stop micro k s) := by
  induction k generalizing s with
  | zero => exact h
  | succ k ih =>
    cases hs : stop s with
    | true => simpa [hs] using h
    | false => rw [burst_of_go hs]; exact ih (keep s hs h)

end Sys2Proof.Machine
end

