-- ==== Sys2Proof/Laws/Memory.lean ====
section
/-! SUPPORT. The GPIO space: its canonical form is kept by every write, and a read after a write. -/

namespace Sys2Proof.Machine

open Sys2Proof

@[simp] theorem memRead_nil (x : Nat) : memRead [] x = Memory.unlisted := rfl

/-- An address below every listed one is unlisted. -/
theorem memRead_of_below {m : Memory} {x : Nat} (h : m.all (fun c => decide (x < c.1)) = true) :
    memRead m x = Memory.unlisted := by
  induction m with
  | nil => rfl
  | cons c m ih =>
    obtain ⟨a, v⟩ := c
    simp only [List.all_cons, Bool.and_eq_true, decide_eq_true_eq] at h
    simp only [memRead]
    rw [if_neg (by omega)]
    exact ih h.2

/-- A bound below every listed address and the written one is a bound after the write. -/
theorem memWrite_above {m : Memory} {a x : Nat} {v : Byte} (hax : a < x)
    (h : m.all (fun c => decide (a < c.1)) = true) :
    (memWrite m x v).all (fun c => decide (a < c.1)) = true := by
  induction m with
  | nil => unfold memWrite; split <;> simp [hax]
  | cons c m ih =>
    obtain ⟨b, w⟩ := c
    simp only [List.all_cons, Bool.and_eq_true, decide_eq_true_eq] at h
    unfold memWrite
    have hrest := ih h.2
    split_ifs <;> (try simp only [List.all_cons, Bool.and_eq_true, decide_eq_true_eq]) <;>
      first | exact ⟨h.1, h.2⟩ | exact ⟨hax, h.1, h.2⟩ | exact h.2 | exact ⟨hax, h.2⟩ | exact ⟨h.1, hrest⟩

/-- Every write keeps the canonical form. -/
theorem memWrite_wf {m : Memory} (x : Nat) (v : Byte) (h : m.wf = true) :
    (memWrite m x v).wf = true := by
  induction m with
  | nil => unfold memWrite; split <;> simp_all [Memory.wf]
  | cons c m ih =>
    obtain ⟨a, w⟩ := c
    simp only [Memory.wf, Bool.and_eq_true, bne_iff_ne, ne_eq] at h
    obtain ⟨⟨hw, hall⟩, hm⟩ := h
    unfold memWrite
    split
    · rename_i hx
      split
      · simp [Memory.wf, hw, hall, hm]
      · rename_i hv
        have hall' : m.all (fun c => decide (x < c.1)) = true := by
          rw [List.all_eq_true] at hall ⊢
          intro c hc
          have := hall c hc
          simp only [decide_eq_true_eq] at this ⊢
          omega
        simp [Memory.wf, hv, hx, hall', hw, hall, hm]
    · split
      · rename_i hax
        split
        · exact hm
        · rename_i hv
          subst hax
          simp [Memory.wf, hv, hall, hm]
      · rename_i hx hax
        have := memWrite_above (v := v) (by omega : a < x) hall
        simp [Memory.wf, hw, ih hm, this]

/-- A read after a write to the same address gives the byte written. -/
theorem memRead_memWrite_same {m : Memory} (x : Nat) (v : Byte) (h : m.wf = true) :
    memRead (memWrite m x v) x = v := by
  induction m with
  | nil => unfold memWrite; split <;> simp_all [memRead]
  | cons c m ih =>
    obtain ⟨a, w⟩ := c
    simp only [Memory.wf, Bool.and_eq_true, bne_iff_ne, ne_eq] at h
    obtain ⟨⟨hw, hall⟩, hm⟩ := h
    unfold memWrite
    split
    · rename_i hx
      split
      · rename_i hv
        simp only [memRead, if_neg (by omega : ¬a = x)]
        rw [memRead_of_below, hv]
        rw [List.all_eq_true] at hall ⊢
        intro c hc
        have := hall c hc
        simp only [decide_eq_true_eq] at this ⊢
        omega
      · simp [memRead]
    · split
      · rename_i hax
        split
        · rename_i hv
          subst hax
          rw [memRead_of_below hall, hv]
        · simp [memRead]
      · rename_i hax
        simp only [memRead, if_neg hax]
        exact ih hm

/-- A write leaves every other address alone. -/
theorem memRead_memWrite_other {m : Memory} {x y : Nat} (v : Byte) (h : m.wf = true) (hxy : y ≠ x) :
    memRead (memWrite m x v) y = memRead m y := by
  induction m with
  | nil => unfold memWrite; split <;> simp [memRead, Ne.symm hxy]
  | cons c m ih =>
    obtain ⟨a, w⟩ := c
    simp only [Memory.wf, Bool.and_eq_true, bne_iff_ne, ne_eq] at h
    obtain ⟨⟨hw, hall⟩, hm⟩ := h
    unfold memWrite
    split
    · split <;> simp [memRead, Ne.symm hxy]
    · split
      · rename_i hax
        subst hax
        split
        · simp [memRead, Ne.symm hxy]
        · simp [memRead, Ne.symm hxy]
      · simp only [memRead]
        split
        · rfl
        · exact ih hm

/-- The GPIO space has its canonical form right after reset. -/
theorem reset_gpio_wf : State.reset.gpio.wf = true := rfl

end Sys2Proof.Machine
end

