-- ==== Sys2Proof/Laws/State.lean ====
section
/-! SUPPORT. One lemma per field for each named update of the state, so that no later proof unfolds an
update. -/

namespace Sys2Proof.Machine

open Sys2Proof

/-! ### `answerHost` -/

@[simp] theorem answerHost_cfg (st : Status) (v : Byte) (s : State) :
    (answerHost st v s).cfg = s.cfg := rfl

@[simp] theorem answerHost_txb (st : Status) (v : Byte) (s : State) :
    (answerHost st v s).txb = s.txb := rfl

@[simp] theorem answerHost_rxb (st : Status) (v : Byte) (s : State) :
    (answerHost st v s).rxb = s.rxb := rfl

@[simp] theorem answerHost_rb (st : Status) (v : Byte) (s : State) :
    (answerHost st v s).rb = s.rb := rfl

@[simp] theorem answerHost_prod (st : Status) (v : Byte) (s : State) :
    (answerHost st v s).prod = s.prod := rfl

@[simp] theorem answerHost_cons (st : Status) (v : Byte) (s : State) :
    (answerHost st v s).cons = s.cons := rfl

@[simp] theorem answerHost_baudDiv (st : Status) (v : Byte) (s : State) :
    (answerHost st v s).baudDiv = s.baudDiv := rfl

@[simp] theorem answerHost_rxEn (st : Status) (v : Byte) (s : State) :
    (answerHost st v s).rxEn = s.rxEn := rfl

@[simp] theorem answerHost_txEn (st : Status) (v : Byte) (s : State) :
    (answerHost st v s).txEn = s.txEn := rfl

@[simp] theorem answerHost_rxc (st : Status) (v : Byte) (s : State) :
    (answerHost st v s).rxc = s.rxc := rfl

@[simp] theorem answerHost_rxd (st : Status) (v : Byte) (s : State) :
    (answerHost st v s).rxd = s.rxd := rfl

@[simp] theorem answerHost_txr (st : Status) (v : Byte) (s : State) :
    (answerHost st v s).txr = s.txr := rfl

@[simp] theorem answerHost_txd (st : Status) (v : Byte) (s : State) :
    (answerHost st v s).txd = s.txd := rfl

@[simp] theorem answerHost_rxcIe (st : Status) (v : Byte) (s : State) :
    (answerHost st v s).rxcIe = s.rxcIe := rfl

@[simp] theorem answerHost_txrIe (st : Status) (v : Byte) (s : State) :
    (answerHost st v s).txrIe = s.txrIe := rfl

@[simp] theorem answerHost_st (st : Status) (v : Byte) (s : State) :
    (answerHost st v s).st = s.st := rfl

@[simp] theorem answerHost_frame (st : Status) (v : Byte) (s : State) :
    (answerHost st v s).frame = s.frame := rfl

@[simp] theorem answerHost_gie (st : Status) (v : Byte) (s : State) :
    (answerHost st v s).gie = s.gie := rfl

@[simp] theorem answerHost_isr (st : Status) (v : Byte) (s : State) :
    (answerHost st v s).isr = s.isr := rfl

@[simp] theorem answerHost_main (st : Status) (v : Byte) (s : State) :
    (answerHost st v s).main = s.main := rfl

@[simp] theorem answerHost_gpio (st : Status) (v : Byte) (s : State) :
    (answerHost st v s).gpio = s.gpio := rfl

@[simp] theorem answerHost_pinIn (st : Status) (v : Byte) (s : State) :
    (answerHost st v s).pinIn = s.pinIn := rfl

@[simp] theorem answerHost_lineOut (st : Status) (v : Byte) (s : State) :
    (answerHost st v s).lineOut = s.lineOut := rfl

@[simp] theorem answerHost_lineIn (st : Status) (v : Byte) (s : State) :
    (answerHost st v s).lineIn = s.lineIn := rfl

@[simp] theorem answerHost_hostResp (st : Status) (v : Byte) (s : State) :
    (answerHost st v s).hostResp = some (response st v) := rfl

@[simp] theorem answerHost_prodResp (st : Status) (v : Byte) (s : State) :
    (answerHost st v s).prodResp = s.prodResp := rfl

@[simp] theorem answerHost_consResp (st : Status) (v : Byte) (s : State) :
    (answerHost st v s).consResp = s.consResp := rfl

@[simp] theorem answerHost_consValue (st : Status) (v : Byte) (s : State) :
    (answerHost st v s).consValue = s.consValue := rfl

@[simp] theorem answerHost_draws (st : Status) (v : Byte) (s : State) :
    (answerHost st v s).draws = s.draws := rfl

@[simp] theorem answerHost_sched (st : Status) (v : Byte) (s : State) :
    (answerHost st v s).sched = s.sched := rfl

@[simp] theorem answerHost_agent (st : Status) (v : Byte) (s : State) :
    (answerHost st v s).agent = s.agent := rfl

@[simp] theorem answerHost_steps (st : Status) (v : Byte) (s : State) :
    (answerHost st v s).steps = s.steps := rfl

@[simp] theorem answerHost_above (st : Status) (v : Byte) (s : State) :
    (answerHost st v s).above = s.above := rfl

/-! ### `answerProd` -/

@[simp] theorem answerProd_cfg (st : Status) (v : Byte) (s : State) :
    (answerProd st v s).cfg = s.cfg := rfl

@[simp] theorem answerProd_txb (st : Status) (v : Byte) (s : State) :
    (answerProd st v s).txb = s.txb := rfl

@[simp] theorem answerProd_rxb (st : Status) (v : Byte) (s : State) :
    (answerProd st v s).rxb = s.rxb := rfl

@[simp] theorem answerProd_rb (st : Status) (v : Byte) (s : State) :
    (answerProd st v s).rb = s.rb := rfl

@[simp] theorem answerProd_prod (st : Status) (v : Byte) (s : State) :
    (answerProd st v s).prod = s.prod := rfl

@[simp] theorem answerProd_cons (st : Status) (v : Byte) (s : State) :
    (answerProd st v s).cons = s.cons := rfl

@[simp] theorem answerProd_baudDiv (st : Status) (v : Byte) (s : State) :
    (answerProd st v s).baudDiv = s.baudDiv := rfl

@[simp] theorem answerProd_rxEn (st : Status) (v : Byte) (s : State) :
    (answerProd st v s).rxEn = s.rxEn := rfl

@[simp] theorem answerProd_txEn (st : Status) (v : Byte) (s : State) :
    (answerProd st v s).txEn = s.txEn := rfl

@[simp] theorem answerProd_rxc (st : Status) (v : Byte) (s : State) :
    (answerProd st v s).rxc = s.rxc := rfl

@[simp] theorem answerProd_rxd (st : Status) (v : Byte) (s : State) :
    (answerProd st v s).rxd = s.rxd := rfl

@[simp] theorem answerProd_txr (st : Status) (v : Byte) (s : State) :
    (answerProd st v s).txr = s.txr := rfl

@[simp] theorem answerProd_txd (st : Status) (v : Byte) (s : State) :
    (answerProd st v s).txd = s.txd := rfl

@[simp] theorem answerProd_rxcIe (st : Status) (v : Byte) (s : State) :
    (answerProd st v s).rxcIe = s.rxcIe := rfl

@[simp] theorem answerProd_txrIe (st : Status) (v : Byte) (s : State) :
    (answerProd st v s).txrIe = s.txrIe := rfl

@[simp] theorem answerProd_st (st : Status) (v : Byte) (s : State) :
    (answerProd st v s).st = s.st := rfl

@[simp] theorem answerProd_frame (st : Status) (v : Byte) (s : State) :
    (answerProd st v s).frame = s.frame := rfl

@[simp] theorem answerProd_gie (st : Status) (v : Byte) (s : State) :
    (answerProd st v s).gie = s.gie := rfl

@[simp] theorem answerProd_isr (st : Status) (v : Byte) (s : State) :
    (answerProd st v s).isr = s.isr := rfl

@[simp] theorem answerProd_main (st : Status) (v : Byte) (s : State) :
    (answerProd st v s).main = s.main := rfl

@[simp] theorem answerProd_gpio (st : Status) (v : Byte) (s : State) :
    (answerProd st v s).gpio = s.gpio := rfl

@[simp] theorem answerProd_pinIn (st : Status) (v : Byte) (s : State) :
    (answerProd st v s).pinIn = s.pinIn := rfl

@[simp] theorem answerProd_lineOut (st : Status) (v : Byte) (s : State) :
    (answerProd st v s).lineOut = s.lineOut := rfl

@[simp] theorem answerProd_lineIn (st : Status) (v : Byte) (s : State) :
    (answerProd st v s).lineIn = s.lineIn := rfl

@[simp] theorem answerProd_hostResp (st : Status) (v : Byte) (s : State) :
    (answerProd st v s).hostResp = s.hostResp := rfl

@[simp] theorem answerProd_prodResp (st : Status) (v : Byte) (s : State) :
    (answerProd st v s).prodResp = some (response st v) := rfl

@[simp] theorem answerProd_consResp (st : Status) (v : Byte) (s : State) :
    (answerProd st v s).consResp = s.consResp := rfl

@[simp] theorem answerProd_consValue (st : Status) (v : Byte) (s : State) :
    (answerProd st v s).consValue = s.consValue := rfl

@[simp] theorem answerProd_draws (st : Status) (v : Byte) (s : State) :
    (answerProd st v s).draws = s.draws := rfl

@[simp] theorem answerProd_sched (st : Status) (v : Byte) (s : State) :
    (answerProd st v s).sched = s.sched := rfl

@[simp] theorem answerProd_agent (st : Status) (v : Byte) (s : State) :
    (answerProd st v s).agent = s.agent := rfl

@[simp] theorem answerProd_steps (st : Status) (v : Byte) (s : State) :
    (answerProd st v s).steps = s.steps := rfl

@[simp] theorem answerProd_above (st : Status) (v : Byte) (s : State) :
    (answerProd st v s).above = s.above := rfl

/-! ### `answerCons` -/

@[simp] theorem answerCons_cfg (st : Status) (v : Byte) (s : State) :
    (answerCons st v s).cfg = s.cfg := rfl

@[simp] theorem answerCons_txb (st : Status) (v : Byte) (s : State) :
    (answerCons st v s).txb = s.txb := rfl

@[simp] theorem answerCons_rxb (st : Status) (v : Byte) (s : State) :
    (answerCons st v s).rxb = s.rxb := rfl

@[simp] theorem answerCons_rb (st : Status) (v : Byte) (s : State) :
    (answerCons st v s).rb = s.rb := rfl

@[simp] theorem answerCons_prod (st : Status) (v : Byte) (s : State) :
    (answerCons st v s).prod = s.prod := rfl

@[simp] theorem answerCons_cons (st : Status) (v : Byte) (s : State) :
    (answerCons st v s).cons = s.cons := rfl

@[simp] theorem answerCons_baudDiv (st : Status) (v : Byte) (s : State) :
    (answerCons st v s).baudDiv = s.baudDiv := rfl

@[simp] theorem answerCons_rxEn (st : Status) (v : Byte) (s : State) :
    (answerCons st v s).rxEn = s.rxEn := rfl

@[simp] theorem answerCons_txEn (st : Status) (v : Byte) (s : State) :
    (answerCons st v s).txEn = s.txEn := rfl

@[simp] theorem answerCons_rxc (st : Status) (v : Byte) (s : State) :
    (answerCons st v s).rxc = s.rxc := rfl

@[simp] theorem answerCons_rxd (st : Status) (v : Byte) (s : State) :
    (answerCons st v s).rxd = s.rxd := rfl

@[simp] theorem answerCons_txr (st : Status) (v : Byte) (s : State) :
    (answerCons st v s).txr = s.txr := rfl

@[simp] theorem answerCons_txd (st : Status) (v : Byte) (s : State) :
    (answerCons st v s).txd = s.txd := rfl

@[simp] theorem answerCons_rxcIe (st : Status) (v : Byte) (s : State) :
    (answerCons st v s).rxcIe = s.rxcIe := rfl

@[simp] theorem answerCons_txrIe (st : Status) (v : Byte) (s : State) :
    (answerCons st v s).txrIe = s.txrIe := rfl

@[simp] theorem answerCons_st (st : Status) (v : Byte) (s : State) :
    (answerCons st v s).st = s.st := rfl

@[simp] theorem answerCons_frame (st : Status) (v : Byte) (s : State) :
    (answerCons st v s).frame = s.frame := rfl

@[simp] theorem answerCons_gie (st : Status) (v : Byte) (s : State) :
    (answerCons st v s).gie = s.gie := rfl

@[simp] theorem answerCons_isr (st : Status) (v : Byte) (s : State) :
    (answerCons st v s).isr = s.isr := rfl

@[simp] theorem answerCons_main (st : Status) (v : Byte) (s : State) :
    (answerCons st v s).main = s.main := rfl

@[simp] theorem answerCons_gpio (st : Status) (v : Byte) (s : State) :
    (answerCons st v s).gpio = s.gpio := rfl

@[simp] theorem answerCons_pinIn (st : Status) (v : Byte) (s : State) :
    (answerCons st v s).pinIn = s.pinIn := rfl

@[simp] theorem answerCons_lineOut (st : Status) (v : Byte) (s : State) :
    (answerCons st v s).lineOut = s.lineOut := rfl

@[simp] theorem answerCons_lineIn (st : Status) (v : Byte) (s : State) :
    (answerCons st v s).lineIn = s.lineIn := rfl

@[simp] theorem answerCons_hostResp (st : Status) (v : Byte) (s : State) :
    (answerCons st v s).hostResp = s.hostResp := rfl

@[simp] theorem answerCons_prodResp (st : Status) (v : Byte) (s : State) :
    (answerCons st v s).prodResp = s.prodResp := rfl

@[simp] theorem answerCons_consResp (st : Status) (v : Byte) (s : State) :
    (answerCons st v s).consResp = some (response st v) := rfl

@[simp] theorem answerCons_consValue (st : Status) (v : Byte) (s : State) :
    (answerCons st v s).consValue = none := rfl

@[simp] theorem answerCons_draws (st : Status) (v : Byte) (s : State) :
    (answerCons st v s).draws = s.draws := rfl

@[simp] theorem answerCons_sched (st : Status) (v : Byte) (s : State) :
    (answerCons st v s).sched = s.sched := rfl

@[simp] theorem answerCons_agent (st : Status) (v : Byte) (s : State) :
    (answerCons st v s).agent = s.agent := rfl

@[simp] theorem answerCons_steps (st : Status) (v : Byte) (s : State) :
    (answerCons st v s).steps = s.steps := rfl

@[simp] theorem answerCons_above (st : Status) (v : Byte) (s : State) :
    (answerCons st v s).above = s.above := rfl

/-! ### `presentMain` -/

@[simp] theorem presentMain_cfg (f : Main) (s : State) :
    (presentMain f s).cfg = s.cfg := rfl

@[simp] theorem presentMain_txb (f : Main) (s : State) :
    (presentMain f s).txb = s.txb := rfl

@[simp] theorem presentMain_rxb (f : Main) (s : State) :
    (presentMain f s).rxb = s.rxb := rfl

@[simp] theorem presentMain_rb (f : Main) (s : State) :
    (presentMain f s).rb = s.rb := rfl

@[simp] theorem presentMain_prod (f : Main) (s : State) :
    (presentMain f s).prod = s.prod := rfl

@[simp] theorem presentMain_cons (f : Main) (s : State) :
    (presentMain f s).cons = s.cons := rfl

@[simp] theorem presentMain_baudDiv (f : Main) (s : State) :
    (presentMain f s).baudDiv = s.baudDiv := rfl

@[simp] theorem presentMain_rxEn (f : Main) (s : State) :
    (presentMain f s).rxEn = s.rxEn := rfl

@[simp] theorem presentMain_txEn (f : Main) (s : State) :
    (presentMain f s).txEn = s.txEn := rfl

@[simp] theorem presentMain_rxc (f : Main) (s : State) :
    (presentMain f s).rxc = s.rxc := rfl

@[simp] theorem presentMain_rxd (f : Main) (s : State) :
    (presentMain f s).rxd = s.rxd := rfl

@[simp] theorem presentMain_txr (f : Main) (s : State) :
    (presentMain f s).txr = s.txr := rfl

@[simp] theorem presentMain_txd (f : Main) (s : State) :
    (presentMain f s).txd = s.txd := rfl

@[simp] theorem presentMain_rxcIe (f : Main) (s : State) :
    (presentMain f s).rxcIe = s.rxcIe := rfl

@[simp] theorem presentMain_txrIe (f : Main) (s : State) :
    (presentMain f s).txrIe = s.txrIe := rfl

@[simp] theorem presentMain_st (f : Main) (s : State) :
    (presentMain f s).st = s.st := rfl

@[simp] theorem presentMain_frame (f : Main) (s : State) :
    (presentMain f s).frame = s.frame := rfl

@[simp] theorem presentMain_gie (f : Main) (s : State) :
    (presentMain f s).gie = s.gie := rfl

@[simp] theorem presentMain_isr (f : Main) (s : State) :
    (presentMain f s).isr = s.isr := rfl

@[simp] theorem presentMain_main (f : Main) (s : State) :
    (presentMain f s).main = f := rfl

@[simp] theorem presentMain_gpio (f : Main) (s : State) :
    (presentMain f s).gpio = s.gpio := rfl

@[simp] theorem presentMain_pinIn (f : Main) (s : State) :
    (presentMain f s).pinIn = s.pinIn := rfl

@[simp] theorem presentMain_lineOut (f : Main) (s : State) :
    (presentMain f s).lineOut = s.lineOut := rfl

@[simp] theorem presentMain_lineIn (f : Main) (s : State) :
    (presentMain f s).lineIn = s.lineIn := rfl

@[simp] theorem presentMain_hostResp (f : Main) (s : State) :
    (presentMain f s).hostResp = none := rfl

@[simp] theorem presentMain_prodResp (f : Main) (s : State) :
    (presentMain f s).prodResp = s.prodResp := rfl

@[simp] theorem presentMain_consResp (f : Main) (s : State) :
    (presentMain f s).consResp = s.consResp := rfl

@[simp] theorem presentMain_consValue (f : Main) (s : State) :
    (presentMain f s).consValue = s.consValue := rfl

@[simp] theorem presentMain_draws (f : Main) (s : State) :
    (presentMain f s).draws = s.draws := rfl

@[simp] theorem presentMain_sched (f : Main) (s : State) :
    (presentMain f s).sched = s.sched := rfl

@[simp] theorem presentMain_agent (f : Main) (s : State) :
    (presentMain f s).agent = s.agent := rfl

@[simp] theorem presentMain_steps (f : Main) (s : State) :
    (presentMain f s).steps = s.steps := rfl

@[simp] theorem presentMain_above (f : Main) (s : State) :
    (presentMain f s).above = s.above := rfl

/-! ### `presentProd` -/

@[simp] theorem presentProd_cfg (f : ProdOp) (s : State) :
    (presentProd f s).cfg = s.cfg := rfl

@[simp] theorem presentProd_txb (f : ProdOp) (s : State) :
    (presentProd f s).txb = s.txb := rfl

@[simp] theorem presentProd_rxb (f : ProdOp) (s : State) :
    (presentProd f s).rxb = s.rxb := rfl

@[simp] theorem presentProd_rb (f : ProdOp) (s : State) :
    (presentProd f s).rb = s.rb := rfl

@[simp] theorem presentProd_prod (f : ProdOp) (s : State) :
    (presentProd f s).prod = f := rfl

@[simp] theorem presentProd_cons (f : ProdOp) (s : State) :
    (presentProd f s).cons = s.cons := rfl

@[simp] theorem presentProd_baudDiv (f : ProdOp) (s : State) :
    (presentProd f s).baudDiv = s.baudDiv := rfl

@[simp] theorem presentProd_rxEn (f : ProdOp) (s : State) :
    (presentProd f s).rxEn = s.rxEn := rfl

@[simp] theorem presentProd_txEn (f : ProdOp) (s : State) :
    (presentProd f s).txEn = s.txEn := rfl

@[simp] theorem presentProd_rxc (f : ProdOp) (s : State) :
    (presentProd f s).rxc = s.rxc := rfl

@[simp] theorem presentProd_rxd (f : ProdOp) (s : State) :
    (presentProd f s).rxd = s.rxd := rfl

@[simp] theorem presentProd_txr (f : ProdOp) (s : State) :
    (presentProd f s).txr = s.txr := rfl

@[simp] theorem presentProd_txd (f : ProdOp) (s : State) :
    (presentProd f s).txd = s.txd := rfl

@[simp] theorem presentProd_rxcIe (f : ProdOp) (s : State) :
    (presentProd f s).rxcIe = s.rxcIe := rfl

@[simp] theorem presentProd_txrIe (f : ProdOp) (s : State) :
    (presentProd f s).txrIe = s.txrIe := rfl

@[simp] theorem presentProd_st (f : ProdOp) (s : State) :
    (presentProd f s).st = s.st := rfl

@[simp] theorem presentProd_frame (f : ProdOp) (s : State) :
    (presentProd f s).frame = s.frame := rfl

@[simp] theorem presentProd_gie (f : ProdOp) (s : State) :
    (presentProd f s).gie = s.gie := rfl

@[simp] theorem presentProd_isr (f : ProdOp) (s : State) :
    (presentProd f s).isr = s.isr := rfl

@[simp] theorem presentProd_main (f : ProdOp) (s : State) :
    (presentProd f s).main = s.main := rfl

@[simp] theorem presentProd_gpio (f : ProdOp) (s : State) :
    (presentProd f s).gpio = s.gpio := rfl

@[simp] theorem presentProd_pinIn (f : ProdOp) (s : State) :
    (presentProd f s).pinIn = s.pinIn := rfl

@[simp] theorem presentProd_lineOut (f : ProdOp) (s : State) :
    (presentProd f s).lineOut = s.lineOut := rfl

@[simp] theorem presentProd_lineIn (f : ProdOp) (s : State) :
    (presentProd f s).lineIn = s.lineIn := rfl

@[simp] theorem presentProd_hostResp (f : ProdOp) (s : State) :
    (presentProd f s).hostResp = s.hostResp := rfl

@[simp] theorem presentProd_prodResp (f : ProdOp) (s : State) :
    (presentProd f s).prodResp = none := rfl

@[simp] theorem presentProd_consResp (f : ProdOp) (s : State) :
    (presentProd f s).consResp = s.consResp := rfl

@[simp] theorem presentProd_consValue (f : ProdOp) (s : State) :
    (presentProd f s).consValue = s.consValue := rfl

@[simp] theorem presentProd_draws (f : ProdOp) (s : State) :
    (presentProd f s).draws = s.draws := rfl

@[simp] theorem presentProd_sched (f : ProdOp) (s : State) :
    (presentProd f s).sched = s.sched := rfl

@[simp] theorem presentProd_agent (f : ProdOp) (s : State) :
    (presentProd f s).agent = s.agent := rfl

@[simp] theorem presentProd_steps (f : ProdOp) (s : State) :
    (presentProd f s).steps = s.steps := rfl

@[simp] theorem presentProd_above (f : ProdOp) (s : State) :
    (presentProd f s).above = s.above := rfl

/-! ### `presentCons` -/

@[simp] theorem presentCons_cfg (f : ConsOp) (s : State) :
    (presentCons f s).cfg = s.cfg := rfl

@[simp] theorem presentCons_txb (f : ConsOp) (s : State) :
    (presentCons f s).txb = s.txb := rfl

@[simp] theorem presentCons_rxb (f : ConsOp) (s : State) :
    (presentCons f s).rxb = s.rxb := rfl

@[simp] theorem presentCons_rb (f : ConsOp) (s : State) :
    (presentCons f s).rb = s.rb := rfl

@[simp] theorem presentCons_prod (f : ConsOp) (s : State) :
    (presentCons f s).prod = s.prod := rfl

@[simp] theorem presentCons_cons (f : ConsOp) (s : State) :
    (presentCons f s).cons = f := rfl

@[simp] theorem presentCons_baudDiv (f : ConsOp) (s : State) :
    (presentCons f s).baudDiv = s.baudDiv := rfl

@[simp] theorem presentCons_rxEn (f : ConsOp) (s : State) :
    (presentCons f s).rxEn = s.rxEn := rfl

@[simp] theorem presentCons_txEn (f : ConsOp) (s : State) :
    (presentCons f s).txEn = s.txEn := rfl

@[simp] theorem presentCons_rxc (f : ConsOp) (s : State) :
    (presentCons f s).rxc = s.rxc := rfl

@[simp] theorem presentCons_rxd (f : ConsOp) (s : State) :
    (presentCons f s).rxd = s.rxd := rfl

@[simp] theorem presentCons_txr (f : ConsOp) (s : State) :
    (presentCons f s).txr = s.txr := rfl

@[simp] theorem presentCons_txd (f : ConsOp) (s : State) :
    (presentCons f s).txd = s.txd := rfl

@[simp] theorem presentCons_rxcIe (f : ConsOp) (s : State) :
    (presentCons f s).rxcIe = s.rxcIe := rfl

@[simp] theorem presentCons_txrIe (f : ConsOp) (s : State) :
    (presentCons f s).txrIe = s.txrIe := rfl

@[simp] theorem presentCons_st (f : ConsOp) (s : State) :
    (presentCons f s).st = s.st := rfl

@[simp] theorem presentCons_frame (f : ConsOp) (s : State) :
    (presentCons f s).frame = s.frame := rfl

@[simp] theorem presentCons_gie (f : ConsOp) (s : State) :
    (presentCons f s).gie = s.gie := rfl

@[simp] theorem presentCons_isr (f : ConsOp) (s : State) :
    (presentCons f s).isr = s.isr := rfl

@[simp] theorem presentCons_main (f : ConsOp) (s : State) :
    (presentCons f s).main = s.main := rfl

@[simp] theorem presentCons_gpio (f : ConsOp) (s : State) :
    (presentCons f s).gpio = s.gpio := rfl

@[simp] theorem presentCons_pinIn (f : ConsOp) (s : State) :
    (presentCons f s).pinIn = s.pinIn := rfl

@[simp] theorem presentCons_lineOut (f : ConsOp) (s : State) :
    (presentCons f s).lineOut = s.lineOut := rfl

@[simp] theorem presentCons_lineIn (f : ConsOp) (s : State) :
    (presentCons f s).lineIn = s.lineIn := rfl

@[simp] theorem presentCons_hostResp (f : ConsOp) (s : State) :
    (presentCons f s).hostResp = s.hostResp := rfl

@[simp] theorem presentCons_prodResp (f : ConsOp) (s : State) :
    (presentCons f s).prodResp = s.prodResp := rfl

@[simp] theorem presentCons_consResp (f : ConsOp) (s : State) :
    (presentCons f s).consResp = none := rfl

@[simp] theorem presentCons_consValue (f : ConsOp) (s : State) :
    (presentCons f s).consValue = none := rfl

@[simp] theorem presentCons_draws (f : ConsOp) (s : State) :
    (presentCons f s).draws = s.draws := rfl

@[simp] theorem presentCons_sched (f : ConsOp) (s : State) :
    (presentCons f s).sched = s.sched := rfl

@[simp] theorem presentCons_agent (f : ConsOp) (s : State) :
    (presentCons f s).agent = s.agent := rfl

@[simp] theorem presentCons_steps (f : ConsOp) (s : State) :
    (presentCons f s).steps = s.steps := rfl

@[simp] theorem presentCons_above (f : ConsOp) (s : State) :
    (presentCons f s).above = s.above := rfl

/-! ### `finishProd` -/

@[simp] theorem finishProd_cfg (st : Status) (v : Byte) (s : State) :
    (finishProd st v s).cfg = s.cfg := rfl

@[simp] theorem finishProd_txb (st : Status) (v : Byte) (s : State) :
    (finishProd st v s).txb = s.txb := rfl

@[simp] theorem finishProd_rxb (st : Status) (v : Byte) (s : State) :
    (finishProd st v s).rxb = s.rxb := rfl

@[simp] theorem finishProd_rb (st : Status) (v : Byte) (s : State) :
    (finishProd st v s).rb = s.rb := rfl

@[simp] theorem finishProd_prod (st : Status) (v : Byte) (s : State) :
    (finishProd st v s).prod = .idle := rfl

@[simp] theorem finishProd_cons (st : Status) (v : Byte) (s : State) :
    (finishProd st v s).cons = s.cons := rfl

@[simp] theorem finishProd_baudDiv (st : Status) (v : Byte) (s : State) :
    (finishProd st v s).baudDiv = s.baudDiv := rfl

@[simp] theorem finishProd_rxEn (st : Status) (v : Byte) (s : State) :
    (finishProd st v s).rxEn = s.rxEn := rfl

@[simp] theorem finishProd_txEn (st : Status) (v : Byte) (s : State) :
    (finishProd st v s).txEn = s.txEn := rfl

@[simp] theorem finishProd_rxc (st : Status) (v : Byte) (s : State) :
    (finishProd st v s).rxc = s.rxc := rfl

@[simp] theorem finishProd_rxd (st : Status) (v : Byte) (s : State) :
    (finishProd st v s).rxd = s.rxd := rfl

@[simp] theorem finishProd_txr (st : Status) (v : Byte) (s : State) :
    (finishProd st v s).txr = s.txr := rfl

@[simp] theorem finishProd_txd (st : Status) (v : Byte) (s : State) :
    (finishProd st v s).txd = s.txd := rfl

@[simp] theorem finishProd_rxcIe (st : Status) (v : Byte) (s : State) :
    (finishProd st v s).rxcIe = s.rxcIe := rfl

@[simp] theorem finishProd_txrIe (st : Status) (v : Byte) (s : State) :
    (finishProd st v s).txrIe = s.txrIe := rfl

@[simp] theorem finishProd_st (st : Status) (v : Byte) (s : State) :
    (finishProd st v s).st = s.st := rfl

@[simp] theorem finishProd_frame (st : Status) (v : Byte) (s : State) :
    (finishProd st v s).frame = s.frame := rfl

@[simp] theorem finishProd_gie (st : Status) (v : Byte) (s : State) :
    (finishProd st v s).gie = s.gie := rfl

@[simp] theorem finishProd_isr (st : Status) (v : Byte) (s : State) :
    (finishProd st v s).isr = s.isr := rfl

@[simp] theorem finishProd_main (st : Status) (v : Byte) (s : State) :
    (finishProd st v s).main = s.main := rfl

@[simp] theorem finishProd_gpio (st : Status) (v : Byte) (s : State) :
    (finishProd st v s).gpio = s.gpio := rfl

@[simp] theorem finishProd_pinIn (st : Status) (v : Byte) (s : State) :
    (finishProd st v s).pinIn = s.pinIn := rfl

@[simp] theorem finishProd_lineOut (st : Status) (v : Byte) (s : State) :
    (finishProd st v s).lineOut = s.lineOut := rfl

@[simp] theorem finishProd_lineIn (st : Status) (v : Byte) (s : State) :
    (finishProd st v s).lineIn = s.lineIn := rfl

@[simp] theorem finishProd_hostResp (st : Status) (v : Byte) (s : State) :
    (finishProd st v s).hostResp = s.hostResp := rfl

@[simp] theorem finishProd_prodResp (st : Status) (v : Byte) (s : State) :
    (finishProd st v s).prodResp = some (response st v) := rfl

@[simp] theorem finishProd_consResp (st : Status) (v : Byte) (s : State) :
    (finishProd st v s).consResp = s.consResp := rfl

@[simp] theorem finishProd_consValue (st : Status) (v : Byte) (s : State) :
    (finishProd st v s).consValue = s.consValue := rfl

@[simp] theorem finishProd_draws (st : Status) (v : Byte) (s : State) :
    (finishProd st v s).draws = s.draws := rfl

@[simp] theorem finishProd_sched (st : Status) (v : Byte) (s : State) :
    (finishProd st v s).sched = s.sched := rfl

@[simp] theorem finishProd_agent (st : Status) (v : Byte) (s : State) :
    (finishProd st v s).agent = s.agent := rfl

@[simp] theorem finishProd_steps (st : Status) (v : Byte) (s : State) :
    (finishProd st v s).steps = s.steps := rfl

@[simp] theorem finishProd_above (st : Status) (v : Byte) (s : State) :
    (finishProd st v s).above = s.above := rfl

/-! ### `finishCons` -/

@[simp] theorem finishCons_cfg (st : Status) (v : Byte) (s : State) :
    (finishCons st v s).cfg = s.cfg := rfl

@[simp] theorem finishCons_txb (st : Status) (v : Byte) (s : State) :
    (finishCons st v s).txb = s.txb := rfl

@[simp] theorem finishCons_rxb (st : Status) (v : Byte) (s : State) :
    (finishCons st v s).rxb = s.rxb := rfl

@[simp] theorem finishCons_rb (st : Status) (v : Byte) (s : State) :
    (finishCons st v s).rb = s.rb := rfl

@[simp] theorem finishCons_prod (st : Status) (v : Byte) (s : State) :
    (finishCons st v s).prod = s.prod := rfl

@[simp] theorem finishCons_cons (st : Status) (v : Byte) (s : State) :
    (finishCons st v s).cons = .idle := rfl

@[simp] theorem finishCons_baudDiv (st : Status) (v : Byte) (s : State) :
    (finishCons st v s).baudDiv = s.baudDiv := rfl

@[simp] theorem finishCons_rxEn (st : Status) (v : Byte) (s : State) :
    (finishCons st v s).rxEn = s.rxEn := rfl

@[simp] theorem finishCons_txEn (st : Status) (v : Byte) (s : State) :
    (finishCons st v s).txEn = s.txEn := rfl

@[simp] theorem finishCons_rxc (st : Status) (v : Byte) (s : State) :
    (finishCons st v s).rxc = s.rxc := rfl

@[simp] theorem finishCons_rxd (st : Status) (v : Byte) (s : State) :
    (finishCons st v s).rxd = s.rxd := rfl

@[simp] theorem finishCons_txr (st : Status) (v : Byte) (s : State) :
    (finishCons st v s).txr = s.txr := rfl

@[simp] theorem finishCons_txd (st : Status) (v : Byte) (s : State) :
    (finishCons st v s).txd = s.txd := rfl

@[simp] theorem finishCons_rxcIe (st : Status) (v : Byte) (s : State) :
    (finishCons st v s).rxcIe = s.rxcIe := rfl

@[simp] theorem finishCons_txrIe (st : Status) (v : Byte) (s : State) :
    (finishCons st v s).txrIe = s.txrIe := rfl

@[simp] theorem finishCons_st (st : Status) (v : Byte) (s : State) :
    (finishCons st v s).st = s.st := rfl

@[simp] theorem finishCons_frame (st : Status) (v : Byte) (s : State) :
    (finishCons st v s).frame = s.frame := rfl

@[simp] theorem finishCons_gie (st : Status) (v : Byte) (s : State) :
    (finishCons st v s).gie = s.gie := rfl

@[simp] theorem finishCons_isr (st : Status) (v : Byte) (s : State) :
    (finishCons st v s).isr = s.isr := rfl

@[simp] theorem finishCons_main (st : Status) (v : Byte) (s : State) :
    (finishCons st v s).main = s.main := rfl

@[simp] theorem finishCons_gpio (st : Status) (v : Byte) (s : State) :
    (finishCons st v s).gpio = s.gpio := rfl

@[simp] theorem finishCons_pinIn (st : Status) (v : Byte) (s : State) :
    (finishCons st v s).pinIn = s.pinIn := rfl

@[simp] theorem finishCons_lineOut (st : Status) (v : Byte) (s : State) :
    (finishCons st v s).lineOut = s.lineOut := rfl

@[simp] theorem finishCons_lineIn (st : Status) (v : Byte) (s : State) :
    (finishCons st v s).lineIn = s.lineIn := rfl

@[simp] theorem finishCons_hostResp (st : Status) (v : Byte) (s : State) :
    (finishCons st v s).hostResp = s.hostResp := rfl

@[simp] theorem finishCons_prodResp (st : Status) (v : Byte) (s : State) :
    (finishCons st v s).prodResp = s.prodResp := rfl

@[simp] theorem finishCons_consResp (st : Status) (v : Byte) (s : State) :
    (finishCons st v s).consResp = some (response st v) := rfl

@[simp] theorem finishCons_consValue (st : Status) (v : Byte) (s : State) :
    (finishCons st v s).consValue = none := rfl

@[simp] theorem finishCons_draws (st : Status) (v : Byte) (s : State) :
    (finishCons st v s).draws = s.draws := rfl

@[simp] theorem finishCons_sched (st : Status) (v : Byte) (s : State) :
    (finishCons st v s).sched = s.sched := rfl

@[simp] theorem finishCons_agent (st : Status) (v : Byte) (s : State) :
    (finishCons st v s).agent = s.agent := rfl

@[simp] theorem finishCons_steps (st : Status) (v : Byte) (s : State) :
    (finishCons st v s).steps = s.steps := rfl

@[simp] theorem finishCons_above (st : Status) (v : Byte) (s : State) :
    (finishCons st v s).above = s.above := rfl

/-! ### `finishDeq` -/

@[simp] theorem finishDeq_cfg (v : Nat) (s : State) :
    (finishDeq v s).cfg = s.cfg := rfl

@[simp] theorem finishDeq_txb (v : Nat) (s : State) :
    (finishDeq v s).txb = s.txb := rfl

@[simp] theorem finishDeq_rxb (v : Nat) (s : State) :
    (finishDeq v s).rxb = s.rxb := rfl

@[simp] theorem finishDeq_rb (v : Nat) (s : State) :
    (finishDeq v s).rb = s.rb := rfl

@[simp] theorem finishDeq_prod (v : Nat) (s : State) :
    (finishDeq v s).prod = s.prod := rfl

@[simp] theorem finishDeq_cons (v : Nat) (s : State) :
    (finishDeq v s).cons = .idle := rfl

@[simp] theorem finishDeq_baudDiv (v : Nat) (s : State) :
    (finishDeq v s).baudDiv = s.baudDiv := rfl

@[simp] theorem finishDeq_rxEn (v : Nat) (s : State) :
    (finishDeq v s).rxEn = s.rxEn := rfl

@[simp] theorem finishDeq_txEn (v : Nat) (s : State) :
    (finishDeq v s).txEn = s.txEn := rfl

@[simp] theorem finishDeq_rxc (v : Nat) (s : State) :
    (finishDeq v s).rxc = s.rxc := rfl

@[simp] theorem finishDeq_rxd (v : Nat) (s : State) :
    (finishDeq v s).rxd = s.rxd := rfl

@[simp] theorem finishDeq_txr (v : Nat) (s : State) :
    (finishDeq v s).txr = s.txr := rfl

@[simp] theorem finishDeq_txd (v : Nat) (s : State) :
    (finishDeq v s).txd = s.txd := rfl

@[simp] theorem finishDeq_rxcIe (v : Nat) (s : State) :
    (finishDeq v s).rxcIe = s.rxcIe := rfl

@[simp] theorem finishDeq_txrIe (v : Nat) (s : State) :
    (finishDeq v s).txrIe = s.txrIe := rfl

@[simp] theorem finishDeq_st (v : Nat) (s : State) :
    (finishDeq v s).st = s.st := rfl

@[simp] theorem finishDeq_frame (v : Nat) (s : State) :
    (finishDeq v s).frame = s.frame := rfl

@[simp] theorem finishDeq_gie (v : Nat) (s : State) :
    (finishDeq v s).gie = s.gie := rfl

@[simp] theorem finishDeq_isr (v : Nat) (s : State) :
    (finishDeq v s).isr = s.isr := rfl

@[simp] theorem finishDeq_main (v : Nat) (s : State) :
    (finishDeq v s).main = s.main := rfl

@[simp] theorem finishDeq_gpio (v : Nat) (s : State) :
    (finishDeq v s).gpio = s.gpio := rfl

@[simp] theorem finishDeq_pinIn (v : Nat) (s : State) :
    (finishDeq v s).pinIn = s.pinIn := rfl

@[simp] theorem finishDeq_lineOut (v : Nat) (s : State) :
    (finishDeq v s).lineOut = s.lineOut := rfl

@[simp] theorem finishDeq_lineIn (v : Nat) (s : State) :
    (finishDeq v s).lineIn = s.lineIn := rfl

@[simp] theorem finishDeq_hostResp (v : Nat) (s : State) :
    (finishDeq v s).hostResp = s.hostResp := rfl

@[simp] theorem finishDeq_prodResp (v : Nat) (s : State) :
    (finishDeq v s).prodResp = s.prodResp := rfl

@[simp] theorem finishDeq_consResp (v : Nat) (s : State) :
    (finishDeq v s).consResp = some (response .ok (elementByte s.cfg v)) := rfl

@[simp] theorem finishDeq_consValue (v : Nat) (s : State) :
    (finishDeq v s).consValue = some v := rfl

@[simp] theorem finishDeq_draws (v : Nat) (s : State) :
    (finishDeq v s).draws = s.draws := rfl

@[simp] theorem finishDeq_sched (v : Nat) (s : State) :
    (finishDeq v s).sched = s.sched := rfl

@[simp] theorem finishDeq_agent (v : Nat) (s : State) :
    (finishDeq v s).agent = s.agent := rfl

@[simp] theorem finishDeq_steps (v : Nat) (s : State) :
    (finishDeq v s).steps = s.steps := rfl

@[simp] theorem finishDeq_above (v : Nat) (s : State) :
    (finishDeq v s).above = s.above := rfl

/-! ### `finishMain` -/

@[simp] theorem finishMain_cfg (v : Byte) (s : State) :
    (finishMain v s).cfg = s.cfg := rfl

@[simp] theorem finishMain_txb (v : Byte) (s : State) :
    (finishMain v s).txb = s.txb := rfl

@[simp] theorem finishMain_rxb (v : Byte) (s : State) :
    (finishMain v s).rxb = s.rxb := rfl

@[simp] theorem finishMain_rb (v : Byte) (s : State) :
    (finishMain v s).rb = s.rb := rfl

@[simp] theorem finishMain_prod (v : Byte) (s : State) :
    (finishMain v s).prod = s.prod := rfl

@[simp] theorem finishMain_cons (v : Byte) (s : State) :
    (finishMain v s).cons = s.cons := rfl

@[simp] theorem finishMain_baudDiv (v : Byte) (s : State) :
    (finishMain v s).baudDiv = s.baudDiv := rfl

@[simp] theorem finishMain_rxEn (v : Byte) (s : State) :
    (finishMain v s).rxEn = s.rxEn := rfl

@[simp] theorem finishMain_txEn (v : Byte) (s : State) :
    (finishMain v s).txEn = s.txEn := rfl

@[simp] theorem finishMain_rxc (v : Byte) (s : State) :
    (finishMain v s).rxc = s.rxc := rfl

@[simp] theorem finishMain_rxd (v : Byte) (s : State) :
    (finishMain v s).rxd = s.rxd := rfl

@[simp] theorem finishMain_txr (v : Byte) (s : State) :
    (finishMain v s).txr = s.txr := rfl

@[simp] theorem finishMain_txd (v : Byte) (s : State) :
    (finishMain v s).txd = s.txd := rfl

@[simp] theorem finishMain_rxcIe (v : Byte) (s : State) :
    (finishMain v s).rxcIe = s.rxcIe := rfl

@[simp] theorem finishMain_txrIe (v : Byte) (s : State) :
    (finishMain v s).txrIe = s.txrIe := rfl

@[simp] theorem finishMain_st (v : Byte) (s : State) :
    (finishMain v s).st = s.st := rfl

@[simp] theorem finishMain_frame (v : Byte) (s : State) :
    (finishMain v s).frame = s.frame := rfl

@[simp] theorem finishMain_gie (v : Byte) (s : State) :
    (finishMain v s).gie = s.gie := rfl

@[simp] theorem finishMain_isr (v : Byte) (s : State) :
    (finishMain v s).isr = s.isr := rfl

@[simp] theorem finishMain_main (v : Byte) (s : State) :
    (finishMain v s).main = .idle := rfl

@[simp] theorem finishMain_gpio (v : Byte) (s : State) :
    (finishMain v s).gpio = s.gpio := rfl

@[simp] theorem finishMain_pinIn (v : Byte) (s : State) :
    (finishMain v s).pinIn = s.pinIn := rfl

@[simp] theorem finishMain_lineOut (v : Byte) (s : State) :
    (finishMain v s).lineOut = s.lineOut := rfl

@[simp] theorem finishMain_lineIn (v : Byte) (s : State) :
    (finishMain v s).lineIn = s.lineIn := rfl

@[simp] theorem finishMain_hostResp (v : Byte) (s : State) :
    (finishMain v s).hostResp = some (response .ok v) := rfl

@[simp] theorem finishMain_prodResp (v : Byte) (s : State) :
    (finishMain v s).prodResp = s.prodResp := rfl

@[simp] theorem finishMain_consResp (v : Byte) (s : State) :
    (finishMain v s).consResp = s.consResp := rfl

@[simp] theorem finishMain_consValue (v : Byte) (s : State) :
    (finishMain v s).consValue = s.consValue := rfl

@[simp] theorem finishMain_draws (v : Byte) (s : State) :
    (finishMain v s).draws = s.draws := rfl

@[simp] theorem finishMain_sched (v : Byte) (s : State) :
    (finishMain v s).sched = s.sched := rfl

@[simp] theorem finishMain_agent (v : Byte) (s : State) :
    (finishMain v s).agent = s.agent := rfl

@[simp] theorem finishMain_steps (v : Byte) (s : State) :
    (finishMain v s).steps = s.steps := rfl

@[simp] theorem finishMain_above (v : Byte) (s : State) :
    (finishMain v s).above = s.above := rfl

/-! ### `enterHandler` -/

@[simp] theorem enterHandler_cfg (h : Isr) (s : State) :
    (enterHandler h s).cfg = s.cfg := rfl

@[simp] theorem enterHandler_txb (h : Isr) (s : State) :
    (enterHandler h s).txb = s.txb := rfl

@[simp] theorem enterHandler_rxb (h : Isr) (s : State) :
    (enterHandler h s).rxb = s.rxb := rfl

@[simp] theorem enterHandler_rb (h : Isr) (s : State) :
    (enterHandler h s).rb = s.rb := rfl

@[simp] theorem enterHandler_prod (h : Isr) (s : State) :
    (enterHandler h s).prod = s.prod := rfl

@[simp] theorem enterHandler_cons (h : Isr) (s : State) :
    (enterHandler h s).cons = s.cons := rfl

@[simp] theorem enterHandler_baudDiv (h : Isr) (s : State) :
    (enterHandler h s).baudDiv = s.baudDiv := rfl

@[simp] theorem enterHandler_rxEn (h : Isr) (s : State) :
    (enterHandler h s).rxEn = s.rxEn := rfl

@[simp] theorem enterHandler_txEn (h : Isr) (s : State) :
    (enterHandler h s).txEn = s.txEn := rfl

@[simp] theorem enterHandler_rxc (h : Isr) (s : State) :
    (enterHandler h s).rxc = s.rxc := rfl

@[simp] theorem enterHandler_rxd (h : Isr) (s : State) :
    (enterHandler h s).rxd = s.rxd := rfl

@[simp] theorem enterHandler_txr (h : Isr) (s : State) :
    (enterHandler h s).txr = s.txr := rfl

@[simp] theorem enterHandler_txd (h : Isr) (s : State) :
    (enterHandler h s).txd = s.txd := rfl

@[simp] theorem enterHandler_rxcIe (h : Isr) (s : State) :
    (enterHandler h s).rxcIe = s.rxcIe := rfl

@[simp] theorem enterHandler_txrIe (h : Isr) (s : State) :
    (enterHandler h s).txrIe = s.txrIe := rfl

@[simp] theorem enterHandler_st (h : Isr) (s : State) :
    (enterHandler h s).st = s.st := rfl

@[simp] theorem enterHandler_frame (h : Isr) (s : State) :
    (enterHandler h s).frame = s.frame := rfl

@[simp] theorem enterHandler_gie (h : Isr) (s : State) :
    (enterHandler h s).gie = s.gie := rfl

@[simp] theorem enterHandler_isr (h : Isr) (s : State) :
    (enterHandler h s).isr = h := rfl

@[simp] theorem enterHandler_main (h : Isr) (s : State) :
    (enterHandler h s).main = s.main := rfl

@[simp] theorem enterHandler_gpio (h : Isr) (s : State) :
    (enterHandler h s).gpio = s.gpio := rfl

@[simp] theorem enterHandler_pinIn (h : Isr) (s : State) :
    (enterHandler h s).pinIn = s.pinIn := rfl

@[simp] theorem enterHandler_lineOut (h : Isr) (s : State) :
    (enterHandler h s).lineOut = s.lineOut := rfl

@[simp] theorem enterHandler_lineIn (h : Isr) (s : State) :
    (enterHandler h s).lineIn = s.lineIn := rfl

@[simp] theorem enterHandler_hostResp (h : Isr) (s : State) :
    (enterHandler h s).hostResp = s.hostResp := rfl

@[simp] theorem enterHandler_prodResp (h : Isr) (s : State) :
    (enterHandler h s).prodResp = s.prodResp := rfl

@[simp] theorem enterHandler_consResp (h : Isr) (s : State) :
    (enterHandler h s).consResp = s.consResp := rfl

@[simp] theorem enterHandler_consValue (h : Isr) (s : State) :
    (enterHandler h s).consValue = s.consValue := rfl

@[simp] theorem enterHandler_draws (h : Isr) (s : State) :
    (enterHandler h s).draws = s.draws := rfl

@[simp] theorem enterHandler_sched (h : Isr) (s : State) :
    (enterHandler h s).sched = s.sched := rfl

@[simp] theorem enterHandler_agent (h : Isr) (s : State) :
    (enterHandler h s).agent = s.agent := rfl

@[simp] theorem enterHandler_steps (h : Isr) (s : State) :
    (enterHandler h s).steps = s.steps := rfl

@[simp] theorem enterHandler_above (h : Isr) (s : State) :
    (enterHandler h s).above = s.above := rfl

/-! ### `returnFromHandler` -/

@[simp] theorem returnFromHandler_cfg (s : State) :
    (returnFromHandler s).cfg = s.cfg := rfl

@[simp] theorem returnFromHandler_txb (s : State) :
    (returnFromHandler s).txb = s.txb := rfl

@[simp] theorem returnFromHandler_rxb (s : State) :
    (returnFromHandler s).rxb = s.rxb := rfl

@[simp] theorem returnFromHandler_rb (s : State) :
    (returnFromHandler s).rb = s.rb := rfl

@[simp] theorem returnFromHandler_prod (s : State) :
    (returnFromHandler s).prod = s.prod := rfl

@[simp] theorem returnFromHandler_cons (s : State) :
    (returnFromHandler s).cons = s.cons := rfl

@[simp] theorem returnFromHandler_baudDiv (s : State) :
    (returnFromHandler s).baudDiv = s.baudDiv := rfl

@[simp] theorem returnFromHandler_rxEn (s : State) :
    (returnFromHandler s).rxEn = s.rxEn := rfl

@[simp] theorem returnFromHandler_txEn (s : State) :
    (returnFromHandler s).txEn = s.txEn := rfl

@[simp] theorem returnFromHandler_rxc (s : State) :
    (returnFromHandler s).rxc = s.rxc := rfl

@[simp] theorem returnFromHandler_rxd (s : State) :
    (returnFromHandler s).rxd = s.rxd := rfl

@[simp] theorem returnFromHandler_txr (s : State) :
    (returnFromHandler s).txr = s.txr := rfl

@[simp] theorem returnFromHandler_txd (s : State) :
    (returnFromHandler s).txd = s.txd := rfl

@[simp] theorem returnFromHandler_rxcIe (s : State) :
    (returnFromHandler s).rxcIe = s.rxcIe := rfl

@[simp] theorem returnFromHandler_txrIe (s : State) :
    (returnFromHandler s).txrIe = s.txrIe := rfl

@[simp] theorem returnFromHandler_st (s : State) :
    (returnFromHandler s).st = s.st := rfl

@[simp] theorem returnFromHandler_frame (s : State) :
    (returnFromHandler s).frame = s.frame := rfl

@[simp] theorem returnFromHandler_gie (s : State) :
    (returnFromHandler s).gie = s.gie := rfl

@[simp] theorem returnFromHandler_isr (s : State) :
    (returnFromHandler s).isr = .none := rfl

@[simp] theorem returnFromHandler_main (s : State) :
    (returnFromHandler s).main = s.main := rfl

@[simp] theorem returnFromHandler_gpio (s : State) :
    (returnFromHandler s).gpio = s.gpio := rfl

@[simp] theorem returnFromHandler_pinIn (s : State) :
    (returnFromHandler s).pinIn = s.pinIn := rfl

@[simp] theorem returnFromHandler_lineOut (s : State) :
    (returnFromHandler s).lineOut = s.lineOut := rfl

@[simp] theorem returnFromHandler_lineIn (s : State) :
    (returnFromHandler s).lineIn = s.lineIn := rfl

@[simp] theorem returnFromHandler_hostResp (s : State) :
    (returnFromHandler s).hostResp = s.hostResp := rfl

@[simp] theorem returnFromHandler_prodResp (s : State) :
    (returnFromHandler s).prodResp = s.prodResp := rfl

@[simp] theorem returnFromHandler_consResp (s : State) :
    (returnFromHandler s).consResp = s.consResp := rfl

@[simp] theorem returnFromHandler_consValue (s : State) :
    (returnFromHandler s).consValue = s.consValue := rfl

@[simp] theorem returnFromHandler_draws (s : State) :
    (returnFromHandler s).draws = s.draws := rfl

@[simp] theorem returnFromHandler_sched (s : State) :
    (returnFromHandler s).sched = s.sched := rfl

@[simp] theorem returnFromHandler_agent (s : State) :
    (returnFromHandler s).agent = s.agent := rfl

@[simp] theorem returnFromHandler_steps (s : State) :
    (returnFromHandler s).steps = s.steps := rfl

@[simp] theorem returnFromHandler_above (s : State) :
    (returnFromHandler s).above = s.above := rfl

/-! ### `setTxrIe` -/

@[simp] theorem setTxrIe_cfg (b : Bool) (s : State) :
    (setTxrIe b s).cfg = s.cfg := rfl

@[simp] theorem setTxrIe_txb (b : Bool) (s : State) :
    (setTxrIe b s).txb = s.txb := rfl

@[simp] theorem setTxrIe_rxb (b : Bool) (s : State) :
    (setTxrIe b s).rxb = s.rxb := rfl

@[simp] theorem setTxrIe_rb (b : Bool) (s : State) :
    (setTxrIe b s).rb = s.rb := rfl

@[simp] theorem setTxrIe_prod (b : Bool) (s : State) :
    (setTxrIe b s).prod = s.prod := rfl

@[simp] theorem setTxrIe_cons (b : Bool) (s : State) :
    (setTxrIe b s).cons = s.cons := rfl

@[simp] theorem setTxrIe_baudDiv (b : Bool) (s : State) :
    (setTxrIe b s).baudDiv = s.baudDiv := rfl

@[simp] theorem setTxrIe_rxEn (b : Bool) (s : State) :
    (setTxrIe b s).rxEn = s.rxEn := rfl

@[simp] theorem setTxrIe_txEn (b : Bool) (s : State) :
    (setTxrIe b s).txEn = s.txEn := rfl

@[simp] theorem setTxrIe_rxc (b : Bool) (s : State) :
    (setTxrIe b s).rxc = s.rxc := rfl

@[simp] theorem setTxrIe_rxd (b : Bool) (s : State) :
    (setTxrIe b s).rxd = s.rxd := rfl

@[simp] theorem setTxrIe_txr (b : Bool) (s : State) :
    (setTxrIe b s).txr = s.txr := rfl

@[simp] theorem setTxrIe_txd (b : Bool) (s : State) :
    (setTxrIe b s).txd = s.txd := rfl

@[simp] theorem setTxrIe_rxcIe (b : Bool) (s : State) :
    (setTxrIe b s).rxcIe = s.rxcIe := rfl

@[simp] theorem setTxrIe_txrIe (b : Bool) (s : State) :
    (setTxrIe b s).txrIe = b := rfl

@[simp] theorem setTxrIe_st (b : Bool) (s : State) :
    (setTxrIe b s).st = s.st := rfl

@[simp] theorem setTxrIe_frame (b : Bool) (s : State) :
    (setTxrIe b s).frame = s.frame := rfl

@[simp] theorem setTxrIe_gie (b : Bool) (s : State) :
    (setTxrIe b s).gie = s.gie := rfl

@[simp] theorem setTxrIe_isr (b : Bool) (s : State) :
    (setTxrIe b s).isr = s.isr := rfl

@[simp] theorem setTxrIe_main (b : Bool) (s : State) :
    (setTxrIe b s).main = s.main := rfl

@[simp] theorem setTxrIe_gpio (b : Bool) (s : State) :
    (setTxrIe b s).gpio = s.gpio := rfl

@[simp] theorem setTxrIe_pinIn (b : Bool) (s : State) :
    (setTxrIe b s).pinIn = s.pinIn := rfl

@[simp] theorem setTxrIe_lineOut (b : Bool) (s : State) :
    (setTxrIe b s).lineOut = s.lineOut := rfl

@[simp] theorem setTxrIe_lineIn (b : Bool) (s : State) :
    (setTxrIe b s).lineIn = s.lineIn := rfl

@[simp] theorem setTxrIe_hostResp (b : Bool) (s : State) :
    (setTxrIe b s).hostResp = s.hostResp := rfl

@[simp] theorem setTxrIe_prodResp (b : Bool) (s : State) :
    (setTxrIe b s).prodResp = s.prodResp := rfl

@[simp] theorem setTxrIe_consResp (b : Bool) (s : State) :
    (setTxrIe b s).consResp = s.consResp := rfl

@[simp] theorem setTxrIe_consValue (b : Bool) (s : State) :
    (setTxrIe b s).consValue = s.consValue := rfl

@[simp] theorem setTxrIe_draws (b : Bool) (s : State) :
    (setTxrIe b s).draws = s.draws := rfl

@[simp] theorem setTxrIe_sched (b : Bool) (s : State) :
    (setTxrIe b s).sched = s.sched := rfl

@[simp] theorem setTxrIe_agent (b : Bool) (s : State) :
    (setTxrIe b s).agent = s.agent := rfl

@[simp] theorem setTxrIe_steps (b : Bool) (s : State) :
    (setTxrIe b s).steps = s.steps := rfl

@[simp] theorem setTxrIe_above (b : Bool) (s : State) :
    (setTxrIe b s).above = s.above := rfl

/-! ### `setGie` -/

@[simp] theorem setGie_cfg (b : Bool) (s : State) :
    (setGie b s).cfg = s.cfg := rfl

@[simp] theorem setGie_txb (b : Bool) (s : State) :
    (setGie b s).txb = s.txb := rfl

@[simp] theorem setGie_rxb (b : Bool) (s : State) :
    (setGie b s).rxb = s.rxb := rfl

@[simp] theorem setGie_rb (b : Bool) (s : State) :
    (setGie b s).rb = s.rb := rfl

@[simp] theorem setGie_prod (b : Bool) (s : State) :
    (setGie b s).prod = s.prod := rfl

@[simp] theorem setGie_cons (b : Bool) (s : State) :
    (setGie b s).cons = s.cons := rfl

@[simp] theorem setGie_baudDiv (b : Bool) (s : State) :
    (setGie b s).baudDiv = s.baudDiv := rfl

@[simp] theorem setGie_rxEn (b : Bool) (s : State) :
    (setGie b s).rxEn = s.rxEn := rfl

@[simp] theorem setGie_txEn (b : Bool) (s : State) :
    (setGie b s).txEn = s.txEn := rfl

@[simp] theorem setGie_rxc (b : Bool) (s : State) :
    (setGie b s).rxc = s.rxc := rfl

@[simp] theorem setGie_rxd (b : Bool) (s : State) :
    (setGie b s).rxd = s.rxd := rfl

@[simp] theorem setGie_txr (b : Bool) (s : State) :
    (setGie b s).txr = s.txr := rfl

@[simp] theorem setGie_txd (b : Bool) (s : State) :
    (setGie b s).txd = s.txd := rfl

@[simp] theorem setGie_rxcIe (b : Bool) (s : State) :
    (setGie b s).rxcIe = s.rxcIe := rfl

@[simp] theorem setGie_txrIe (b : Bool) (s : State) :
    (setGie b s).txrIe = s.txrIe := rfl

@[simp] theorem setGie_st (b : Bool) (s : State) :
    (setGie b s).st = s.st := rfl

@[simp] theorem setGie_frame (b : Bool) (s : State) :
    (setGie b s).frame = s.frame := rfl

@[simp] theorem setGie_gie (b : Bool) (s : State) :
    (setGie b s).gie = b := rfl

@[simp] theorem setGie_isr (b : Bool) (s : State) :
    (setGie b s).isr = s.isr := rfl

@[simp] theorem setGie_main (b : Bool) (s : State) :
    (setGie b s).main = s.main := rfl

@[simp] theorem setGie_gpio (b : Bool) (s : State) :
    (setGie b s).gpio = s.gpio := rfl

@[simp] theorem setGie_pinIn (b : Bool) (s : State) :
    (setGie b s).pinIn = s.pinIn := rfl

@[simp] theorem setGie_lineOut (b : Bool) (s : State) :
    (setGie b s).lineOut = s.lineOut := rfl

@[simp] theorem setGie_lineIn (b : Bool) (s : State) :
    (setGie b s).lineIn = s.lineIn := rfl

@[simp] theorem setGie_hostResp (b : Bool) (s : State) :
    (setGie b s).hostResp = s.hostResp := rfl

@[simp] theorem setGie_prodResp (b : Bool) (s : State) :
    (setGie b s).prodResp = s.prodResp := rfl

@[simp] theorem setGie_consResp (b : Bool) (s : State) :
    (setGie b s).consResp = s.consResp := rfl

@[simp] theorem setGie_consValue (b : Bool) (s : State) :
    (setGie b s).consValue = s.consValue := rfl

@[simp] theorem setGie_draws (b : Bool) (s : State) :
    (setGie b s).draws = s.draws := rfl

@[simp] theorem setGie_sched (b : Bool) (s : State) :
    (setGie b s).sched = s.sched := rfl

@[simp] theorem setGie_agent (b : Bool) (s : State) :
    (setGie b s).agent = s.agent := rfl

@[simp] theorem setGie_steps (b : Bool) (s : State) :
    (setGie b s).steps = s.steps := rfl

@[simp] theorem setGie_above (b : Bool) (s : State) :
    (setGie b s).above = s.above := rfl

/-! ### `writeDataRegister` -/

@[simp] theorem writeDataRegister_cfg (v : Byte) (s : State) :
    (writeDataRegister v s).cfg = s.cfg := rfl

@[simp] theorem writeDataRegister_txb (v : Byte) (s : State) :
    (writeDataRegister v s).txb = s.txb := rfl

@[simp] theorem writeDataRegister_rxb (v : Byte) (s : State) :
    (writeDataRegister v s).rxb = s.rxb := rfl

@[simp] theorem writeDataRegister_rb (v : Byte) (s : State) :
    (writeDataRegister v s).rb = s.rb := rfl

@[simp] theorem writeDataRegister_prod (v : Byte) (s : State) :
    (writeDataRegister v s).prod = s.prod := rfl

@[simp] theorem writeDataRegister_cons (v : Byte) (s : State) :
    (writeDataRegister v s).cons = s.cons := rfl

@[simp] theorem writeDataRegister_baudDiv (v : Byte) (s : State) :
    (writeDataRegister v s).baudDiv = s.baudDiv := rfl

@[simp] theorem writeDataRegister_rxEn (v : Byte) (s : State) :
    (writeDataRegister v s).rxEn = s.rxEn := rfl

@[simp] theorem writeDataRegister_txEn (v : Byte) (s : State) :
    (writeDataRegister v s).txEn = s.txEn := rfl

@[simp] theorem writeDataRegister_rxc (v : Byte) (s : State) :
    (writeDataRegister v s).rxc = s.rxc := rfl

@[simp] theorem writeDataRegister_rxd (v : Byte) (s : State) :
    (writeDataRegister v s).rxd = s.rxd := rfl

@[simp] theorem writeDataRegister_txr (v : Byte) (s : State) :
    (writeDataRegister v s).txr = false := rfl

@[simp] theorem writeDataRegister_txd (v : Byte) (s : State) :
    (writeDataRegister v s).txd = v := rfl

@[simp] theorem writeDataRegister_rxcIe (v : Byte) (s : State) :
    (writeDataRegister v s).rxcIe = s.rxcIe := rfl

@[simp] theorem writeDataRegister_txrIe (v : Byte) (s : State) :
    (writeDataRegister v s).txrIe = s.txrIe := rfl

@[simp] theorem writeDataRegister_st (v : Byte) (s : State) :
    (writeDataRegister v s).st = s.st := rfl

@[simp] theorem writeDataRegister_frame (v : Byte) (s : State) :
    (writeDataRegister v s).frame = s.frame := rfl

@[simp] theorem writeDataRegister_gie (v : Byte) (s : State) :
    (writeDataRegister v s).gie = s.gie := rfl

@[simp] theorem writeDataRegister_isr (v : Byte) (s : State) :
    (writeDataRegister v s).isr = s.isr := rfl

@[simp] theorem writeDataRegister_main (v : Byte) (s : State) :
    (writeDataRegister v s).main = s.main := rfl

@[simp] theorem writeDataRegister_gpio (v : Byte) (s : State) :
    (writeDataRegister v s).gpio = s.gpio := rfl

@[simp] theorem writeDataRegister_pinIn (v : Byte) (s : State) :
    (writeDataRegister v s).pinIn = s.pinIn := rfl

@[simp] theorem writeDataRegister_lineOut (v : Byte) (s : State) :
    (writeDataRegister v s).lineOut = s.lineOut := rfl

@[simp] theorem writeDataRegister_lineIn (v : Byte) (s : State) :
    (writeDataRegister v s).lineIn = s.lineIn := rfl

@[simp] theorem writeDataRegister_hostResp (v : Byte) (s : State) :
    (writeDataRegister v s).hostResp = s.hostResp := rfl

@[simp] theorem writeDataRegister_prodResp (v : Byte) (s : State) :
    (writeDataRegister v s).prodResp = s.prodResp := rfl

@[simp] theorem writeDataRegister_consResp (v : Byte) (s : State) :
    (writeDataRegister v s).consResp = s.consResp := rfl

@[simp] theorem writeDataRegister_consValue (v : Byte) (s : State) :
    (writeDataRegister v s).consValue = s.consValue := rfl

@[simp] theorem writeDataRegister_draws (v : Byte) (s : State) :
    (writeDataRegister v s).draws = s.draws := rfl

@[simp] theorem writeDataRegister_sched (v : Byte) (s : State) :
    (writeDataRegister v s).sched = s.sched := rfl

@[simp] theorem writeDataRegister_agent (v : Byte) (s : State) :
    (writeDataRegister v s).agent = s.agent := rfl

@[simp] theorem writeDataRegister_steps (v : Byte) (s : State) :
    (writeDataRegister v s).steps = s.steps := rfl

@[simp] theorem writeDataRegister_above (v : Byte) (s : State) :
    (writeDataRegister v s).above = s.above := rfl

/-! ### `readDataRegister` -/

@[simp] theorem readDataRegister_cfg (s : State) :
    (readDataRegister s).2.cfg = s.cfg := rfl

@[simp] theorem readDataRegister_txb (s : State) :
    (readDataRegister s).2.txb = s.txb := rfl

@[simp] theorem readDataRegister_rxb (s : State) :
    (readDataRegister s).2.rxb = s.rxb := rfl

@[simp] theorem readDataRegister_rb (s : State) :
    (readDataRegister s).2.rb = s.rb := rfl

@[simp] theorem readDataRegister_prod (s : State) :
    (readDataRegister s).2.prod = s.prod := rfl

@[simp] theorem readDataRegister_cons (s : State) :
    (readDataRegister s).2.cons = s.cons := rfl

@[simp] theorem readDataRegister_baudDiv (s : State) :
    (readDataRegister s).2.baudDiv = s.baudDiv := rfl

@[simp] theorem readDataRegister_rxEn (s : State) :
    (readDataRegister s).2.rxEn = s.rxEn := rfl

@[simp] theorem readDataRegister_txEn (s : State) :
    (readDataRegister s).2.txEn = s.txEn := rfl

@[simp] theorem readDataRegister_rxc (s : State) :
    (readDataRegister s).2.rxc = false := rfl

@[simp] theorem readDataRegister_rxd (s : State) :
    (readDataRegister s).2.rxd = s.rxd := rfl

@[simp] theorem readDataRegister_txr (s : State) :
    (readDataRegister s).2.txr = s.txr := rfl

@[simp] theorem readDataRegister_txd (s : State) :
    (readDataRegister s).2.txd = s.txd := rfl

@[simp] theorem readDataRegister_rxcIe (s : State) :
    (readDataRegister s).2.rxcIe = s.rxcIe := rfl

@[simp] theorem readDataRegister_txrIe (s : State) :
    (readDataRegister s).2.txrIe = s.txrIe := rfl

@[simp] theorem readDataRegister_st (s : State) :
    (readDataRegister s).2.st = s.st := rfl

@[simp] theorem readDataRegister_frame (s : State) :
    (readDataRegister s).2.frame = s.frame := rfl

@[simp] theorem readDataRegister_gie (s : State) :
    (readDataRegister s).2.gie = s.gie := rfl

@[simp] theorem readDataRegister_isr (s : State) :
    (readDataRegister s).2.isr = s.isr := rfl

@[simp] theorem readDataRegister_main (s : State) :
    (readDataRegister s).2.main = s.main := rfl

@[simp] theorem readDataRegister_gpio (s : State) :
    (readDataRegister s).2.gpio = s.gpio := rfl

@[simp] theorem readDataRegister_pinIn (s : State) :
    (readDataRegister s).2.pinIn = s.pinIn := rfl

@[simp] theorem readDataRegister_lineOut (s : State) :
    (readDataRegister s).2.lineOut = s.lineOut := rfl

@[simp] theorem readDataRegister_lineIn (s : State) :
    (readDataRegister s).2.lineIn = s.lineIn := rfl

@[simp] theorem readDataRegister_hostResp (s : State) :
    (readDataRegister s).2.hostResp = s.hostResp := rfl

@[simp] theorem readDataRegister_prodResp (s : State) :
    (readDataRegister s).2.prodResp = s.prodResp := rfl

@[simp] theorem readDataRegister_consResp (s : State) :
    (readDataRegister s).2.consResp = s.consResp := rfl

@[simp] theorem readDataRegister_consValue (s : State) :
    (readDataRegister s).2.consValue = s.consValue := rfl

@[simp] theorem readDataRegister_draws (s : State) :
    (readDataRegister s).2.draws = s.draws := rfl

@[simp] theorem readDataRegister_sched (s : State) :
    (readDataRegister s).2.sched = s.sched := rfl

@[simp] theorem readDataRegister_agent (s : State) :
    (readDataRegister s).2.agent = s.agent := rfl

@[simp] theorem readDataRegister_steps (s : State) :
    (readDataRegister s).2.steps = s.steps := rfl

@[simp] theorem readDataRegister_above (s : State) :
    (readDataRegister s).2.above = s.above := rfl

/-! ### `takeTransmitted` -/

@[simp] theorem takeTransmitted_cfg (s : State) :
    (takeTransmitted s).cfg = s.cfg := rfl

@[simp] theorem takeTransmitted_txb (s : State) :
    (takeTransmitted s).txb = s.txb := rfl

@[simp] theorem takeTransmitted_rxb (s : State) :
    (takeTransmitted s).rxb = s.rxb := rfl

@[simp] theorem takeTransmitted_rb (s : State) :
    (takeTransmitted s).rb = s.rb := rfl

@[simp] theorem takeTransmitted_prod (s : State) :
    (takeTransmitted s).prod = s.prod := rfl

@[simp] theorem takeTransmitted_cons (s : State) :
    (takeTransmitted s).cons = s.cons := rfl

@[simp] theorem takeTransmitted_baudDiv (s : State) :
    (takeTransmitted s).baudDiv = s.baudDiv := rfl

@[simp] theorem takeTransmitted_rxEn (s : State) :
    (takeTransmitted s).rxEn = s.rxEn := rfl

@[simp] theorem takeTransmitted_txEn (s : State) :
    (takeTransmitted s).txEn = s.txEn := rfl

@[simp] theorem takeTransmitted_rxc (s : State) :
    (takeTransmitted s).rxc = s.rxc := rfl

@[simp] theorem takeTransmitted_rxd (s : State) :
    (takeTransmitted s).rxd = s.rxd := rfl

@[simp] theorem takeTransmitted_txr (s : State) :
    (takeTransmitted s).txr = true := rfl

@[simp] theorem takeTransmitted_txd (s : State) :
    (takeTransmitted s).txd = s.txd := rfl

@[simp] theorem takeTransmitted_rxcIe (s : State) :
    (takeTransmitted s).rxcIe = s.rxcIe := rfl

@[simp] theorem takeTransmitted_txrIe (s : State) :
    (takeTransmitted s).txrIe = s.txrIe := rfl

@[simp] theorem takeTransmitted_st (s : State) :
    (takeTransmitted s).st = s.st := rfl

@[simp] theorem takeTransmitted_frame (s : State) :
    (takeTransmitted s).frame = s.frame := rfl

@[simp] theorem takeTransmitted_gie (s : State) :
    (takeTransmitted s).gie = s.gie := rfl

@[simp] theorem takeTransmitted_isr (s : State) :
    (takeTransmitted s).isr = s.isr := rfl

@[simp] theorem takeTransmitted_main (s : State) :
    (takeTransmitted s).main = s.main := rfl

@[simp] theorem takeTransmitted_gpio (s : State) :
    (takeTransmitted s).gpio = s.gpio := rfl

@[simp] theorem takeTransmitted_pinIn (s : State) :
    (takeTransmitted s).pinIn = s.pinIn := rfl

@[simp] theorem takeTransmitted_lineOut (s : State) :
    (takeTransmitted s).lineOut = s.lineOut ++ [s.txd] := rfl

@[simp] theorem takeTransmitted_lineIn (s : State) :
    (takeTransmitted s).lineIn = s.lineIn := rfl

@[simp] theorem takeTransmitted_hostResp (s : State) :
    (takeTransmitted s).hostResp = s.hostResp := rfl

@[simp] theorem takeTransmitted_prodResp (s : State) :
    (takeTransmitted s).prodResp = s.prodResp := rfl

@[simp] theorem takeTransmitted_consResp (s : State) :
    (takeTransmitted s).consResp = s.consResp := rfl

@[simp] theorem takeTransmitted_consValue (s : State) :
    (takeTransmitted s).consValue = s.consValue := rfl

@[simp] theorem takeTransmitted_draws (s : State) :
    (takeTransmitted s).draws = s.draws := rfl

@[simp] theorem takeTransmitted_sched (s : State) :
    (takeTransmitted s).sched = s.sched := rfl

@[simp] theorem takeTransmitted_agent (s : State) :
    (takeTransmitted s).agent = s.agent := rfl

@[simp] theorem takeTransmitted_steps (s : State) :
    (takeTransmitted s).steps = s.steps := rfl

@[simp] theorem takeTransmitted_above (s : State) :
    (takeTransmitted s).above = s.above := rfl

/-! ### `drawBit` -/

@[simp] theorem drawBit_cfg (s : State) :
    (drawBit s).2.cfg = s.cfg := rfl

@[simp] theorem drawBit_txb (s : State) :
    (drawBit s).2.txb = s.txb := rfl

@[simp] theorem drawBit_rxb (s : State) :
    (drawBit s).2.rxb = s.rxb := rfl

@[simp] theorem drawBit_rb (s : State) :
    (drawBit s).2.rb = s.rb := rfl

@[simp] theorem drawBit_prod (s : State) :
    (drawBit s).2.prod = s.prod := rfl

@[simp] theorem drawBit_cons (s : State) :
    (drawBit s).2.cons = s.cons := rfl

@[simp] theorem drawBit_baudDiv (s : State) :
    (drawBit s).2.baudDiv = s.baudDiv := rfl

@[simp] theorem drawBit_rxEn (s : State) :
    (drawBit s).2.rxEn = s.rxEn := rfl

@[simp] theorem drawBit_txEn (s : State) :
    (drawBit s).2.txEn = s.txEn := rfl

@[simp] theorem drawBit_rxc (s : State) :
    (drawBit s).2.rxc = s.rxc := rfl

@[simp] theorem drawBit_rxd (s : State) :
    (drawBit s).2.rxd = s.rxd := rfl

@[simp] theorem drawBit_txr (s : State) :
    (drawBit s).2.txr = s.txr := rfl

@[simp] theorem drawBit_txd (s : State) :
    (drawBit s).2.txd = s.txd := rfl

@[simp] theorem drawBit_rxcIe (s : State) :
    (drawBit s).2.rxcIe = s.rxcIe := rfl

@[simp] theorem drawBit_txrIe (s : State) :
    (drawBit s).2.txrIe = s.txrIe := rfl

@[simp] theorem drawBit_st (s : State) :
    (drawBit s).2.st = s.st := rfl

@[simp] theorem drawBit_frame (s : State) :
    (drawBit s).2.frame = s.frame := rfl

@[simp] theorem drawBit_gie (s : State) :
    (drawBit s).2.gie = s.gie := rfl

@[simp] theorem drawBit_isr (s : State) :
    (drawBit s).2.isr = s.isr := rfl

@[simp] theorem drawBit_main (s : State) :
    (drawBit s).2.main = s.main := rfl

@[simp] theorem drawBit_gpio (s : State) :
    (drawBit s).2.gpio = s.gpio := rfl

@[simp] theorem drawBit_pinIn (s : State) :
    (drawBit s).2.pinIn = s.pinIn := rfl

@[simp] theorem drawBit_lineOut (s : State) :
    (drawBit s).2.lineOut = s.lineOut := rfl

@[simp] theorem drawBit_lineIn (s : State) :
    (drawBit s).2.lineIn = s.lineIn := rfl

@[simp] theorem drawBit_hostResp (s : State) :
    (drawBit s).2.hostResp = s.hostResp := rfl

@[simp] theorem drawBit_prodResp (s : State) :
    (drawBit s).2.prodResp = s.prodResp := rfl

@[simp] theorem drawBit_consResp (s : State) :
    (drawBit s).2.consResp = s.consResp := rfl

@[simp] theorem drawBit_consValue (s : State) :
    (drawBit s).2.consValue = s.consValue := rfl

@[simp] theorem drawBit_draws (s : State) :
    (drawBit s).2.draws = s.draws + 1 := rfl

@[simp] theorem drawBit_sched (s : State) :
    (drawBit s).2.sched = s.sched := rfl

@[simp] theorem drawBit_agent (s : State) :
    (drawBit s).2.agent = s.agent := rfl

@[simp] theorem drawBit_steps (s : State) :
    (drawBit s).2.steps = s.steps := rfl

@[simp] theorem drawBit_above (s : State) :
    (drawBit s).2.above = s.above := rfl

/-! ### `enableByInit` -/

@[simp] theorem enableByInit_cfg (s : State) :
    (enableByInit s).cfg = s.cfg := rfl

@[simp] theorem enableByInit_txb (s : State) :
    (enableByInit s).txb = s.txb := rfl

@[simp] theorem enableByInit_rxb (s : State) :
    (enableByInit s).rxb = s.rxb := rfl

@[simp] theorem enableByInit_rb (s : State) :
    (enableByInit s).rb = s.rb := rfl

@[simp] theorem enableByInit_prod (s : State) :
    (enableByInit s).prod = s.prod := rfl

@[simp] theorem enableByInit_cons (s : State) :
    (enableByInit s).cons = s.cons := rfl

@[simp] theorem enableByInit_baudDiv (s : State) :
    (enableByInit s).baudDiv = s.baudDiv := rfl

@[simp] theorem enableByInit_rxEn (s : State) :
    (enableByInit s).rxEn = true := rfl

@[simp] theorem enableByInit_txEn (s : State) :
    (enableByInit s).txEn = true := rfl

@[simp] theorem enableByInit_rxc (s : State) :
    (enableByInit s).rxc = s.rxc := rfl

@[simp] theorem enableByInit_rxd (s : State) :
    (enableByInit s).rxd = s.rxd := rfl

@[simp] theorem enableByInit_txr (s : State) :
    (enableByInit s).txr = s.txr := rfl

@[simp] theorem enableByInit_txd (s : State) :
    (enableByInit s).txd = s.txd := rfl

@[simp] theorem enableByInit_rxcIe (s : State) :
    (enableByInit s).rxcIe = true := rfl

@[simp] theorem enableByInit_txrIe (s : State) :
    (enableByInit s).txrIe = (s.txrIe && Config.freeBit s.draws) := rfl

@[simp] theorem enableByInit_st (s : State) :
    (enableByInit s).st = s.st := rfl

@[simp] theorem enableByInit_frame (s : State) :
    (enableByInit s).frame = s.frame := rfl

@[simp] theorem enableByInit_gie (s : State) :
    (enableByInit s).gie = s.gie := rfl

@[simp] theorem enableByInit_isr (s : State) :
    (enableByInit s).isr = s.isr := rfl

@[simp] theorem enableByInit_main (s : State) :
    (enableByInit s).main = s.main := rfl

@[simp] theorem enableByInit_gpio (s : State) :
    (enableByInit s).gpio = s.gpio := rfl

@[simp] theorem enableByInit_pinIn (s : State) :
    (enableByInit s).pinIn = s.pinIn := rfl

@[simp] theorem enableByInit_lineOut (s : State) :
    (enableByInit s).lineOut = s.lineOut := rfl

@[simp] theorem enableByInit_lineIn (s : State) :
    (enableByInit s).lineIn = s.lineIn := rfl

@[simp] theorem enableByInit_hostResp (s : State) :
    (enableByInit s).hostResp = s.hostResp := rfl

@[simp] theorem enableByInit_prodResp (s : State) :
    (enableByInit s).prodResp = s.prodResp := rfl

@[simp] theorem enableByInit_consResp (s : State) :
    (enableByInit s).consResp = s.consResp := rfl

@[simp] theorem enableByInit_consValue (s : State) :
    (enableByInit s).consValue = s.consValue := rfl

@[simp] theorem enableByInit_draws (s : State) :
    (enableByInit s).draws = s.draws + 1 := rfl

@[simp] theorem enableByInit_sched (s : State) :
    (enableByInit s).sched = s.sched := rfl

@[simp] theorem enableByInit_agent (s : State) :
    (enableByInit s).agent = s.agent := rfl

@[simp] theorem enableByInit_steps (s : State) :
    (enableByInit s).steps = s.steps := rfl

@[simp] theorem enableByInit_above (s : State) :
    (enableByInit s).above = s.above := rfl

/-! ### `scheduleNext` -/

@[simp] theorem scheduleNext_cfg (t : Turn) (s : State) :
    (scheduleNext t s).cfg = s.cfg := rfl

@[simp] theorem scheduleNext_txb (t : Turn) (s : State) :
    (scheduleNext t s).txb = s.txb := rfl

@[simp] theorem scheduleNext_rxb (t : Turn) (s : State) :
    (scheduleNext t s).rxb = s.rxb := rfl

@[simp] theorem scheduleNext_rb (t : Turn) (s : State) :
    (scheduleNext t s).rb = s.rb := rfl

@[simp] theorem scheduleNext_prod (t : Turn) (s : State) :
    (scheduleNext t s).prod = s.prod := rfl

@[simp] theorem scheduleNext_cons (t : Turn) (s : State) :
    (scheduleNext t s).cons = s.cons := rfl

@[simp] theorem scheduleNext_baudDiv (t : Turn) (s : State) :
    (scheduleNext t s).baudDiv = s.baudDiv := rfl

@[simp] theorem scheduleNext_rxEn (t : Turn) (s : State) :
    (scheduleNext t s).rxEn = s.rxEn := rfl

@[simp] theorem scheduleNext_txEn (t : Turn) (s : State) :
    (scheduleNext t s).txEn = s.txEn := rfl

@[simp] theorem scheduleNext_rxc (t : Turn) (s : State) :
    (scheduleNext t s).rxc = s.rxc := rfl

@[simp] theorem scheduleNext_rxd (t : Turn) (s : State) :
    (scheduleNext t s).rxd = s.rxd := rfl

@[simp] theorem scheduleNext_txr (t : Turn) (s : State) :
    (scheduleNext t s).txr = s.txr := rfl

@[simp] theorem scheduleNext_txd (t : Turn) (s : State) :
    (scheduleNext t s).txd = s.txd := rfl

@[simp] theorem scheduleNext_rxcIe (t : Turn) (s : State) :
    (scheduleNext t s).rxcIe = s.rxcIe := rfl

@[simp] theorem scheduleNext_txrIe (t : Turn) (s : State) :
    (scheduleNext t s).txrIe = s.txrIe := rfl

@[simp] theorem scheduleNext_st (t : Turn) (s : State) :
    (scheduleNext t s).st = s.st := rfl

@[simp] theorem scheduleNext_frame (t : Turn) (s : State) :
    (scheduleNext t s).frame = s.frame := rfl

@[simp] theorem scheduleNext_gie (t : Turn) (s : State) :
    (scheduleNext t s).gie = s.gie := rfl

@[simp] theorem scheduleNext_isr (t : Turn) (s : State) :
    (scheduleNext t s).isr = s.isr := rfl

@[simp] theorem scheduleNext_main (t : Turn) (s : State) :
    (scheduleNext t s).main = s.main := rfl

@[simp] theorem scheduleNext_gpio (t : Turn) (s : State) :
    (scheduleNext t s).gpio = s.gpio := rfl

@[simp] theorem scheduleNext_pinIn (t : Turn) (s : State) :
    (scheduleNext t s).pinIn = s.pinIn := rfl

@[simp] theorem scheduleNext_lineOut (t : Turn) (s : State) :
    (scheduleNext t s).lineOut = s.lineOut := rfl

@[simp] theorem scheduleNext_lineIn (t : Turn) (s : State) :
    (scheduleNext t s).lineIn = s.lineIn := rfl

@[simp] theorem scheduleNext_hostResp (t : Turn) (s : State) :
    (scheduleNext t s).hostResp = s.hostResp := rfl

@[simp] theorem scheduleNext_prodResp (t : Turn) (s : State) :
    (scheduleNext t s).prodResp = s.prodResp := rfl

@[simp] theorem scheduleNext_consResp (t : Turn) (s : State) :
    (scheduleNext t s).consResp = s.consResp := rfl

@[simp] theorem scheduleNext_consValue (t : Turn) (s : State) :
    (scheduleNext t s).consValue = s.consValue := rfl

@[simp] theorem scheduleNext_draws (t : Turn) (s : State) :
    (scheduleNext t s).draws = s.draws := rfl

@[simp] theorem scheduleNext_sched (t : Turn) (s : State) :
    (scheduleNext t s).sched = t :: s.sched := rfl

@[simp] theorem scheduleNext_agent (t : Turn) (s : State) :
    (scheduleNext t s).agent = s.agent := rfl

@[simp] theorem scheduleNext_steps (t : Turn) (s : State) :
    (scheduleNext t s).steps = s.steps := rfl

@[simp] theorem scheduleNext_above (t : Turn) (s : State) :
    (scheduleNext t s).above = s.above := rfl

/-! ### `latchReceived` -/

@[simp] theorem latchReceived_cfg (v : Byte) (s : State) : (latchReceived v s).cfg = s.cfg := by
  unfold latchReceived; split <;> rfl

@[simp] theorem latchReceived_txb (v : Byte) (s : State) : (latchReceived v s).txb = s.txb := by
  unfold latchReceived; split <;> rfl

@[simp] theorem latchReceived_rxb (v : Byte) (s : State) : (latchReceived v s).rxb = s.rxb := by
  unfold latchReceived; split <;> rfl

@[simp] theorem latchReceived_rb (v : Byte) (s : State) : (latchReceived v s).rb = s.rb := by
  unfold latchReceived; split <;> rfl

@[simp] theorem latchReceived_prod (v : Byte) (s : State) : (latchReceived v s).prod = s.prod := by
  unfold latchReceived; split <;> rfl

@[simp] theorem latchReceived_cons (v : Byte) (s : State) : (latchReceived v s).cons = s.cons := by
  unfold latchReceived; split <;> rfl

@[simp] theorem latchReceived_baudDiv (v : Byte) (s : State) : (latchReceived v s).baudDiv = s.baudDiv := by
  unfold latchReceived; split <;> rfl

@[simp] theorem latchReceived_rxEn (v : Byte) (s : State) : (latchReceived v s).rxEn = s.rxEn := by
  unfold latchReceived; split <;> rfl

@[simp] theorem latchReceived_txEn (v : Byte) (s : State) : (latchReceived v s).txEn = s.txEn := by
  unfold latchReceived; split <;> rfl

@[simp] theorem latchReceived_txr (v : Byte) (s : State) : (latchReceived v s).txr = s.txr := by
  unfold latchReceived; split <;> rfl

@[simp] theorem latchReceived_txd (v : Byte) (s : State) : (latchReceived v s).txd = s.txd := by
  unfold latchReceived; split <;> rfl

@[simp] theorem latchReceived_rxcIe (v : Byte) (s : State) : (latchReceived v s).rxcIe = s.rxcIe := by
  unfold latchReceived; split <;> rfl

@[simp] theorem latchReceived_txrIe (v : Byte) (s : State) : (latchReceived v s).txrIe = s.txrIe := by
  unfold latchReceived; split <;> rfl

@[simp] theorem latchReceived_st (v : Byte) (s : State) : (latchReceived v s).st = s.st := by
  unfold latchReceived; split <;> rfl

@[simp] theorem latchReceived_frame (v : Byte) (s : State) : (latchReceived v s).frame = s.frame := by
  unfold latchReceived; split <;> rfl

@[simp] theorem latchReceived_gie (v : Byte) (s : State) : (latchReceived v s).gie = s.gie := by
  unfold latchReceived; split <;> rfl

@[simp] theorem latchReceived_isr (v : Byte) (s : State) : (latchReceived v s).isr = s.isr := by
  unfold latchReceived; split <;> rfl

@[simp] theorem latchReceived_main (v : Byte) (s : State) : (latchReceived v s).main = s.main := by
  unfold latchReceived; split <;> rfl

@[simp] theorem latchReceived_gpio (v : Byte) (s : State) : (latchReceived v s).gpio = s.gpio := by
  unfold latchReceived; split <;> rfl

@[simp] theorem latchReceived_pinIn (v : Byte) (s : State) : (latchReceived v s).pinIn = s.pinIn := by
  unfold latchReceived; split <;> rfl

@[simp] theorem latchReceived_lineOut (v : Byte) (s : State) : (latchReceived v s).lineOut = s.lineOut := by
  unfold latchReceived; split <;> rfl

@[simp] theorem latchReceived_hostResp (v : Byte) (s : State) : (latchReceived v s).hostResp = s.hostResp := by
  unfold latchReceived; split <;> rfl

@[simp] theorem latchReceived_prodResp (v : Byte) (s : State) : (latchReceived v s).prodResp = s.prodResp := by
  unfold latchReceived; split <;> rfl

@[simp] theorem latchReceived_consResp (v : Byte) (s : State) : (latchReceived v s).consResp = s.consResp := by
  unfold latchReceived; split <;> rfl

@[simp] theorem latchReceived_consValue (v : Byte) (s : State) : (latchReceived v s).consValue = s.consValue := by
  unfold latchReceived; split <;> rfl

@[simp] theorem latchReceived_sched (v : Byte) (s : State) : (latchReceived v s).sched = s.sched := by
  unfold latchReceived; split <;> rfl

@[simp] theorem latchReceived_agent (v : Byte) (s : State) : (latchReceived v s).agent = s.agent := by
  unfold latchReceived; split <;> rfl

@[simp] theorem latchReceived_steps (v : Byte) (s : State) : (latchReceived v s).steps = s.steps := by
  unfold latchReceived; split <;> rfl

@[simp] theorem latchReceived_above (v : Byte) (s : State) : (latchReceived v s).above = s.above := by
  unfold latchReceived; split <;> rfl

/-! ### `samplePins` -/

@[simp] theorem samplePins_cfg (s : State) : (samplePins s).2.cfg = s.cfg := by
  unfold samplePins; split <;> rfl

@[simp] theorem samplePins_txb (s : State) : (samplePins s).2.txb = s.txb := by
  unfold samplePins; split <;> rfl

@[simp] theorem samplePins_rxb (s : State) : (samplePins s).2.rxb = s.rxb := by
  unfold samplePins; split <;> rfl

@[simp] theorem samplePins_rb (s : State) : (samplePins s).2.rb = s.rb := by
  unfold samplePins; split <;> rfl

@[simp] theorem samplePins_prod (s : State) : (samplePins s).2.prod = s.prod := by
  unfold samplePins; split <;> rfl

@[simp] theorem samplePins_cons (s : State) : (samplePins s).2.cons = s.cons := by
  unfold samplePins; split <;> rfl

@[simp] theorem samplePins_baudDiv (s : State) : (samplePins s).2.baudDiv = s.baudDiv := by
  unfold samplePins; split <;> rfl

@[simp] theorem samplePins_rxEn (s : State) : (samplePins s).2.rxEn = s.rxEn := by
  unfold samplePins; split <;> rfl

@[simp] theorem samplePins_txEn (s : State) : (samplePins s).2.txEn = s.txEn := by
  unfold samplePins; split <;> rfl

@[simp] theorem samplePins_rxc (s : State) : (samplePins s).2.rxc = s.rxc := by
  unfold samplePins; split <;> rfl

@[simp] theorem samplePins_rxd (s : State) : (samplePins s).2.rxd = s.rxd := by
  unfold samplePins; split <;> rfl

@[simp] theorem samplePins_txr (s : State) : (samplePins s).2.txr = s.txr := by
  unfold samplePins; split <;> rfl

@[simp] theorem samplePins_txd (s : State) : (samplePins s).2.txd = s.txd := by
  unfold samplePins; split <;> rfl

@[simp] theorem samplePins_rxcIe (s : State) : (samplePins s).2.rxcIe = s.rxcIe := by
  unfold samplePins; split <;> rfl

@[simp] theorem samplePins_txrIe (s : State) : (samplePins s).2.txrIe = s.txrIe := by
  unfold samplePins; split <;> rfl

@[simp] theorem samplePins_st (s : State) : (samplePins s).2.st = s.st := by
  unfold samplePins; split <;> rfl

@[simp] theorem samplePins_frame (s : State) : (samplePins s).2.frame = s.frame := by
  unfold samplePins; split <;> rfl

@[simp] theorem samplePins_gie (s : State) : (samplePins s).2.gie = s.gie := by
  unfold samplePins; split <;> rfl

@[simp] theorem samplePins_isr (s : State) : (samplePins s).2.isr = s.isr := by
  unfold samplePins; split <;> rfl

@[simp] theorem samplePins_main (s : State) : (samplePins s).2.main = s.main := by
  unfold samplePins; split <;> rfl

@[simp] theorem samplePins_gpio (s : State) : (samplePins s).2.gpio = s.gpio := by
  unfold samplePins; split <;> rfl

@[simp] theorem samplePins_lineOut (s : State) : (samplePins s).2.lineOut = s.lineOut := by
  unfold samplePins; split <;> rfl

@[simp] theorem samplePins_lineIn (s : State) : (samplePins s).2.lineIn = s.lineIn := by
  unfold samplePins; split <;> rfl

@[simp] theorem samplePins_hostResp (s : State) : (samplePins s).2.hostResp = s.hostResp := by
  unfold samplePins; split <;> rfl

@[simp] theorem samplePins_prodResp (s : State) : (samplePins s).2.prodResp = s.prodResp := by
  unfold samplePins; split <;> rfl

@[simp] theorem samplePins_consResp (s : State) : (samplePins s).2.consResp = s.consResp := by
  unfold samplePins; split <;> rfl

@[simp] theorem samplePins_consValue (s : State) : (samplePins s).2.consValue = s.consValue := by
  unfold samplePins; split <;> rfl

@[simp] theorem samplePins_sched (s : State) : (samplePins s).2.sched = s.sched := by
  unfold samplePins; split <;> rfl

@[simp] theorem samplePins_agent (s : State) : (samplePins s).2.agent = s.agent := by
  unfold samplePins; split <;> rfl

@[simp] theorem samplePins_steps (s : State) : (samplePins s).2.steps = s.steps := by
  unfold samplePins; split <;> rfl

@[simp] theorem samplePins_above (s : State) : (samplePins s).2.above = s.above := by
  unfold samplePins; split <;> rfl

@[simp] theorem latchReceived_rxc (v : Byte) (s : State) : (latchReceived v s).rxc = true := by
  unfold latchReceived; split <;> rfl

@[simp] theorem latchReceived_lineIn (v : Byte) (s : State) :
    (latchReceived v s).lineIn = s.lineIn ++ [v] := by
  unfold latchReceived; split <;> rfl

end Sys2Proof.Machine
end

