-- ==== Sys2Proof/Laws/Moves.lean ====
section
/-! SUPPORT. Everything a step can do, said once: whatever exec answers is a chain of atomic moves, each
one micro-step of one agent, a handler entry, a line event, a start of an operation or a response, and
each move says which agent makes it under which operation word. An invariant is proved move by move. -/

namespace Sys2Proof.Machine

open Sys2Proof

/-! ### What the micro-steps write -/

/-- A micro-step of MAIN writes no field but those listed. -/
theorem mainMicro_frame (s : State) :
    mainMicro s = { s with
      txb := (mainMicro s).txb, rxb := (mainMicro s).rxb, baudDiv := (mainMicro s).baudDiv
      rxEn := (mainMicro s).rxEn, txEn := (mainMicro s).txEn, rxcIe := (mainMicro s).rxcIe
      txrIe := (mainMicro s).txrIe, st := (mainMicro s).st, frame := (mainMicro s).frame
      gie := (mainMicro s).gie, main := (mainMicro s).main, gpio := (mainMicro s).gpio
      pinIn := (mainMicro s).pinIn, hostResp := (mainMicro s).hostResp
      draws := (mainMicro s).draws } := by
  unfold mainMicro
  split
  · rfl
  · rename_i pos _; cases pos <;> rfl
  · rename_i pos _
    cases pos with
    | w4 p => cases p <;> rfl
    | _ => rfl
  · rename_i pos _; cases pos <;> rfl
  · rename_i pos _; cases pos <;> rfl
  · rfl
  · rfl
  · rfl
  · unfold getMicro samplePins; split <;> rfl

/-- A micro-step of a handler writes no field but those listed. -/
theorem isrMicro_frame (s : State) :
    isrMicro s = { s with
      txb := (isrMicro s).txb, rxb := (isrMicro s).rxb, rxc := (isrMicro s).rxc
      txr := (isrMicro s).txr, txd := (isrMicro s).txd, txrIe := (isrMicro s).txrIe
      isr := (isrMicro s).isr } := by
  unfold isrMicro
  split
  · rfl
  · rename_i pos _; cases pos <;> rfl
  · rename_i pos _; cases pos <;> rfl

/-- A micro-step of port P writes no field but those listed. -/
theorem prodMicro_frame (s : State) :
    prodMicro s = { s with
      rb := (prodMicro s).rb, prod := (prodMicro s).prod, prodResp := (prodMicro s).prodResp } := by
  unfold prodMicro
  split
  · rfl
  · split <;> rfl
  · rfl

/-- A micro-step of port C writes no field but those listed. -/
theorem consMicro_frame (s : State) :
    consMicro s = { s with
      rb := (consMicro s).rb, cons := (consMicro s).cons, consResp := (consMicro s).consResp
      consValue := (consMicro s).consValue } := by
  unfold consMicro
  split
  · rfl
  · split <;> rfl
  · rfl

@[simp] theorem mainMicro_isr (s : State) : (mainMicro s).isr = s.isr := by rw [mainMicro_frame]
@[simp] theorem mainMicro_agent (s : State) : (mainMicro s).agent = s.agent := by rw [mainMicro_frame]
@[simp] theorem mainMicro_cfg (s : State) : (mainMicro s).cfg = s.cfg := by rw [mainMicro_frame]
@[simp] theorem isrMicro_main (s : State) : (isrMicro s).main = s.main := by rw [isrMicro_frame]
@[simp] theorem isrMicro_agent (s : State) : (isrMicro s).agent = s.agent := by rw [isrMicro_frame]
@[simp] theorem isrMicro_cfg (s : State) : (isrMicro s).cfg = s.cfg := by rw [isrMicro_frame]
@[simp] theorem prodMicro_agent (s : State) : (prodMicro s).agent = s.agent := by rw [prodMicro_frame]
@[simp] theorem prodMicro_above (s : State) : (prodMicro s).above = s.above := by rw [prodMicro_frame]
@[simp] theorem prodMicro_cfg (s : State) : (prodMicro s).cfg = s.cfg := by rw [prodMicro_frame]
@[simp] theorem consMicro_agent (s : State) : (consMicro s).agent = s.agent := by rw [consMicro_frame]
@[simp] theorem consMicro_cfg (s : State) : (consMicro s).cfg = s.cfg := by rw [consMicro_frame]

@[simp] theorem noIsr_mainMicro (s : State) : noIsr (mainMicro s) = noIsr s := by
  simp [noIsr]

theorem noIsr_eq (s : State) : noIsr s = true ↔ s.isr = .none := by
  unfold noIsr; split <;> simp_all

theorem mainIdle_eq (s : State) : mainIdle s = true ↔ s.main = .idle := by
  unfold mainIdle; split <;> simp_all

theorem prodIdle_eq (s : State) : prodIdle s = true ↔ s.prod = .idle := by
  unfold prodIdle; split <;> simp_all

theorem consIdle_eq (s : State) : consIdle s = true ↔ s.cons = .idle := by
  unfold consIdle; split <;> simp_all

/-- A turn's micro-steps end with MAIN's operation. -/
theorem burst_main_of_idle {s : State} (h : s.main = .idle) (k : Nat) :
    burst mainIdle mainMicro k s = s :=
  burst_of_stop ((mainIdle_eq s).2 h) k

/-- A turn's micro-steps end with the handler. -/
theorem burst_isr_of_none {s : State} (h : s.isr = .none) (k : Nat) :
    burst noIsr isrMicro k s = s :=
  burst_of_stop ((noIsr_eq s).2 h) k

/-- A turn's micro-steps end with port P's operation. -/
theorem burst_prod_of_idle {s : State} (h : s.prod = .idle) (k : Nat) :
    burst prodIdle prodMicro k s = s :=
  burst_of_stop ((prodIdle_eq s).2 h) k

/-- A turn's micro-steps end with port C's operation. -/
theorem burst_cons_of_idle {s : State} (h : s.cons = .idle) (k : Nat) :
    burst consIdle consMicro k s = s :=
  burst_of_stop ((consIdle_eq s).2 h) k

theorem inFlight_eq_none (s : State) : inFlight s = none ↔ mainIdle s = true := by
  unfold inFlight mainIdle; split <;> simp_all

/-! ### Who performs a micro-step -/

/-- MAIN has the turn, no handler is in service, and the word is its operation in flight or the label of
the ring primitive in flight inside it. -/
structure MainBy (i : Option Instr) (s : State) : Prop where
  agent : s.agent = .main
  unfrozen : noIsr s = true
  op : (i = inFlight s ∧ mainIdle s = false) ∨ (∃ v, i = some (.enq .tx v) ∧ mainEnqueuing s = some v)
    ∨ (i = some (.deq .rx) ∧ mainDequeuing s = true)
    ∨ (∃ sel, i = some (.size sel) ∧ mainSizing s = some sel)

/-- A handler has the turn and the word is its own label, or that of the ring primitive in flight inside
it. -/
inductive IsrBy (s : State) : Option Instr → Prop where
  | irqrx (ha : s.agent = .hrx) (pos : RxAt) (h : s.isr = .rx pos) : IsrBy s (some .irqrx)
  | irqtx (ha : s.agent = .htx) (pos : TxAt) (h : s.isr = .tx pos) : IsrBy s (some .irqtx)
  | enq (v : Byte) (ha : s.agent = .hrx) (h : rxEnqueuing s = some v) : IsrBy s (some (.enq .rx v))
  | deq (ha : s.agent = .htx) (h : txDequeuing s = true) : IsrBy s (some (.deq .tx))

/-- Port P has the turn and the word is its operation in flight. -/
inductive ProdBy (s : State) : Option Instr → Prop where
  | enq (val : Byte) (e : EnqAt) (ha : s.agent = .prod) (h : s.prod = .enq (enqElement s val) e) :
      ProdBy s (some (.enq .tx val))
  | size (ha : s.agent = .prod) (h : s.prod = .size) : ProdBy s (some (.size .tx))

/-- Port C has the turn and the word is its operation in flight. -/
inductive ConsBy (s : State) : Option Instr → Prop where
  | deq (d : DeqAt Nat) (ha : s.agent = .cons) (h : s.cons = .deq d) : ConsBy s (some (.deq .tx))
  | size (ha : s.agent = .cons) (h : s.cons = .size) : ConsBy s (some (.size .tx))

/-- The first position of a request port P accepts. -/
inductive ProdStart (s : State) : Instr → ProdOp → Prop where
  | enq (val : Byte) : ProdStart s (.enq .tx val) (.enq (enqElement s val) .e1)
  | size : ProdStart s (.size .tx) .size

/-- The first position of a request port C accepts. -/
inductive ConsStart : Instr → ConsOp → Prop where
  | deq : ConsStart (.deq .tx) (.deq .d1)
  | size : ConsStart (.size .tx) .size

/-- The first position of an operation of port H, with what its start asks of the state. -/
inductive MayStart (s : State) : Instr → Main → Prop where
  | init (baud : BitVec 24) (h : baud ≠ 0#24) : MayStart s (.init baud) (.init baud .i1)
  | write (byte : Byte) (h : s.st = .ready) : MayStart s (.write byte) (.write byte .w1)
  | read (h : s.st = .ready) : MayStart s .read (.read (.rd1 .d1))
  | rmw (op : RmwOp) (pin : Byte) (h : pinPort pin < s.cfg.nports) :
      MayStart s (rmwInstr op pin) (.rmw op pin .p1)
  | tsize (sel : Sel) : MayStart s (.tsize sel) (.tsize sel)
  | gien : MayStart s .gien .gien
  | gdis : MayStart s .gdis .gdis
  | get (pin : Byte) (h : pinPort pin < s.cfg.nports) : MayStart s (.get pin) (.get pin)

/-- One atomic move of the block, under the operation word `i` (`none`: an illegal word). -/
inductive Move : Option Instr → State → State → Prop where
  | illegalHost (i : Option Instr) (s : State) (ha : s.agent = .main) (hi : noIsr s = true)
      (hm : mainIdle s = true) : Move i s (answerHost .illegal 0#8 s)
  | illegalProd (i : Option Instr) (s : State) (ha : s.agent = .prod) (hp : prodIdle s = true) :
      Move i s (answerProd .illegal 0#8 s)
  | illegalCons (i : Option Instr) (s : State) (ha : s.agent = .cons) (hc : consIdle s = true) :
      Move i s (answerCons .illegal 0#8 s)
  | presentMain (i : Instr) (s : State) (first : Main) (ha : s.agent = .main) (hi : noIsr s = true)
      (hm : mainIdle s = true) (h : MayStart s i first) : Move (some i) s (presentMain first s)
  | mainMicro (i : Option Instr) (s : State) (h : MainBy i s) : Move i s (mainMicro s)
  | enterRx (s : State) (ha : s.agent = .hrx) (h : rxMayEnter s = true) :
      Move (some .irqrx) s (enterHandler (.rx .h1) s)
  | enterTx (s : State) (ha : s.agent = .htx) (h : txMayEnter s = true) :
      Move (some .irqtx) s (enterHandler (.tx (.t1 .d1)) s)
  | isrMicro (i : Option Instr) (s : State) (h : IsrBy s i) : Move i s (isrMicro s)
  | lrx (s : State) (val : Byte) (ha : s.agent = .line) (h : s.rxEn = true) :
      Move (some (.lrx val)) s (latchReceived val s)
  | ltx (s : State) (ha : s.agent = .line) (h : s.txEn = true) (hr : s.txr = false) :
      Move (some .ltx) s (takeTransmitted s)
  | presentProd (i : Instr) (s : State) (first : ProdOp) (ha : s.agent = .prod)
      (hp : prodIdle s = true) (h : ProdStart s i first) : Move (some i) s (presentProd first s)
  | prodMicro (i : Option Instr) (s : State) (h : ProdBy s i) : Move i s (prodMicro s)
  | presentCons (i : Instr) (s : State) (first : ConsOp) (ha : s.agent = .cons)
      (hc : consIdle s = true) (h : ConsStart i first) : Move (some i) s (presentCons first s)
  | consMicro (i : Option Instr) (s : State) (h : ConsBy s i) : Move i s (consMicro s)

/-- A chain of moves under one word. -/
abbrev Moves (i : Option Instr) : State → State → Prop := Relation.ReflTransGen (Move i)

/-- A burst whose every micro-step is a move is a chain of moves. -/
theorem burst_moves {i : Option Instr} {stop : State → Bool} {micro : State → State}
    {G : State → Prop} (go : ∀ s, stop s = false → G s → Move i s (micro s) ∧ G (micro s)) (k : Nat)
    {s : State} (h : G s) : Moves i s (burst stop micro k s) := by
  induction k generalizing s with
  | zero => exact .refl
  | succ k ih =>
    cases hs : stop s with
    | true => simpa [hs] using .refl
    | false =>
      rw [burst_of_go hs]
      exact .head (go s hs h).1 (ih (go s hs h).2)

/-! ### What stays in flight -/

/-- MAIN's operation stays the same until it ends. -/
theorem inFlight_mainMicro {s : State} {i : Instr} (h : inFlight s = some i) :
    inFlight (mainMicro s) = some i ∨ mainIdle (mainMicro s) = true := by
  unfold inFlight at h
  split at h <;> rename_i hm <;> cases h <;> simp only [mainMicro, hm]
  · rename_i baud pos; cases pos <;> first | exact .inr rfl | exact .inl rfl
  · rename_i pos
    cases pos with
    | w4 p => cases p <;> first | exact .inr rfl | exact .inl rfl
    | _ => exact .inl rfl
  · rename_i pos; cases pos <;> first | exact .inr rfl | exact .inl rfl
  · rename_i pos; cases pos <;> first | exact .inr rfl | exact .inl rfl
  all_goals exact .inr rfl

/-- TSIZE's S1 is its one micro-step. -/
theorem mainSizing_mainMicro {s : State} {sel : Sel} (h : mainSizing s = some sel) :
    mainSizing (mainMicro s) = none := by
  unfold mainSizing at h
  split at h <;> rename_i hm <;> cases h
  simp [mainMicro, hm, mainSizing]

/-- W2 enqueues the same byte until its ENQ ends. -/
theorem mainEnqueuing_mainMicro {s : State} {v : Byte} (h : mainEnqueuing s = some v) :
    mainEnqueuing (mainMicro s) = some v ∨ mainEnqueuing (mainMicro s) = none := by
  unfold mainEnqueuing at h
  split at h <;> simp_all [mainMicro, writeMicro, mainEnqueuing]
  rename_i cur lf e _
  cases enqMicro s.cfg.nTx v e s.txb |>.2 <;> simp [afterEnq]

/-- H2 enqueues the same byte until its ENQ ends. -/
theorem rxEnqueuing_isrMicro {s : State} {v : Byte} (h : rxEnqueuing s = some v) :
    rxEnqueuing (isrMicro s) = some v ∨ rxEnqueuing (isrMicro s) = none := by
  unfold rxEnqueuing at h
  split at h <;> simp_all [isrMicro, rxMicro, rxEnqueuing]
  rename_i e _
  cases enqMicro s.cfg.nRx v e s.rxb |>.2 <;> simp [afterEnqRx]

/-- HRX stays in service until it returns. -/
theorem isrMicro_rx {s : State} {pos : RxAt} (h : s.isr = .rx pos) :
    (∃ pos, (isrMicro s).isr = .rx pos) ∨ noIsr (isrMicro s) = true := by
  cases pos <;> simp [isrMicro, h, rxMicro, returnFromHandler, noIsr]

/-- HTX stays in service until it returns. -/
theorem isrMicro_tx {s : State} {pos : TxAt} (h : s.isr = .tx pos) :
    (∃ pos, (isrMicro s).isr = .tx pos) ∨ noIsr (isrMicro s) = true := by
  cases pos <;> simp [isrMicro, h, txMicro, returnFromHandler, noIsr]

/-- Port P's operation stays the same until it ends. -/
theorem ProdBy.prodMicro {s : State} {i : Option Instr} (h : ProdBy s i) :
    ProdBy (prodMicro s) i ∨ prodIdle (prodMicro s) = true := by
  cases h with
  | enq val e ha h =>
    have key : (∃ e, (Machine.prodMicro s).prod = .enq (enqElement s val) e)
        ∨ prodIdle (Machine.prodMicro s) = true := by
      unfold Machine.prodMicro
      simp only [h]
      split <;> simp [prodIdle]
    obtain ⟨e, he⟩ | hn := key
    · exact .inl (.enq val e (by simpa using ha) (by simpa [enqElement] using he))
    · exact .inr hn
  | size ha h => exact .inr (by simp [Machine.prodMicro, h, prodIdle])

/-- Port C's operation stays the same until it ends. -/
theorem ConsBy.consMicro {s : State} {i : Option Instr} (h : ConsBy s i) :
    ConsBy (consMicro s) i ∨ consIdle (consMicro s) = true := by
  cases h with
  | deq d ha h =>
    have key : (∃ d, (Machine.consMicro s).cons = .deq d) ∨ consIdle (Machine.consMicro s) = true := by
      unfold Machine.consMicro
      simp only [h]
      split <;> simp [consIdle]
    obtain ⟨d, hd⟩ | hn := key
    · exact .inl (.deq d (by simpa using ha) hd)
    · exact .inr hn
  | size ha h => exact .inr (by simp [Machine.consMicro, h, consIdle])

/-! ### The bursts -/

theorem runMain_moves {i : Instr} (k : Nat) {s : State} (ha : s.agent = .main) (hi : noIsr s = true)
    (hf : inFlight s = some i) : Moves (some i) s (runMain k s) := by
  refine burst_moves (G := fun s => s.agent = .main ∧ noIsr s = true
    ∧ (inFlight s = some i ∨ mainIdle s = true)) (fun s hs h => ?_) k ⟨ha, hi, .inl hf⟩
  obtain ⟨ha, hi, hf | hm⟩ := h
  · exact ⟨.mainMicro _ s ⟨ha, hi, .inl ⟨hf.symm, hs⟩⟩, by simpa using ha, by simpa using hi,
      inFlight_mainMicro hf⟩
  · simp [hm] at hs

theorem runRx_moves (k : Nat) {s : State} {pos : RxAt} (ha : s.agent = .hrx) (h : s.isr = .rx pos) :
    Moves (some .irqrx) s (runIsr k s) := by
  refine burst_moves (G := fun s => s.agent = .hrx ∧ ((∃ pos, s.isr = .rx pos) ∨ noIsr s = true))
    (fun s hs h => ?_) k ⟨ha, .inl ⟨pos, h⟩⟩
  obtain ⟨ha, ⟨pos, h⟩ | hn⟩ := h
  · exact ⟨.isrMicro _ s (.irqrx ha pos h), by simpa using ha, isrMicro_rx h⟩
  · simp [hn] at hs

theorem runTx_moves (k : Nat) {s : State} {pos : TxAt} (ha : s.agent = .htx) (h : s.isr = .tx pos) :
    Moves (some .irqtx) s (runIsr k s) := by
  refine burst_moves (G := fun s => s.agent = .htx ∧ ((∃ pos, s.isr = .tx pos) ∨ noIsr s = true))
    (fun s hs h => ?_) k ⟨ha, .inl ⟨pos, h⟩⟩
  obtain ⟨ha, ⟨pos, h⟩ | hn⟩ := h
  · exact ⟨.isrMicro _ s (.irqtx ha pos h), by simpa using ha, isrMicro_tx h⟩
  · simp [hn] at hs

theorem runProd_moves {i : Option Instr} (k : Nat) {s : State} (h : ProdBy s i) :
    Moves i s (runProd k s) := by
  refine burst_moves (G := fun s => ProdBy s i ∨ prodIdle s = true) (fun s hs h => ?_) k (.inl h)
  obtain h | hn := h
  · exact ⟨.prodMicro i s h, h.prodMicro⟩
  · simp [hn] at hs

theorem runCons_moves {i : Option Instr} (k : Nat) {s : State} (h : ConsBy s i) :
    Moves i s (runCons k s) := by
  refine burst_moves (G := fun s => ConsBy s i ∨ consIdle s = true) (fun s hs h => ?_) k (.inl h)
  obtain h | hn := h
  · exact ⟨.consMicro i s h, h.consMicro⟩
  · simp [hn] at hs

/-! ### The operations -/

/-- A word that is not accepted moves nothing but a response. -/
theorem answerIllegal_moves {i : Option Instr} {why : Refusal} {s t : State}
    (h : answerIllegal why s = .next t) : Moves i s t := by
  unfold answerIllegal at h
  split at h <;> rename_i ha
  · split at h
    · rename_i hi
      split at h
      · rename_i hm; cases h; exact .single (.illegalHost _ s ha hi hm)
      · cases h
    · cases h; exact .refl
  · split at h
    · rename_i hp; cases h; exact .single (.illegalProd _ s ha hp)
    · cases h
  · split at h
    · rename_i hc; cases h; exact .single (.illegalCons _ s ha hc)
    · cases h
  all_goals cases h

theorem MayStart.inFlight {s : State} {i : Instr} {first : Main} (h : MayStart s i first) :
    inFlight (presentMain first s) = some i := by
  cases h <;> rfl

/-- An operation of port H is presented and moves as MAIN does, or moves nothing but a response. -/
theorem byMain_moves {i : Instr} {first : Main} {bar : Option Refusal} {s t : State}
    (hstart : bar = none → MayStart s i first) (h : byMain i first bar s = .next t) :
    Moves (some i) s t := by
  unfold byMain at h
  split at h <;> rename_i ha
  · split at h
    · rename_i hi
      split at h
      · rename_i hf
        have hm := hstart rfl
        cases h
        exact .head (.presentMain i s first ha hi ((inFlight_eq_none s).1 hf) hm)
          (runMain_moves _ ha hi hm.inFlight)
      · cases h
      · rename_i hf
        split at h
        · rename_i hj; cases h; exact runMain_moves _ ha hi (hj ▸ hf)
        · cases h
    · cases h; exact .refl
  all_goals exact answerIllegal_moves h

theorem ready_of_bar {s : State} (h : lifecycleBar s = none) : s.st = .ready := by
  unfold lifecycleBar at h; split at h <;> simp_all

/-- A pin that meets the precondition is one of a present port. -/
theorem port_of_bar {c : Config} {pin : Byte} (h : pinBar c pin = none) : pinPort pin < c.nports := by
  unfold pinBar at h
  split at h
  · cases h
  · split at h
    · cases h
    · omega

theorem byRmw_moves {op : RmwOp} {pin : Byte} {s t : State} (h : byRmw op pin s = .next t) :
    Moves (some (rmwInstr op pin)) s t :=
  byMain_moves (fun hb => .rmw op pin (port_of_bar hb)) h

/-- The operation port P has in flight is the one its first position says. -/
theorem ProdStart.by_first {s : State} {i : Instr} {first : ProdOp} (h : ProdStart s i first)
    (ha : s.agent = .prod) (hf : s.prod.first = first) : ProdBy s (some i) := by
  cases h with
  | enq val =>
    cases hp : s.prod with
    | enq v e => rw [hp] at hf; cases hf; exact .enq val e ha hp
    | idle | size => simp [hp, ProdOp.first] at hf
  | size =>
    cases hp : s.prod with
    | size => exact .size ha hp
    | idle | enq => simp [hp, ProdOp.first] at hf

/-- The operation port C has in flight is the one its first position says. -/
theorem ConsStart.by_first {s : State} {i : Instr} {first : ConsOp} (h : ConsStart i first)
    (ha : s.agent = .cons) (hf : s.cons.first = first) : ConsBy s (some i) := by
  cases h with
  | deq =>
    cases hc : s.cons with
    | deq d => exact .deq d ha hc
    | idle | size => simp [hc, ConsOp.first] at hf
  | size =>
    cases hc : s.cons with
    | size => exact .size ha hc
    | idle | deq => simp [hc, ConsOp.first] at hf

theorem ProdStart.presented {s : State} {i : Instr} {first : ProdOp} (h : ProdStart s i first)
    (ha : s.agent = .prod) : ProdBy (presentProd first s) (some i) := by
  cases h with
  | enq val => exact .enq val .e1 ha rfl
  | size => exact .size ha rfl

theorem ConsStart.presented {s : State} {i : Instr} {first : ConsOp} (h : ConsStart i first)
    (ha : s.agent = .cons) : ConsBy (presentCons first s) (some i) := by
  cases h with
  | deq => exact .deq .d1 ha rfl
  | size => exact .size ha rfl

/-- A request of port P is presented, or goes on. -/
theorem byProd_moves {i : Instr} {first : ProdOp} {s t : State} (ha : s.agent = .prod)
    (hs : ProdStart s i first) (h : byProd first s = .next t) : Moves (some i) s t := by
  unfold byProd at h
  split at h
  · rename_i hp
    cases h
    exact .head (.presentProd i s first ha hp hs) (runProd_moves _ (hs.presented ha))
  · split at h
    · rename_i hf; cases h; exact runProd_moves _ (hs.by_first ha hf)
    · cases h

/-- A request of port C is presented, or goes on. -/
theorem byCons_moves {i : Instr} {first : ConsOp} {s t : State} (ha : s.agent = .cons)
    (hs : ConsStart i first) (h : byCons first s = .next t) : Moves (some i) s t := by
  unfold byCons at h
  split at h
  · rename_i hc
    cases h
    exact .head (.presentCons i s first ha hc hs) (runCons_moves _ (hs.presented ha))
  · split at h
    · rename_i hf; cases h; exact runCons_moves _ (hs.by_first ha hf)
    · cases h

theorem execEnq_moves {sel : Sel} {val : Byte} {s t : State} (h : execEnq sel val s = .next t) :
    Moves (some (.enq sel val)) s t := by
  unfold execEnq at h
  split at h <;> rename_i ha
  · split at h
    · rename_i hsel; subst hsel
      exact byProd_moves ha (.enq val) h
    · exact answerIllegal_moves h
  · split at h
    · cases h
    · exact answerIllegal_moves h
  · split at h
    · rename_i hc
      cases h
      simp only [Bool.and_eq_true, beq_iff_eq] at hc
      obtain ⟨⟨hi, rfl⟩, hv⟩ := hc
      refine burst_moves (G := fun u => u.agent = .main ∧ noIsr u = true
        ∧ (mainEnqueuing u = some val ∨ mainEnqueuing u = none)) (fun u hu hG => ?_) _ ⟨ha, hi, .inl hv⟩
      obtain ⟨ha, hi, hv | hv⟩ := hG
      · exact ⟨.mainMicro _ u ⟨ha, hi, .inr (.inl ⟨val, rfl, hv⟩)⟩, by simpa using ha, by simpa using hi,
          mainEnqueuing_mainMicro hv⟩
      · simp [hv] at hu
    · exact answerIllegal_moves h
  · split at h
    · rename_i hc
      cases h
      simp only [Bool.and_eq_true, beq_iff_eq] at hc
      obtain ⟨rfl, hv⟩ := hc
      refine burst_moves (G := fun u => u.agent = .hrx
        ∧ (rxEnqueuing u = some val ∨ rxEnqueuing u = none)) (fun u hu hG => ?_) _ ⟨ha, .inl hv⟩
      obtain ⟨ha, hv | hv⟩ := hG
      · exact ⟨.isrMicro _ u (.enq val ha hv), by simpa using ha, rxEnqueuing_isrMicro hv⟩
      · simp [hv] at hu
    · exact answerIllegal_moves h
  all_goals exact answerIllegal_moves h

theorem execDeq_moves {sel : Sel} {s t : State} (h : execDeq sel s = .next t) :
    Moves (some (.deq sel)) s t := by
  unfold execDeq at h
  split at h <;> rename_i ha
  · split at h
    · rename_i hsel; subst hsel
      exact byCons_moves ha .deq h
    · exact answerIllegal_moves h
  · split at h
    · cases h
    · exact answerIllegal_moves h
  · split at h
    · rename_i hc
      cases h
      simp only [Bool.and_eq_true, beq_iff_eq] at hc
      obtain ⟨⟨hi, rfl⟩, -⟩ := hc
      refine burst_moves (G := fun u => u.agent = .main ∧ noIsr u = true) (fun u hu hG => ?_) _ ⟨ha, hi⟩
      exact ⟨.mainMicro _ u ⟨hG.1, hG.2, .inr (.inr (.inl ⟨rfl, by simpa using hu⟩))⟩,
        by simpa using hG.1, by simpa using hG.2⟩
    · exact answerIllegal_moves h
  · split at h
    · rename_i hc
      cases h
      simp only [Bool.and_eq_true, beq_iff_eq] at hc
      obtain ⟨rfl, -⟩ := hc
      refine burst_moves (G := fun u => u.agent = .htx) (fun u hu hG => ?_) _ ha
      exact ⟨.isrMicro _ u (.deq hG (by simpa using hu)), by simpa using hG⟩
    · exact answerIllegal_moves h
  all_goals exact answerIllegal_moves h

theorem execSize_moves {sel : Sel} {s t : State} (h : execSize sel s = .next t) :
    Moves (some (.size sel)) s t := by
  unfold execSize at h
  split at h <;> rename_i ha
  · split at h
    · rename_i hsel; subst hsel
      exact byProd_moves ha .size h
    · exact answerIllegal_moves h
  · split at h
    · rename_i hsel; subst hsel
      exact byCons_moves ha .size h
    · exact answerIllegal_moves h
  · split at h
    · rename_i hc
      cases h
      simp only [Bool.and_eq_true, beq_iff_eq] at hc
      refine burst_moves (G := fun u => u.agent = .main ∧ noIsr u = true
        ∧ (mainSizing u = some sel ∨ mainSizing u = none)) (fun u hu hG => ?_) _ ⟨ha, hc.1, .inl hc.2⟩
      obtain ⟨ha, hi, hv | hv⟩ := hG
      · exact ⟨.mainMicro _ u ⟨ha, hi, .inr (.inr (.inr ⟨sel, rfl, hv⟩))⟩, by simpa using ha,
          by simpa using hi, .inr (mainSizing_mainMicro hv)⟩
      · simp [hv] at hu
    · exact answerIllegal_moves h
  all_goals exact answerIllegal_moves h

theorem execIrqrx_moves {s t : State} (h : execIrqrx s = .next t) : Moves (some .irqrx) s t := by
  unfold execIrqrx at h
  split at h <;> rename_i ha
  · split at h <;> rename_i hs
    · split at h
      · rename_i he; cases h; exact .head (.enterRx s ha he) (runRx_moves _ ha rfl)
      · cases h; exact .refl
    · cases h; exact runRx_moves _ ha hs
    · cases h; exact .refl
  all_goals exact answerIllegal_moves h

theorem execIrqtx_moves {s t : State} (h : execIrqtx s = .next t) : Moves (some .irqtx) s t := by
  unfold execIrqtx at h
  split at h <;> rename_i ha
  · split at h <;> rename_i hs
    · split at h
      · rename_i he; cases h; exact .head (.enterTx s ha he) (runTx_moves _ ha rfl)
      · cases h; exact .refl
    · cases h; exact runTx_moves _ ha hs
    · cases h; exact .refl
  all_goals exact answerIllegal_moves h

theorem execLrx_moves {val : Byte} {s t : State} (h : execLrx val s = .next t) :
    Moves (some (.lrx val)) s t := by
  unfold execLrx at h
  split at h <;> rename_i ha
  · split at h
    · rename_i hr; cases h; exact .single (.lrx s val ha hr)
    · cases h; exact .refl
  all_goals exact answerIllegal_moves h

theorem execLtx_moves {s t : State} (h : execLtx s = .next t) : Moves (some .ltx) s t := by
  unfold execLtx at h
  split at h <;> rename_i ha
  · split at h
    · rename_i hr
      simp only [Bool.and_eq_true, Bool.not_eq_true'] at hr
      cases h; exact .single (.ltx s ha hr.1 hr.2)
    · cases h; exact .refl
  all_goals exact answerIllegal_moves h

theorem execInit_moves {baud : BitVec 24} {s t : State} (h : execInit baud s = .next t) :
    Moves (some (.init baud)) s t := by
  unfold execInit at h
  split at h
  · exact answerIllegal_moves h
  · rename_i hb; exact byMain_moves (fun _ => .init baud hb) h

theorem execWrite_moves {val : Byte} {s t : State} (h : execWrite val s = .next t) :
    Moves (some (.write val)) s t :=
  byMain_moves (fun hb => .write val (ready_of_bar hb)) h

theorem execRead_moves {s t : State} (h : execRead s = .next t) : Moves (some .read) s t :=
  byMain_moves (fun hb => .read (ready_of_bar hb)) h

theorem execTsize_moves {sel : Sel} {s t : State} (h : execTsize sel s = .next t) :
    Moves (some (.tsize sel)) s t :=
  byMain_moves (fun _ => .tsize sel) h

theorem execGien_moves {s t : State} (h : execGien s = .next t) : Moves (some .gien) s t :=
  byMain_moves (fun _ => .gien) h

theorem execGdis_moves {s t : State} (h : execGdis s = .next t) : Moves (some .gdis) s t :=
  byMain_moves (fun _ => .gdis) h

theorem execGet_moves {pin : Byte} {s t : State} (h : execGet pin s = .next t) :
    Moves (some (.get pin)) s t :=
  byMain_moves (fun hb => .get pin (port_of_bar hb)) h

/-- Whatever exec answers is a chain of moves. -/
theorem exec_moves {i : Instr} {s t : State} (h : exec i s = .next t) : Moves (some i) s t := by
  cases i with
  | enq sel val => exact execEnq_moves h
  | deq sel => exact execDeq_moves h
  | size sel => exact execSize_moves h
  | init baud => exact execInit_moves h
  | write val => exact execWrite_moves h
  | read => exact execRead_moves h
  | tsize sel => exact execTsize_moves h
  | gien => exact execGien_moves h
  | gdis => exact execGdis_moves h
  | irqrx => exact execIrqrx_moves h
  | irqtx => exact execIrqtx_moves h
  | lrx val => exact execLrx_moves h
  | ltx => exact execLtx_moves h
  | get pin => exact execGet_moves h
  | high pin => exact byRmw_moves (op := .high) h
  | low pin => exact byRmw_moves (op := .low) h
  | dirin pin => exact byRmw_moves (op := .dirin) h
  | dirout pin => exact byRmw_moves (op := .dirout) h
  | setv pin pval => exact byRmw_moves (op := .setv pval) h
  | toggle pin => exact byRmw_moves (op := .toggle) h

/-- The operation of the next turn's word, when there is one. -/
def nextInstr (s : State) : Option Instr :=
  match s.sched with
  | [] => none
  | t :: _ => (decode t.word).toInstr

/-- Whatever a step answers is the taking of a turn and then a chain of moves under its word, or
nothing. -/
theorem step_moves {s t : State} (h : step s = .next t) :
    t = s ∨ ∃ sched agent steps above,
      Moves (nextInstr s) { s with sched := sched, agent := agent, steps := steps, above := above } t := by
  unfold step nextTurn at h
  unfold nextInstr
  cases hsched : s.sched with
  | nil => simp only [hsched] at h; cases h; exact .inl rfl
  | cons turn rest =>
    simp only [hsched] at h
    refine .inr ⟨rest, turn.agent, turn.steps, turn.above, ?_⟩
    cases hd : decode turn.word with
    | instr i => simp only [hd, Decoded.toInstr] at h ⊢; exact exec_moves h
    | illegal why => simp only [hd, Decoded.toInstr] at h ⊢; exact answerIllegal_moves h

/-- What every move under a word keeps, a chain of them keeps. -/
theorem moves_keep {P : State → Prop} {i : Option Instr} (keep : ∀ a b, Move i a b → P a → P b)
    {s t : State} (h : Moves i s t) (hs : P s) : P t := by
  induction h with
  | refl => exact hs
  | tail _ hab ih => exact keep _ _ hab ih

/-- What every move under its word keeps, exec keeps. -/
theorem exec_keeps {P : State → Prop} {i : Instr} (keep : ∀ a b, Move (some i) a b → P a → P b)
    {s t : State} (h : exec i s = .next t) (hs : P s) : P t :=
  moves_keep keep (exec_moves h) hs

/-- What every move and the taking of a turn keep, a step keeps. -/
theorem step_keeps {P : State → Prop} (keep : ∀ i a b, Move i a b → P a → P b)
    (turn : ∀ s sched agent steps above, P s →
      P { s with sched := sched, agent := agent, steps := steps, above := above })
    {s t : State} (h : step s = .next t) (hs : P s) : P t := by
  obtain rfl | ⟨sched, agent, steps, above, hm⟩ := step_moves h
  · exact hs
  · exact moves_keep (keep _) hm (turn s sched agent steps above hs)

end Sys2Proof.Machine
end

