-- ==== Sys2Proof/Laws/PerInstr.lean ====
section
/-! SUPPORT. One law of the encoding for every operation: its word lies in its own row of the opcode map
(30_encoding.md R93). -/

namespace Sys2Proof.Laws.Row

open Sys2Proof

/-- The word of `i` selects the row of `i`. -/
def Statement (i : Instr) : Prop := encode i &&& opMask i = opMatch i

/-- A mask that keeps `unit` and `fn` and meets only zeros of `arg` leaves `unit` and `fn`. -/
theorem mask_word (u f : BitVec 4) (arg m : BitVec 24) (h : arg &&& m = 0#24) :
    ((u ++ f ++ arg : BitVec 32) &&& (0xFF#8 ++ m : BitVec 32)) = (u ++ f ++ 0#24 : BitVec 32) := by
  refine BitVec.eq_of_getLsbD_eq (fun k hk => ?_)
  have hbit := congrArg (fun x => x.getLsbD k) h
  simp only [BitVec.getLsbD_and, BitVec.getLsbD_append] at hbit ⊢
  by_cases hk2 : k < 24
  · simpa [hk2] using hbit
  · simp [hk2]
    interval_cases k <;> simp_all

/-- A byte alone in `arg`. -/
theorem byte_arg (v : Byte) : (0#16 ++ v : BitVec 24) &&& 0xFFFF00#24 = 0#24 := by
  refine BitVec.eq_of_getLsbD_eq (fun k hk => ?_)
  simp only [BitVec.getLsbD_and, BitVec.getLsbD_append]
  interval_cases k <;> simp

/-- `sel` and a byte in `arg`. -/
theorem sel_arg (b : BitVec 1) (v : Byte) : (0#15 ++ b ++ v : BitVec 24) &&& 0xFFFE00#24 = 0#24 := by
  refine BitVec.eq_of_getLsbD_eq (fun k hk => ?_)
  simp only [BitVec.getLsbD_and, BitVec.getLsbD_append]
  interval_cases k <;> simp

/-- Two bytes in `arg`. -/
theorem bytes_arg (w v : Byte) : (0#8 ++ w ++ v : BitVec 24) &&& 0xFF0000#24 = 0#24 := by
  refine BitVec.eq_of_getLsbD_eq (fun k hk => ?_)
  simp only [BitVec.getLsbD_and, BitVec.getLsbD_append]
  interval_cases k <;> simp

theorem enq (sel : Sel) (val : Byte) : Statement (.enq sel val) := 
  mask_word 1 0 _ _ (sel_arg (selBit sel) val)

theorem deq (sel : Sel) : Statement (.deq sel) := by
  unfold Statement; cases sel <;> decide

theorem size (sel : Sel) : Statement (.size sel) := by
  unfold Statement; cases sel <;> decide

theorem init (baud : BitVec 24) : Statement (.init baud) := 
  mask_word 2 0 _ 0 (BitVec.and_zero)

theorem write (val : Byte) : Statement (.write val) := 
  mask_word 2 1 _ _ (byte_arg val)

theorem read : Statement .read := by unfold Statement; decide

theorem tsize (sel : Sel) : Statement (.tsize sel) := by
  unfold Statement; cases sel <;> decide

theorem gien : Statement .gien := by unfold Statement; decide

theorem gdis : Statement .gdis := by unfold Statement; decide

theorem irqrx : Statement .irqrx := by unfold Statement; decide

theorem irqtx : Statement .irqtx := by unfold Statement; decide

theorem lrx (val : Byte) : Statement (.lrx val) := 
  mask_word 4 2 _ _ (byte_arg val)

theorem ltx : Statement .ltx := by unfold Statement; decide

theorem get (pin : Byte) : Statement (.get pin) := 
  mask_word 5 0 _ _ (byte_arg pin)

theorem high (pin : Byte) : Statement (.high pin) := 
  mask_word 5 1 _ _ (byte_arg pin)

theorem low (pin : Byte) : Statement (.low pin) := 
  mask_word 5 2 _ _ (byte_arg pin)

theorem dirin (pin : Byte) : Statement (.dirin pin) := 
  mask_word 5 3 _ _ (byte_arg pin)

theorem dirout (pin : Byte) : Statement (.dirout pin) := 
  mask_word 5 4 _ _ (byte_arg pin)

theorem setv (pin pval : Byte) : Statement (.setv pin pval) := 
  mask_word 5 5 _ _ (bytes_arg pval pin)

theorem toggle (pin : Byte) : Statement (.toggle pin) := 
  mask_word 5 6 _ _ (byte_arg pin)

end Sys2Proof.Laws.Row
end

