-- ==== Sys2Proof/Laws/Ring.lean ====
section
/-! SUPPORT. The ring primitives, one equation per micro-step (40_ring_buffer.md R121, R125), and the
arithmetic of cursors and counts. -/

namespace Sys2Proof.Machine

open Sys2Proof

section
variable {α : Type} {n : Nat} {v : α} {b : RingBuf α}

theorem enqMicro_e1_full (h : b.count.toNat = n) : enqMicro n v .e1 b = (b, .full) := by
  simp [enqMicro, h]

theorem enqMicro_e1_room (h : b.count.toNat ≠ n) : enqMicro n v .e1 b = (b, .more .e2) := by
  simp [enqMicro, h]

@[simp] theorem enqMicro_e2 : enqMicro n v .e2 b = (slotWrite b b.tail v, .more .e3) := rfl

@[simp] theorem enqMicro_e3 :
    enqMicro n v .e3 b = ({ b with tail := advance n b.tail }, .more .e4) := rfl

@[simp] theorem enqMicro_e4 : enqMicro n v .e4 b = ({ b with count := b.count + 1#8 }, .ok) := rfl

theorem deqMicro_d1_empty [Inhabited α] (h : b.count = 0#8) : deqMicro n .d1 b = (b, .empty) := by
  simp [deqMicro, h]

theorem deqMicro_d1_some [Inhabited α] (h : b.count ≠ 0#8) :
    deqMicro n .d1 b = (b, .more .d2) := by
  simp [deqMicro, h]

@[simp] theorem deqMicro_d2 [Inhabited α] :
    deqMicro n .d2 b = (b, .more (.d3 (slotRead b b.head))) := rfl

@[simp] theorem deqMicro_d3 [Inhabited α] :
    deqMicro n (.d3 v) b = ({ b with head := advance n b.head }, .more (.d4 v)) := rfl

@[simp] theorem deqMicro_d4 [Inhabited α] :
    deqMicro n (.d4 v) b = ({ b with count := b.count - 1#8 }, .ok v) := rfl

@[simp] theorem slotWrite_head (i : Byte) : (slotWrite b i v).head = b.head := rfl
@[simp] theorem slotWrite_tail (i : Byte) : (slotWrite b i v).tail = b.tail := rfl
@[simp] theorem slotWrite_count (i : Byte) : (slotWrite b i v).count = b.count := rfl
@[simp] theorem slotWrite_mem (i : Byte) : (slotWrite b i v).mem = b.mem.set i.toNat v := rfl

@[simp] theorem slotWrite_length (i : Byte) : (slotWrite b i v).mem.length = b.mem.length := by simp

/-- SlotRead is the slot at the cursor. -/
theorem slotRead_eq_slotAt [Inhabited α] (i : Byte) : slotRead b i = slotAt b i.toNat := rfl

/-- A slot read after a write to it gives the element written. -/
theorem slotAt_slotWrite_same [Inhabited α] (i : Byte) (h : i.toNat < b.mem.length) :
    slotAt (slotWrite b i v) i.toNat = v := by
  simp [slotAt, List.getD, h]

/-- A slot write leaves every other slot alone. -/
theorem slotAt_slotWrite_other [Inhabited α] (i : Byte) {j : Nat} (h : j ≠ i.toNat) :
    slotAt (slotWrite b i v) j = slotAt b j := by
  simp [slotAt, List.getD, Ne.symm h]

/-- A slot depends on the backing array only. -/
theorem slotAt_congr [Inhabited α] {c : RingBuf α} (h : c.mem = b.mem) (i : Nat) :
    slotAt c i = slotAt b i := by
  simp [slotAt, h]

end

/-- A cursor advance is the successor modulo the capacity (20_memory.md R63). -/
theorem advance_toNat {n : Nat} {x : Byte} (hn : n ≤ 255) (hx : x.toNat < n) :
    (advance n x).toNat = (x.toNat + 1) % n := by
  unfold advance
  split
  · rename_i h; simp [h]
  · rename_i h
    rw [Nat.mod_eq_of_lt (by omega), BitVec.toNat_add]
    simp; omega

/-- A cursor stays inside the array. -/
theorem advance_lt {n : Nat} {x : Byte} (hn : n ≤ 255) (hx : x.toNat < n) :
    (advance n x).toNat < n := by
  rw [advance_toNat hn hx]; exact Nat.mod_lt _ (by omega)

/-- Publishing adds one when it does not wrap. -/
theorem count_succ {c : Byte} (h : c.toNat < 255) : (c + 1#8).toNat = c.toNat + 1 := by
  rw [BitVec.toNat_add]; simp; omega

/-- Releasing subtracts one when there is one. -/
theorem count_pred {c : Byte} (h : 0 < c.toNat) : (c - 1#8).toNat = c.toNat - 1 := by
  rw [BitVec.toNat_sub]; simp; omega

/-- What a well-formed configuration bounds. -/
theorem Config.capacity_of_wf {c : Config} (h : c.wf = true) :
    (1 ≤ c.nTx ∧ c.nTx ≤ 255) ∧ (1 ≤ c.nRx ∧ c.nRx ≤ 255) ∧ (1 ≤ c.nRb ∧ c.nRb ≤ 255) := by
  simp only [Config.wf, Config.capacityOk, Bool.and_eq_true, decide_eq_true_eq] at h
  tauto

/-- The element of an ENQ is a `W_T`-bit value, whatever its operand. -/
theorem enqElement_lt (s : State) (val : Byte) : enqElement s val < 2 ^ s.cfg.wT := by
  unfold enqElement
  split
  · assumption
  · exact Nat.mod_lt _ (by positivity)

/-- Where the operand is a `W_T`-bit value, the element is the operand. -/
theorem enqElement_fit {s : State} {val : Byte} (h : val.toNat + 256 * s.above < 2 ^ s.cfg.wT) :
    enqElement s val = val.toNat + 256 * s.above := by
  simp [enqElement, h]

/-- The element depends on the configuration and the bits above only. -/
theorem enqElement_congr {s t : State} (hc : t.cfg = s.cfg) (ha : t.above = s.above) (val : Byte) :
    enqElement t val = enqElement s val := by
  simp [enqElement, hc, ha]

/-- Where a byte encodes the element, it answers it. -/
theorem elementByte_fit {c : Config} (h : c.wT ≤ 8) (v : Nat) :
    elementByte c v = BitVec.ofNat 8 v := by
  simp [elementByte, h]

end Sys2Proof.Machine
end

