-- ==== Sys2Proof/Tests/Slice0.lean ====
section
/-! SUPPORT. The model's own tests: well-formedness, decoding of words written out from 30_encoding.md, one
step of each operation with the result 95_test_vectors.md gives, and for every obligation with
hypotheses a state and operands that meet them. -/

namespace Sys2Proof.Tests

open Sys2Proof Sys2Proof.Machine

/-! ### Helpers -/

/-- A field of the next state. -/
def got {α : Type} (f : State → α) : Result → Option α
  | .next t => some (f t)
  | .fault _ | .refused _ => none

/-- Why a step is refused. -/
def why : Result → Option Refusal
  | .refused r => some r
  | .fault _ | .next _ => none

/-- The configuration of the vectors of part B: capacities 8, 8 and 3, two ports. -/
def cfg : Config where
  nTx := 8
  nRx := 8
  nRb := 3
  wT := 8
  fClk := 1000000
  stopBits := 1
  irqPrio := .any
  lf := 0x0A#8
  cr := 0x0D#8
  aOut := [12, 22]
  offDir := 1
  offIn := 2
  noPin := 0xFF#8

/-- Right after reset. -/
def start : State := State.resetOf cfg

/-- After INIT and GIEN. -/
def ready : State :=
  { start with st := .ready, rxEn := true, txEn := true, rxcIe := true, gie := true }

/-- `agent` has a turn of `steps` micro-steps. -/
def atTurn (agent : Agent) (steps : Nat) (s : State) : State := { s with agent := agent, steps := steps }

/-- A ring by its cursors, count and slots. -/
def ring {α : Type} (head tail count : Byte) (mem : List α) : RingBuf α :=
  { mem := mem, head := head, tail := tail, count := count }

/-- Cursors, count and slots of a ring. -/
def parts {α : Type} (b : RingBuf α) : Byte × Byte × Byte × List α := (b.head, b.tail, b.count, b.mem)

/-- `ready` with the transmit ring `b`, on MAIN's turn. -/
def txWith (steps : Nat) (b : RingBuf Byte) : State := atTurn .main steps { ready with txb := b }

/-- `ready` with the receive ring `b`, on MAIN's turn. -/
def rxWith (steps : Nat) (b : RingBuf Byte) : State := atTurn .main steps { ready with rxb := b }

/-- The standalone RB as `b`. -/
def rbWith (agent : Agent) (steps : Nat) (b : RingBuf Nat) : State :=
  atTurn agent steps { start with rb := b }

/-- Port P's turn of `steps` micro-steps with its operation at `op` on the ring `b`. -/
def prodAt (op : ProdOp) (steps : Nat) (b : RingBuf Nat) : State :=
  { rbWith .prod steps b with prod := op }

/-- Port C's turn. -/
def consAt (op : ConsOp) (steps : Nat) (b : RingBuf Nat) : State :=
  { rbWith .cons steps b with cons := op }

/-- `OUT[1]` and `DIR[1]` as given, on MAIN's turn. -/
def portOne (out dir : Byte) : State :=
  atTurn .main 2 { start with gpio := memWrite (memWrite [] 22 out) 21 dir }

/-- A byte waits in the data register, HRX has the turn. -/
def arrived (steps : Nat) (b : RingBuf Byte) : State :=
  atTurn .hrx steps { ready with rxb := b, rxd := 0x41#8, rxc := true }

/-- The transmit-ready interrupt is armed, HTX has the turn. -/
def armed (steps : Nat) (b : RingBuf Byte) : State :=
  atTurn .htx steps { ready with txb := b, txrIe := true }

/-- Eight slots, all the same. -/
def eight (v : Byte) : List Byte := List.replicate 8 v

/-! ### Well-formedness and decoding -/

/-- INIT is well formed for a rate from 1 on only (30_encoding.md R92, R101 (d)). -/
theorem test_wf_baud : (Instr.init 0#24).wf = false ∧ (Instr.init 1#24).wf = true := by decide

/-- The canonical form refuses a repeated address, a falling address and a listed zero. -/
theorem test_memory_wf :
    Memory.wf [(3, 1#8), (3, 2#8)] = false ∧ Memory.wf [(4, 1#8), (3, 2#8)] = false
      ∧ Memory.wf [(3, 0#8)] = false ∧ Memory.wf [(3, 1#8), (4, 2#8)] = true := by decide

/-- Unit RB: unit 1, fn 0, 1, 2, `sel` in bit 8, `val` in bits 7 to 0. -/
theorem test_decode_rb :
    decode 0b0001_0000_000000000000000_1_01000001#32 = .instr (.enq .rx 0x41#8)
      ∧ decode 0b0001_0001_000000000000000_1_00000000#32 = .instr (.deq .rx)
      ∧ decode 0b0001_0010_000000000000000_0_00000000#32 = .instr (.size .tx) := by decide

/-- Unit ST: unit 2, fn 0 to 3, `baud` in bits 23 to 0. -/
theorem test_decode_st :
    decode 0b0010_0000_111111111111111111111111#32 = .instr (.init 16777215#24)
      ∧ decode 0b0010_0001_0000000000000000_01011000#32 = .instr (.write 0x58#8)
      ∧ decode 0b0010_0010_000000000000000000000000#32 = .instr .read
      ∧ decode 0b0010_0011_000000000000000_1_00000000#32 = .instr (.tsize .rx) := by decide

/-- Unit IC: unit 3, fn 0 and 1. -/
theorem test_decode_ic :
    decode 0b0011_0000_000000000000000000000000#32 = .instr .gien
      ∧ decode 0b0011_0001_000000000000000000000000#32 = .instr .gdis := by decide

/-- Unit EV: unit 4, fn 0 to 3. -/
theorem test_decode_ev :
    decode 0b0100_0000_000000000000000000000000#32 = .instr .irqrx
      ∧ decode 0b0100_0001_000000000000000000000000#32 = .instr .irqtx
      ∧ decode 0b0100_0010_0000000000000000_01000001#32 = .instr (.lrx 0x41#8)
      ∧ decode 0b0100_0011_000000000000000000000000#32 = .instr .ltx := by decide

/-- Unit GP: unit 5, fn 0 to 6, `pin` in bits 7 to 0, `pval` in bits 15 to 8. -/
theorem test_decode_gp :
    decode 0b0101_0000_0000000000000000_00001101#32 = .instr (.get 13#8)
      ∧ decode 0b0101_0001_0000000000000000_00001101#32 = .instr (.high 13#8)
      ∧ decode 0b0101_0010_0000000000000000_00001101#32 = .instr (.low 13#8)
      ∧ decode 0b0101_0011_0000000000000000_00001101#32 = .instr (.dirin 13#8)
      ∧ decode 0b0101_0100_0000000000000000_00001101#32 = .instr (.dirout 13#8)
      ∧ decode 0b0101_0101_00000000_00000010_00001101#32 = .instr (.setv 13#8 2#8)
      ∧ decode 0b0101_0110_0000000000000000_00001101#32 = .instr (.toggle 13#8) := by decide

/-- The illegal words of 95_test_vectors.md B12. -/
theorem test_decode_illegal :
    decode 0x00000000#32 = .illegal .reservedUnit ∧ decode 0x60000000#32 = .illegal .reservedUnit
      ∧ decode 0x13000000#32 = .illegal .reservedFn ∧ decode 0x10000241#32 = .illegal .mustBeZero
      ∧ decode 0x11000001#32 = .illegal .mustBeZero ∧ decode 0x22000001#32 = .illegal .mustBeZero
      ∧ decode 0x21000141#32 = .illegal .mustBeZero ∧ decode 0x20000000#32 = .illegal .zeroBaud := by
  decide

/-- The host's word numbering is the operation word itself, and the encoder writes the same words. -/
theorem test_table_word :
    decodeTableWord 32 0x5500FF0D = some (.setv 13#8 255#8)
      ∧ encode (.setv 13#8 255#8) = 0x5500FF0D#32 ∧ encode (.tsize .rx) = 0x23000100#32 := by decide

/-! ### One step of each operation -/

/-- B1 step 3: the tail wraps at a capacity of 3. -/
theorem test_enq_wraps :
    got (fun t => (parts t.rb, t.prodResp))
        (exec (.enq .tx 0x33#8) (rbWith .prod 4 (ring 0 2 2 [0x11, 0x22, 0x00])))
      = some ((0, 0, 3, [0x11, 0x22, 0x33]), some 0x0000#16) := by decide

/-- B1 step 4: a full ring answers FULL and is left alone. -/
theorem test_enq_full :
    got (fun t => (parts t.rb, t.prodResp))
        (exec (.enq .tx 0x44#8) (rbWith .prod 4 (ring 0 0 3 [0x11, 0x22, 0x33])))
      = some ((0, 0, 3, [0x11, 0x22, 0x33]), some 0x0100#16) := by decide

/-- B1 step 10: the head wraps and the slot is not cleared. -/
theorem test_deq_wraps :
    got (fun t => (parts t.rb, t.consResp))
        (exec (.deq .tx) (rbWith .cons 4 (ring 2 2 3 [0x55, 0x66, 0x33])))
      = some ((0, 2, 2, [0x55, 0x66, 0x33]), some 0x0033#16) := by decide

/-- B1 step 13: an empty ring answers EMPTY. -/
theorem test_deq_empty :
    got (fun t => (parts t.rb, t.consResp))
        (exec (.deq .tx) (rbWith .cons 4 (ring 2 2 0 [0x55, 0x66, 0x33])))
      = some ((2, 2, 0, [0x55, 0x66, 0x33]), some 0x0200#16) := by decide

/-- B3 step 7: an element stored but not published is not counted. -/
theorem test_size_snapshot :
    got (·.consResp)
        (exec (.size .tx) { rbWith .cons 1 (ring 1 0 0 [0xA1, 0xB2, 0x00]) with
          prod := .enq 0xB2 .e4 })
      = some (some 0x0000#16) := by decide

/-- 20_memory.md R62: with `W_T` = 12 the ring stores and returns the element 0xA41 whole; its word carries
0x41 and the turn the bits above. -/
theorem test_wide_element :
    got (fun t => t.rb.mem)
        (exec (.enq .tx 0x41#8) { rbWith .prod 4 (ring 0 0 0 [0, 0, 0]) with
          cfg := { cfg with wT := 12 }, above := 0xA })
      = some [0xA41, 0, 0]
      ∧ got (fun t => t.consValue)
        (exec (.deq .tx) { rbWith .cons 4 (ring 0 1 1 [0xA41, 0, 0]) with cfg := { cfg with wT := 12 } })
      = some (some 0xA41) := by decide

/-- R100: TSIZE's step may be labelled with the SIZE it performs, of the buffer it names only. -/
theorem test_size_label :
    got (fun t => (t.hostResp, t.main))
        (exec (.size .rx) { rxWith 1 (ring 0 0 8 (eight 1)) with main := .tsize .rx })
      = some (some 0x0008#16, .idle)
      ∧ why (exec (.size .tx) { rxWith 1 (ring 0 0 8 (eight 1)) with main := .tsize .rx })
      = some .portBusy := by decide

/-- B4: INIT from reset. -/
theorem test_init :
    got (fun t => (t.st, t.rxcIe, t.rxEn, t.txEn)) (exec (.init 115200#24) (atTurn .main 4 start))
        = some (.ready, true, true, true)
      ∧ got (fun t => (t.txrIe, t.gie, t.hostResp)) (exec (.init 115200#24) (atTurn .main 4 start))
        = some (false, false, some 0x0000#16) := by decide

/-- B5: a line-feed is enqueued as CR, LF. -/
theorem test_write_lf :
    got (fun t => (parts t.txb, t.txrIe, t.main))
        (exec (.write 0x0A#8) (txWith 13 (ring 0 0 0 (eight 0))))
      = some ((0, 2, 2, [0x0D, 0x0A, 0, 0, 0, 0, 0, 0]), true, .idle) := by decide

/-- B5: a line-feed with one free slot: the CR is in, the LF spins. -/
theorem test_write_lf_one_slot :
    got (fun t => (parts t.txb, t.txrIe, t.main, t.hostResp))
        (exec (.write 0x0A#8) (txWith 32 (ring 0 7 7 (eight 0x41))))
      = some ((0, 0, 8, [0x41, 0x41, 0x41, 0x41, 0x41, 0x41, 0x41, 0x0D]), true,
          .write 0x0A (.w2 0x0A false .e1), none) := by decide

/-- B6: READ of one byte. -/
theorem test_read :
    got (fun t => (parts t.rxb, t.hostResp))
        (exec .read (rxWith 5 (ring 3 4 1 [0, 0, 0, 0x7E, 0, 0, 0, 0])))
      = some ((4, 4, 0, [0, 0, 0, 0x7E, 0, 0, 0, 0]), some 0x007E#16) := by decide

/-- B6: TSIZE reports each buffer's count. -/
theorem test_tsize :
    got (·.hostResp) (exec (.tsize .rx) (rxWith 1 (ring 0 0 8 (eight 1)))) = some (some 0x0008#16)
      ∧ got (·.hostResp) (exec (.tsize .tx) (txWith 1 (ring 0 3 3 (eight 1)))) = some (some 0x0003#16) := by
  decide

/-- B10: GIEN and GDIS. -/
theorem test_gie :
    got (fun t => (t.gie, t.hostResp)) (exec .gien (atTurn .main 1 start)) = some (true, some 0x0000#16)
      ∧ got (fun t => (t.gie, t.hostResp)) (exec .gdis (atTurn .main 1 ready)) = some (false, some 0x0000#16) := by
  decide

/-- B7: the received byte is enqueued with wrap, and `RXC` cleared. -/
theorem test_irqrx_wrap :
    got (fun t => (parts t.rxb, t.rxc, t.isr)) (exec .irqrx (arrived 6 (ring 7 7 0 (eight 0))))
      = some ((7, 0, 1, [0, 0, 0, 0, 0, 0, 0, 0x41]), false, .none) := by decide

/-- B7: a full RXB drops the byte, and `RXC` is cleared all the same. -/
theorem test_irqrx_full :
    got (fun t => (parts t.rxb, t.rxc, t.isr)) (exec .irqrx (arrived 6 (ring 0 0 8 (eight 0x31))))
      = some ((0, 0, 8, eight 0x31), false, .none) := by decide

/-- B8: two bytes wait, one is taken, the interrupt stays armed. -/
theorem test_irqtx_one_byte :
    got (fun t => (parts t.txb, t.txd, t.txr, t.txrIe))
        (exec .irqtx (armed 6 (ring 0 2 2 [0x41, 0x42, 0, 0, 0, 0, 0, 0])))
      = some ((1, 2, 1, [0x41, 0x42, 0, 0, 0, 0, 0, 0]), 0x41, false, true) := by decide

/-- B8: an empty TXB disarms the interrupt and nothing is written. -/
theorem test_irqtx_empty :
    got (fun t => (t.txd, t.txr, t.txrIe, t.isr)) (exec .irqtx (armed 6 (ring 1 1 0 (eight 0x58))))
      = some (0, true, false, .none) := by decide

/-- B9: an arrival, and no step with the receiver off. -/
theorem test_lrx :
    got (fun t => (t.rxd, t.rxc, t.lineIn)) (exec (.lrx 0x41#8) (atTurn .line 0 ready))
        = some (0x41, true, [0x41])
      ∧ got (fun t => (t.rxc, t.lineIn)) (exec (.lrx 0x41#8) (atTurn .line 0 start)) = some (false, []) := by
  decide

/-- B9: a byte is taken, and nothing with `TXR` = 1. -/
theorem test_ltx :
    got (fun t => (t.lineOut, t.txr)) (exec .ltx (atTurn .line 0 { ready with txd := 0x58, txr := false }))
        = some ([0x58], true)
      ∧ got (fun t => (t.lineOut, t.txr)) (exec .ltx (atTurn .line 0 ready)) = some ([], true) := by decide

/-- B11: GET answers the bit PINS drives. -/
theorem test_get :
    got (·.hostResp) (exec (.get 13#8) { portOne 0 0 with pinIn := [0x20] }) = some (some 0x0001#16)
      ∧ got (·.hostResp) (exec (.get 13#8) { portOne 0 0 with pinIn := [0xDF] })
        = some (some 0x0000#16) := by decide

/-- B11: HIGH and LOW of pin 13. -/
theorem test_high_low :
    got (fun t => memRead t.gpio 22) (exec (.high 13#8) (portOne 0x01 0)) = some 0x21
      ∧ got (fun t => memRead t.gpio 22) (exec (.low 13#8) (portOne 0x21 0)) = some 0x01 := by decide

/-- B11: DIRIN and DIROUT of pin 13. -/
theorem test_dirin_dirout :
    got (fun t => memRead t.gpio 21) (exec (.dirin 13#8) (portOne 0 0xFF)) = some 0xDF
      ∧ got (fun t => memRead t.gpio 21) (exec (.dirout 13#8) (portOne 0 0)) = some 0x20 := by decide

/-- B11: any value but 0 is true. -/
theorem test_setv :
    got (fun t => memRead t.gpio 22) (exec (.setv 13#8 2#8) (portOne 0 0)) = some 0x20
      ∧ got (fun t => memRead t.gpio 22) (exec (.setv 13#8 0#8) (portOne 0x20 0)) = some 0x00 := by decide

/-- B11: TOGGLE inverts the output register's bit. -/
theorem test_toggle :
    got (fun t => memRead t.gpio 22) (exec (.toggle 13#8) (portOne 0x21 0)) = some 0x01
      ∧ got (fun t => memRead t.gpio 12) (exec (.toggle 0#8) (portOne 0x21 0)) = some 0x01 := by decide

/-- B11: the sentinel and a pin of an absent port are refused. -/
theorem test_pin_refused :
    why (exec (.get 255#8) (portOne 0 0)) = some .sentinelPin
      ∧ why (exec (.get 16#8) (portOne 0 0)) = some .absentPort := by decide

/-- B5: WRITE before INIT is refused. -/
theorem test_write_before_init : why (exec (.write 0x41#8) (atTurn .main 7 start)) = some .uninitialized := by
  decide

/-- B8, during MAIN's ENQ: HTX does not see an element not yet published. -/
theorem test_htx_inside_enq :
    got (fun t => (t.txrIe, t.txb.count))
        (exec .irqtx { armed 6 (ring 0 1 0 (eight 0x41)) with main := .write 0x41 (.w2 0x41 false .e4) })
      = some (false, 0) := by decide

/-- The first step after reset runs the word placed for it. -/
theorem test_first_step :
    got (fun t => (t.st, t.hostResp)) (step (State.reset.withFetchWord 32 0x20002580))
        = some (.ready, some 0x0000#16)
      ∧ got (·.prodResp) (step (State.reset.withFetchWord 32 0x10000041)) = some (some 0x0000#16)
      ∧ got (·.hostResp) (step (State.reset.withFetchWord 32 0x00000000)) = some (some 0x0300#16) := by
  decide

/-! ### Witnesses: for every obligation with hypotheses, a state and operands that meet them -/

/-- A word waits as the next turn of `agent`. -/
def waiting (agent : Agent) (word : Word) (s : State) : State :=
  { s with sched := [{ agent := agent, word := word, steps := 1, above := 0 }] }

/-- TXB and RXB with MAIN's WRITE in flight, HTX in service, and both sides of the standalone RB inside an
operation: the position of every ring is at a boundary. -/
def busy : State :=
  { ready with
    txb := ring 7 7 7 (eight 0x41), txrIe := true, main := .write 0x0A (.w2 0x0D true .e4)
    isr := .tx (.t1 (.d3 0x41))
    rb := ring 2 1 2 [0x11, 0x22, 0x33], prod := .enq 0x22 .e3, cons := .deq .d2
    prodResp := none, gpio := [(22, 0x20#8)] }

/-- RXB full with MAIN's DEQ past its slot read and HRX in service (95_test_vectors.md B7). -/
def receiving : State :=
  { ready with
    rxb := ring 1 1 7 (eight 0x31), main := .read (.rd1 (.d4 0x31)), isr := .rx (.h2 0x99 .e3) }

theorem witness_encode :
    (Instr.init 1#24).wf = true ∧ (Instr.init 0xFFFFFF#24).wf = true
      ∧ (Instr.setv 255#8 255#8).wf = true := by decide

theorem witness_decode :
    decode 0x20FFFFFF#32 = .instr (.init 0xFFFFFF#24) ∧ decode 0x100001FF#32 = .instr (.enq .rx 0xFF#8) := by
  decide

theorem witness_opcode_rows :
    0x5500FF0D#32 &&& opMask (.setv 1#8 2#8) = opMatch (.setv 1#8 2#8)
      ∧ 0x20000001#32 &&& opMask (.init 7#24) = opMatch (.init 7#24)
      ∧ 0x100001FF#32 &&& opMask (.enq .tx 0#8) = opMatch (.enq .tx 0#8) := by decide

theorem witness_illegal :
    decode 0x00FFFFFF#32 = .illegal .reservedUnit ∧ decode 0x57000000#32 = .illegal .reservedFn
      ∧ decode 0x31800000#32 = .illegal .mustBeZero ∧ decode 0x20000000#32 = .illegal .zeroBaud
      ∧ (waiting .main 0x20000000 start).sched = [⟨.main, 0x20000000, 1, 0⟩]
      ∧ noIsr (waiting .main 0x20000000 start) = true ∧ mainIdle (waiting .main 0x20000000 start) = true
      ∧ (waiting .prod 0x57000000 start).sched = [⟨.prod, 0x57000000, 1, 0⟩]
      ∧ prodIdle (waiting .prod 0x57000000 start) = true
      ∧ (waiting .cons 0x57000000 start).sched = [⟨.cons, 0x57000000, 1, 0⟩]
      ∧ consIdle (waiting .cons 0x57000000 start) = true := by
  decide

theorem witness_step :
    (waiting .line 0x42000041 ready).sched = [⟨.line, 0x42000041, 1, 0⟩]
      ∧ decode 0x42000041#32 = .instr (.lrx 0x41#8) ∧ ready.sched = [] := by decide

theorem witness_host_admission :
    hostReady start = true ∧ presenter (.enq .tx 0#8) ≠ .main ∧ presenter .ltx ≠ .main
      ∧ presenter (.init 1#24) = .main ∧ (Instr.init 1#24).wf = true
      ∧ got (·.hostResp) (exec (.init 1#24) (atTurn .main 1 start)) = some none
      ∧ got (·.hostResp) (exec (.tsize .rx) (atTurn .main 1 start)) = some (some 0x0000#16) := by decide

theorem witness_ring_admission :
    ((atTurn .prod 1 start).agent = .prod ∧ (atTurn .prod 1 start).prod = .idle
        ∧ Instr.enq .rx 0#8 ≠ .enq .tx 0#8 ∧ Instr.enq .rx 0#8 ≠ .size .tx ∧ Instr.enq .rx 0#8 ≠ .deq .tx)
      ∧ ((atTurn .cons 1 start).agent = .cons ∧ (atTurn .cons 1 start).cons = .idle
        ∧ Instr.deq .rx ≠ .enq .tx 0#8 ∧ Instr.deq .rx ≠ .size .tx ∧ Instr.deq .rx ≠ .deq .tx)
      ∧ ((atTurn .prod 1 busy).agent = .prod ∧ (atTurn .prod 1 busy).prod = .enq 0x22 .e3
        ∧ enqElement (atTurn .prod 1 busy) 0x23#8 ≠ 0x22)
      ∧ ((prodAt .size 1 (ring 0 0 0 [])).prod = .size ∧ Instr.enq .tx 0#8 ≠ .size .tx)
      ∧ ((consAt .size 1 (ring 0 0 0 [])).cons = .size ∧ Instr.deq .tx ≠ .size .tx)
      ∧ ((atTurn .cons 1 busy).agent = .cons ∧ (atTurn .cons 1 busy).cons = .deq .d2
        ∧ Instr.size .tx ≠ .deq .tx) := by decide

theorem witness_host_one_operation :
    (atTurn .main 1 { busy with isr := .none }).agent = .main
      ∧ noIsr (atTurn .main 1 { busy with isr := .none }) = true
      ∧ inFlight (atTurn .main 1 { busy with isr := .none }) = some (.write 0x0A)
      ∧ presenter .gien = .main ∧ Instr.gien ≠ .write 0x0A
      ∧ presenter (.write 0x0D) = .main ∧ Instr.write 0x0D ≠ .write 0x0A := by decide

theorem witness_roles :
    ((atTurn .cons 1 start).agent = .cons ∧ (atTurn .cons 1 start).cons = .idle)
      ∧ ((atTurn .prod 1 start).agent = .prod ∧ (atTurn .prod 1 start).prod = .idle)
      ∧ ((atTurn .hrx 0 receiving).agent = .hrx ∧ Instr.enq .rx 0x98 ≠ .irqrx
        ∧ rxEnqueuing (atTurn .hrx 0 receiving) ≠ some 0x98)
      ∧ ((atTurn .htx 0 receiving).agent = .htx ∧ Instr.deq .tx ≠ .irqtx
        ∧ txDequeuing (atTurn .htx 0 receiving) = false)
      ∧ ((atTurn .line 0 receiving).agent = .line ∧ Instr.write 0x41 ≠ .ltx
        ∧ Instr.write 0x41 ≠ .lrx 0x41) := by decide

/-- A whole operation of each side moves its cursor, and `count`. -/
theorem witness_cursors :
    got (fun t => parts t.txb) (exec (.write 0x41#8) (txWith 7 (ring 0 0 0 (eight 0))))
        = some (0, 1, 1, [0x41, 0, 0, 0, 0, 0, 0, 0])
      ∧ got (fun t => parts t.txb) (exec .irqtx (armed 6 (ring 0 1 1 (eight 0)))) = some (1, 1, 0, eight 0)
      ∧ got (fun t => parts t.rxb) (exec .irqrx (arrived 6 (ring 0 0 0 (eight 0))))
        = some (0, 1, 1, [0x41, 0, 0, 0, 0, 0, 0, 0])
      ∧ got (fun t => parts t.rxb) (exec .read (rxWith 5 (ring 7 0 1 (eight 0)))) = some (0, 0, 0, eight 0)
      ∧ got (fun t => parts t.rb) (exec (.enq .tx 9#8) (rbWith .prod 4 (ring 0 0 0 [1, 2, 3])))
        = some (0, 1, 1, [9, 2, 3])
      ∧ got (fun t => parts t.rb) (exec (.deq .tx) (rbWith .cons 4 (ring 0 1 1 [1, 2, 3])))
        = some (1, 1, 0, [1, 2, 3]) := by
  refine ⟨?_, ?_, ?_, ?_, ?_, ?_⟩ <;> decide

theorem busy_txb : RingOk 8 busy.txb (txbProducer busy) (txbConsumer busy) where
  size := by decide
  head := by decide
  tail := by decide
  count := by decide
  room := by decide
  element := by decide
  cursors := by decide
  stored := by intro v h; simp [txbProducer, busy] at h
  copied := by intro v h; simp [txbConsumer, busy] at h; subst h; rfl

theorem busy_rxb : RingOk 8 busy.rxb (rxbProducer busy) (rxbConsumer busy) where
  size := by decide
  head := by decide
  tail := by decide
  count := by decide
  room := by decide
  element := by decide
  cursors := by decide
  stored := by intro v h; simp [rxbProducer, busy] at h
  copied := by intro v h; simp [rxbConsumer, busy] at h

theorem busy_rb : RingOk 3 busy.rb (rbProducer busy) (rbConsumer busy) where
  size := by decide
  head := by decide
  tail := by decide
  count := by decide
  room := by decide
  element := by decide
  cursors := by decide
  stored := by intro v h; simp [rbProducer, busy] at h; subst h; rfl
  copied := by intro v h; simp [rbConsumer, busy] at h

theorem busy_inv : Inv busy where
  cfg := by decide
  txb := busy_txb
  rxb := busy_rxb
  rb := busy_rb
  fits := ⟨by decide, by simp [busy, rbProducer, ready, start, State.resetOf, cfg], by simp [busy, rbConsumer],
    by simp [busy, ready, start, State.resetOf]⟩
  free := by decide
  gpio := by decide

theorem witness_step_keeps_inv :
    Inv (waiting .htx 0x41000000 busy)
      ∧ got (·.isr) (step (waiting .htx 0x41000000 busy)) = some (.tx (.t1 (.d4 0x41))) :=
  ⟨⟨busy_inv.cfg, busy_inv.txb, busy_inv.rxb, busy_inv.rb,
    ⟨busy_inv.fits.slots, busy_inv.fits.producer, busy_inv.fits.consumer, busy_inv.fits.given⟩,
    busy_inv.free, busy_inv.gpio⟩, by decide⟩

theorem witness_gating :
    TxGated (waiting .htx 0x41000000 busy)
      ∧ (waiting .htx 0x41000000 busy).st = .ready ∧ mainInitialising busy = false
      ∧ decode 0x41000000#32 ≠ .instr (.init 1#24)
      ∧ TxGated start ∧ start.st = .uninitialized :=
  ⟨⟨fun _ => .inl rfl, fun h => by simp [waiting, busy] at h, fun h => by simp [waiting, busy, ready] at h⟩,
    rfl, rfl, by decide,
    ⟨fun h => by simp [start, State.resetOf, RingBuf.reset] at h, fun _ => rfl, fun _ => ⟨rfl, rfl⟩⟩, rfl⟩

theorem witness_reset : ∃ c, start = State.resetOf c := ⟨cfg, rfl⟩

theorem witness_cfg :
    got (·.cfg) (exec .ltx (atTurn .line 0 ready)) = some cfg ∧ got (·.cfg) (step ready) = some cfg := by
  decide

theorem witness_flags :
    got (·.rxc) (exec (.lrx 0#8) (atTurn .line 0 ready)) = some true
      ∧ got (·.rxc) (exec .irqrx (arrived 1 (ring 0 0 0 (eight 0)))) = some false
      ∧ got (·.txr) (exec .ltx (atTurn .line 0 { ready with txr := false })) = some true
      ∧ got (·.txr) (exec .irqtx (armed 6 (ring 0 1 1 (eight 0)))) = some false
      ∧ got (·.txrIe) (exec (.write 0#8) (txWith 7 (ring 0 0 0 (eight 0)))) = some true
      ∧ got (·.txrIe) (exec .irqtx (armed 2 (ring 0 0 0 (eight 0)))) = some false
      ∧ got (·.gie) (exec .gien (atTurn .main 1 start)) = some true
      ∧ got (fun t => (t.rxcIe, t.rxEn, t.txEn, t.st)) (exec (.init 1#24) (atTurn .main 4 start))
        = some (true, true, true, .ready) := by decide

theorem witness_ring_micro :
    RingOk 8 busy.txb (some (0x0D, .e4)) (some (.d3 0x41))
      ∧ RingOk 3 busy.rb (some (0x22, .e3)) (some .d2) := ⟨busy_txb, busy_rb⟩

theorem start_inv : Inv start where
  cfg := by decide
  txb := { size := by decide, head := by decide, tail := by decide, count := by decide
           room := by decide, element := by decide, cursors := by decide
           stored := by intro v h; simp [txbProducer, start, State.resetOf] at h
           copied := by intro v h; simp [txbConsumer, start, State.resetOf] at h }
  rxb := { size := by decide, head := by decide, tail := by decide, count := by decide
           room := by decide, element := by decide, cursors := by decide
           stored := by intro v h; simp [rxbProducer, start, State.resetOf] at h
           copied := by intro v h; simp [rxbConsumer, start, State.resetOf] at h }
  rb := { size := by decide, head := by decide, tail := by decide, count := by decide
          room := by decide, element := by decide, cursors := by decide
          stored := by intro v h; simp [rbProducer, start, State.resetOf] at h
          copied := by intro v h; simp [rbConsumer, start, State.resetOf] at h }
  fits := ⟨by decide, by simp [start, State.resetOf, rbProducer], by simp [start, State.resetOf, rbConsumer],
    by simp [start, State.resetOf]⟩
  free := by decide
  gpio := by decide

/-- `start` with a standalone ring at rest that holds `b`. -/
theorem start_inv_with {b : RingBuf Nat} (h : RingOk 3 b none none) (hf : ∀ x ∈ b.mem, x < 256)
    (agent : Agent) : Inv (rbWith agent 4 b) :=
  ⟨start_inv.cfg, start_inv.txb, start_inv.rxb, h,
    ⟨hf, start_inv.fits.producer, start_inv.fits.consumer, start_inv.fits.given⟩,
    start_inv.free, start_inv.gpio⟩

theorem witness_sequential :
    (Inv (rbWith .prod 4 (ring 1 0 2 [1, 2, 3])) ∧ (queue 3 (ring 1 0 2 [1, 2, 3])).length < 3)
      ∧ (Inv (rbWith .prod 4 (ring 1 1 3 [1, 2, 3])) ∧ (queue 3 (ring 1 1 3 [1, 2, 3])).length = 3)
      ∧ (Inv (rbWith .cons 4 (ring 2 0 1 [1, 2, 3])) ∧ queue 3 (ring 2 0 1 [1, 2, 3]) = [3])
      ∧ (Inv (rbWith .cons 4 (ring 2 2 0 [1, 2, 3])) ∧ queue 3 (ring 2 2 0 [1, 2, 3]) = [])
      ∧ (rbWith .prod 4 (ring 1 0 2 [1, 2, 3])).prod = .idle
      ∧ (rbWith .cons 4 (ring 2 0 1 [1, 2, 3])).cons = .idle := by
  refine ⟨⟨start_inv_with ?_ (by decide) _, by decide⟩, ⟨start_inv_with ?_ (by decide) _, by decide⟩,
    ⟨start_inv_with ?_ (by decide) _, by decide⟩, ⟨start_inv_with ?_ (by decide) _, by decide⟩, rfl, rfl⟩ <;>
    exact ⟨by decide, by decide, by decide, by decide, by decide, by decide, by decide, by simp, by simp⟩

theorem witness_enq :
    (let s := prodAt .idle 0 (ring 1 1 3 [1, 2, 3]);
      s.agent = .prod ∧ s.prod = .idle ∧ s.steps = 0 ∧ (9#8 : Byte).toNat + 256 * s.above < 2 ^ s.cfg.wT)
      ∧ (let s := prodAt .idle 1 (ring 1 1 3 [1, 2, 3]);
        s.agent = .prod ∧ s.prod = .idle ∧ s.rb.count.toNat = s.cfg.nRb ∧ 1 ≤ s.steps)
      ∧ (let s := prodAt .idle 1 (ring 0 2 2 [1, 2, 3]);
        s.agent = .prod ∧ s.prod = .idle ∧ s.rb.count.toNat ≠ s.cfg.nRb ∧ s.steps = 1)
      ∧ (let s := prodAt .idle 4 (ring 0 2 2 [1, 2, 3]);
        s.agent = .prod ∧ s.prod = .idle ∧ s.rb.count.toNat ≠ s.cfg.nRb ∧ 4 ≤ s.steps)
      ∧ (let s := prodAt (.enq 9 .e1) 1 (ring 1 1 3 [1, 2, 3]);
        s.agent = .prod ∧ s.prod = .enq (enqElement s 9) .e1 ∧ s.steps = 1
          ∧ s.rb.count.toNat = s.cfg.nRb)
      ∧ (let s := prodAt (.enq 9 .e1) 1 (ring 0 2 2 [1, 2, 3]);
        s.agent = .prod ∧ s.prod = .enq (enqElement s 9) .e1 ∧ s.steps = 1
          ∧ s.rb.count.toNat ≠ s.cfg.nRb)
      ∧ ∀ e ∈ [EnqAt.e2, .e3, .e4], let s := prodAt (.enq 9 e) 1 (ring 0 2 2 [1, 2, 3])
        s.agent = .prod ∧ s.prod = .enq (enqElement s 9) e ∧ s.steps = 1 := by
  refine ⟨?_, ?_, ?_, ?_, ?_, ?_, ?_⟩ <;> decide

theorem witness_deq :
    (let s := consAt .idle 0 (ring 1 1 0 [1, 2, 3]);
      s.agent = .cons ∧ s.cons = .idle ∧ s.steps = 0 ∧ s.cfg.wT ≤ 8)
      ∧ (let s := consAt .idle 1 (ring 1 1 0 [1, 2, 3]);
        s.agent = .cons ∧ s.cons = .idle ∧ s.rb.count = 0 ∧ 1 ≤ s.steps)
      ∧ (let s := consAt .idle 1 (ring 2 0 1 [1, 2, 3]);
        s.agent = .cons ∧ s.cons = .idle ∧ s.rb.count ≠ 0 ∧ s.steps = 1)
      ∧ (let s := consAt .idle 4 (ring 2 0 1 [1, 2, 3]);
        s.agent = .cons ∧ s.cons = .idle ∧ s.rb.count ≠ 0 ∧ 4 ≤ s.steps)
      ∧ (let s := consAt (.deq .d1) 1 (ring 1 1 0 [1, 2, 3]);
        s.agent = .cons ∧ s.cons = .deq .d1 ∧ s.steps = 1 ∧ s.rb.count = 0)
      ∧ (let s := consAt (.deq .d1) 1 (ring 2 0 1 [1, 2, 3]);
        s.agent = .cons ∧ s.cons = .deq .d1 ∧ s.steps = 1 ∧ s.rb.count ≠ 0)
      ∧ ∀ d ∈ [DeqAt.d2, .d3 3, .d4 3], let s := consAt (.deq d) 1 (ring 2 0 1 [1, 2, 3])
        s.agent = .cons ∧ s.cons = .deq d ∧ s.steps = 1 := by
  refine ⟨?_, ?_, ?_, ?_, ?_, ?_, ?_⟩ <;> decide

theorem witness_size :
    (∀ k ∈ [0, 1], (prodAt .idle k (ring 0 0 0 [])).agent = .prod
        ∧ (prodAt .idle k (ring 0 0 0 [])).prod = .idle ∧ (prodAt .idle k (ring 0 0 0 [])).steps = k)
      ∧ (∀ k ∈ [0, 1], (consAt .idle k (ring 0 0 0 [])).agent = .cons
        ∧ (consAt .idle k (ring 0 0 0 [])).cons = .idle ∧ (consAt .idle k (ring 0 0 0 [])).steps = k)
      ∧ (prodAt .size 1 (ring 0 0 0 [])).prod = .size ∧ (consAt .size 1 (ring 0 0 0 [])).cons = .size := by
  decide

theorem witness_labels :
    (let s := { txWith 4 (ring 0 0 0 (eight 0)) with main := .write 0x41 (.w2 0x41 false .e1) };
      4 ≤ s.steps ∧ s.agent = .main ∧ noIsr s = true ∧ s.main = .write 0x41 (.w2 0x41 false .e1)
        ∧ s.txb.count.toNat ≠ s.cfg.nTx)
      ∧ (let s := { arrived 4 (ring 0 7 7 (eight 0)) with isr := .rx (.h2 0x41 .e1) };
        4 ≤ s.steps ∧ s.agent = .hrx ∧ s.isr = .rx (.h2 0x41 .e1) ∧ s.rxb.count.toNat ≠ s.cfg.nRx)
      ∧ (let s := { rxWith 4 (ring 0 1 1 (eight 0x7E)) with main := .read (.rd1 .d1) };
        4 ≤ s.steps ∧ s.agent = .main ∧ noIsr s = true ∧ s.main = .read (.rd1 .d1) ∧ s.rxb.count ≠ 0)
      ∧ (let s := { armed 4 (ring 7 0 1 (eight 0x7E)) with isr := .tx (.t1 .d1) };
        4 ≤ s.steps ∧ s.agent = .htx ∧ s.isr = .tx (.t1 .d1) ∧ s.txb.count ≠ 0)
      ∧ (let s := { txWith 4 (ring 0 0 0 (eight 0)) with main := .tsize .rx };
        4 ≤ s.steps ∧ s.agent = .main ∧ noIsr s = true ∧ s.main = .tsize .rx) := by
  refine ⟨?_, ?_, ?_, ?_, ?_⟩ <;> decide

theorem witness_init :
    (1#24 : BitVec 24) ≠ 0#24
      ∧ (∀ k ∈ [0, 1, 4], hostReady (atTurn .main k start) = true ∧ (atTurn .main k ready).steps = k)
      ∧ ∀ p ∈ [InitAt.i1, .i2, .i3, .i4], let s := atTurn .main 1 { ready with main := .init 1 p }
        s.agent = .main ∧ noIsr s = true ∧ s.steps = 1 ∧ s.main = .init 1 p := by decide

theorem witness_before_init :
    hostReady (atTurn .main 4 start) = true ∧ start.st = .uninitialized
      ∧ (1#24 : BitVec 24) ≠ 0#24 ∧ 4 ≤ (atTurn .main 4 start).steps := by decide

theorem witness_write_micro :
    (∀ k ∈ [0, 1], let s := atTurn .main k ready
      s.agent = .main ∧ noIsr s = true ∧ s.steps = k ∧ s.main = .idle ∧ s.st = .ready)
      ∧ (let s := { txWith 1 (ring 3 3 8 (eight 1)) with main := .write 10 (.w2 13 true .e1) };
        s.agent = .main ∧ noIsr s = true ∧ s.steps = 1 ∧ s.main = .write 10 (.w2 13 true .e1)
          ∧ s.txb.count.toNat = s.cfg.nTx)
      ∧ (let s := { txWith 1 (ring 3 2 7 (eight 1)) with main := .write 10 (.w2 13 true .e1) };
        s.agent = .main ∧ noIsr s = true ∧ s.steps = 1 ∧ s.main = .write 10 (.w2 13 true .e1)
          ∧ s.txb.count.toNat ≠ s.cfg.nTx)
      ∧ ∀ p ∈ [WriteAt.w1, .w2 13 true .e2, .w2 10 false .e3, .w2 13 true .e4, .w3 true, .w4 true, .w4 false],
        let s := atTurn .main 1 { ready with main := .write 10 p }
        s.agent = .main ∧ noIsr s = true ∧ s.steps = 1 ∧ s.main = .write 10 p := by decide

theorem witness_write_plain :
    let s := txWith 7 (ring 0 7 7 (eight 0))
    hostReady s = true ∧ s.st = .ready ∧ 0x0D#8 ≠ s.cfg.lf ∧ s.txb.count.toNat ≠ s.cfg.nTx
      ∧ 7 ≤ s.steps := by decide

theorem witness_write_lf :
    let s := txWith 13 (ring 0 6 6 (eight 0))
    hostReady s = true ∧ s.st = .ready ∧ s.cfg.nTx ≤ 255 ∧ s.txb.count.toNat + 2 ≤ s.cfg.nTx
      ∧ 13 ≤ s.steps := by decide

theorem witness_write_expand :
    Inv { start with st := .ready, steps := 13 }
      ∧ hostReady { start with st := .ready, steps := 13 } = true
      ∧ start.txb.count.toNat + (expand cfg 0x0A).length ≤ 8
      ∧ start.txb.count.toNat + (expand cfg 0x0D).length ≤ 8 :=
  ⟨⟨start_inv.cfg, start_inv.txb, start_inv.rxb, start_inv.rb, ⟨start_inv.fits.slots, start_inv.fits.producer, start_inv.fits.consumer,
      start_inv.fits.given⟩, start_inv.free, start_inv.gpio⟩,
    by decide, by decide, by decide⟩

/-- A WRITE of LF interrupted at the CR's E4: the LF is still to come, and HTX's micro-step does not touch
it. -/
theorem witness_write_pending :
    Inv (atTurn .htx 1 busy) ∧ pendingOut busy = [0x0A]
      ∧ got (fun t => (pendingOut t, txStream t)) (exec .irqtx (atTurn .htx 1 busy))
        = some ([0x0A], txStream busy)
      ∧ mainIdle start = true :=
  ⟨⟨busy_inv.cfg, busy_inv.txb, busy_inv.rxb, busy_inv.rb,
    ⟨busy_inv.fits.slots, busy_inv.fits.producer, busy_inv.fits.consumer, busy_inv.fits.given⟩,
    busy_inv.free, busy_inv.gpio⟩, by decide, by decide, by decide⟩

theorem witness_spin :
    (let s := { txWith 6 (ring 3 3 8 (eight 1)) with main := .write 65 (.w2 65 false .e1) };
      s.agent = .main ∧ noIsr s = true ∧ s.main = .write 65 (.w2 65 false .e1)
        ∧ s.txb.count.toNat = s.cfg.nTx)
      ∧ (let s := { txWith 6 (ring 3 2 7 (eight 1)) with main := .write 65 (.w2 65 false .e1) };
        s.agent = .main ∧ noIsr s = true ∧ s.main = .write 65 (.w2 65 false .e1)
          ∧ s.txb.count.toNat ≠ s.cfg.nTx ∧ 6 ≤ s.steps)
      ∧ (let s := { txWith 6 (ring 3 1 6 (eight 1)) with main := .write 10 (.w2 13 true .e1) };
        s.agent = .main ∧ noIsr s = true ∧ s.main = .write 10 (.w2 13 true .e1)
          ∧ s.txb.count.toNat ≠ s.cfg.nTx ∧ s.steps = 6)
      ∧ (let s := { rxWith 5 (ring 3 3 0 (eight 1)) with main := .read (.rd1 .d1) };
        s.agent = .main ∧ noIsr s = true ∧ s.main = .read (.rd1 .d1) ∧ s.rxb.count = 0)
      ∧ (let s := { rxWith 5 (ring 3 4 1 (eight 1)) with main := .read (.rd1 .d1) };
        s.agent = .main ∧ noIsr s = true ∧ s.main = .read (.rd1 .d1) ∧ s.rxb.count ≠ 0
          ∧ 5 ≤ s.steps) := by decide

theorem witness_read :
    (let s := rxWith 5 (ring 7 0 1 (eight 1));
      hostReady s = true ∧ s.st = .ready ∧ s.rxb.count ≠ 0 ∧ 5 ≤ s.steps)
      ∧ (let s := rxWith 1 (ring 7 7 0 (eight 1));
        hostReady s = true ∧ s.st = .ready ∧ s.rxb.count = 0)
      ∧ (let s := rxWith 0 (ring 7 0 1 (eight 1));
        hostReady s = true ∧ s.st = .ready ∧ s.steps = 0)
      ∧ (let s := rxWith 1 (ring 7 0 1 (eight 1));
        hostReady s = true ∧ s.st = .ready ∧ s.rxb.count ≠ 0 ∧ s.steps = 1)
      ∧ (let s := { rxWith 1 (ring 7 7 0 (eight 1)) with main := .read (.rd1 .d1) };
        s.agent = .main ∧ noIsr s = true ∧ s.steps = 1 ∧ s.main = .read (.rd1 .d1) ∧ s.rxb.count = 0)
      ∧ ∀ p ∈ [ReadAt.rd1 .d1, .rd1 .d2, .rd1 (.d3 1), .rd1 (.d4 1), .rd2 1],
        let s := { rxWith 1 (ring 7 0 1 (eight 1)) with main := .read p }
        s.agent = .main ∧ noIsr s = true ∧ s.steps = 1 ∧ s.main = .read p ∧ s.rxb.count ≠ 0 := by decide

theorem witness_host_ready :
    ∀ k ∈ [0, 1], hostReady (atTurn .main k ready) = true ∧ (atTurn .main k ready).steps = k
      ∧ ∀ m ∈ [Main.tsize .tx, .gien, .gdis, .get 13], let s := atTurn .main k { portOne 0 0 with main := m }
        s.agent = .main ∧ noIsr s = true ∧ s.main = m ∧ s.steps = k ∧ s.gpio.wf = true := by decide

theorem witness_eligibility :
    (let s := atTurn .hrx 0 start;
      s.agent = .hrx ∧ s.isr = .none ∧ rxEligible s = false)
      ∧ (let s := atTurn .htx 0 start;
        s.agent = .htx ∧ s.isr = .none ∧ txEligible s = false)
      ∧ (∀ p ∈ [IrqPrio.any, .txFirst],
        let s := { arrived 0 (ring 0 0 0 (eight 0)) with cfg := { cfg with irqPrio := p } }
        rxEligible s = true ∧ txEligible s = false ∧ s.cfg.irqPrio = p)
      ∧ ∀ p ∈ [IrqPrio.any, .rxFirst],
        let s := { armed 0 (ring 0 0 0 (eight 0)) with cfg := { cfg with irqPrio := p } }
        txEligible s = true ∧ rxEligible s = false ∧ s.cfg.irqPrio = p := by decide

theorem witness_irqrx :
    (let s := arrived 6 (ring 0 7 7 (eight 0));
      s.agent = .hrx ∧ rxMayEnter s = true ∧ s.rxb.count.toNat ≠ s.cfg.nRx ∧ 6 ≤ s.steps)
      ∧ (let s := arrived 3 (ring 0 0 8 (eight 0));
        s.agent = .hrx ∧ rxMayEnter s = true ∧ s.rxb.count.toNat = s.cfg.nRx ∧ 3 ≤ s.steps)
      ∧ (let s := { arrived 1 (ring 0 0 8 (eight 0)) with isr := .rx (.h2 1 .e1) };
        s.agent = .hrx ∧ s.steps = 1 ∧ s.isr = .rx (.h2 1 .e1) ∧ s.rxb.count.toNat = s.cfg.nRx)
      ∧ ∀ p ∈ [RxAt.h1, .h2 1 .e1, .h2 1 .e2, .h2 1 .e3, .h2 1 .e4, .h3],
        let s := { arrived 1 (ring 0 7 7 (eight 0)) with isr := .rx p }
        s.agent = .hrx ∧ s.steps = 1 ∧ s.isr = .rx p ∧ s.rxb.count.toNat ≠ s.cfg.nRx := by
  decide

theorem witness_irqtx :
    (let s := armed 6 (ring 7 0 1 (eight 0));
      s.agent = .htx ∧ txMayEnter s = true ∧ s.txb.count ≠ 0 ∧ 6 ≤ s.steps)
      ∧ (let s := armed 3 (ring 7 7 0 (eight 0));
        s.agent = .htx ∧ txMayEnter s = true ∧ s.txb.count = 0 ∧ 3 ≤ s.steps)
      ∧ (let s := { armed 1 (ring 7 7 0 (eight 0)) with isr := .tx (.t1 .d1) };
        s.agent = .htx ∧ s.steps = 1 ∧ s.isr = .tx (.t1 .d1) ∧ s.txb.count = 0)
      ∧ ∀ p ∈ [TxAt.t1 .d1, .t1 .d2, .t1 (.d3 1), .t1 (.d4 1), .t2a 1, .t2b, .t3],
        let s := { armed 1 (ring 7 0 1 (eight 0)) with isr := .tx p }
        s.agent = .htx ∧ s.steps = 1 ∧ s.isr = .tx p ∧ s.txb.count ≠ 0 := by decide

theorem witness_entry :
    (let s := arrived 0 (ring 0 0 0 (eight 0));
      s.steps = 0 ∧ s.agent = .hrx ∧ rxMayEnter s = true)
      ∧ (let s := armed 0 (ring 0 0 0 (eight 0));
        s.steps = 0 ∧ s.agent = .htx ∧ txMayEnter s = true) := by decide

theorem witness_return :
    (let s := { arrived 1 (ring 0 0 0 (eight 0)) with isr := .rx .h3 };
      1 ≤ s.steps ∧ s.agent = .hrx ∧ s.isr = .rx .h3)
      ∧ (let s := { armed 31 (ring 0 0 0 (eight 0)) with isr := .tx .t3 };
        1 ≤ s.steps ∧ s.agent = .htx ∧ s.isr = .tx .t3) := by decide

theorem witness_frozen :
    ((atTurn .main 1 busy).agent = .main ∧ (atTurn .main 1 busy).isr ≠ .none)
      ∧ ((atTurn .hrx 0 busy).agent = .hrx ∧ (atTurn .hrx 0 busy).isr = .tx (.t1 (.d3 0x41)))
      ∧ ((atTurn .htx 0 receiving).agent = .htx ∧ (atTurn .htx 0 receiving).isr = .rx (.h2 0x99 .e3)) := by
  decide

/-- Both handlers eligible (95_test_vectors.md B10), under each priority. -/
theorem witness_simultaneous :
    ∀ p ∈ [IrqPrio.any, .rxFirst, .txFirst], ∀ agent ∈ [Agent.hrx, .htx],
      let s := { armed 6 (ring 0 1 1 (eight 0x41)) with
        rxc := true, agent := agent, cfg := { cfg with irqPrio := p } }
      rxEligible s = true ∧ txEligible s = true ∧ s.cfg.irqPrio = p ∧ 6 ≤ s.steps ∧ s.agent = agent := by
  decide

theorem witness_turns :
    ∃ t u, exec .irqrx { arrived 0 (ring 0 0 0 (eight 0)) with steps := 2 } = .next t
      ∧ goesOn .irqrx t = true ∧ exec .irqrx { t with steps := 1 } = .next u :=
  ⟨_, _, rfl, by decide, rfl⟩

theorem witness_turns_enq :
    ∃ t u, exec (.enq .tx 1#8) { start with agent := .prod, steps := 0 } = .next t
      ∧ goesOn (.enq .tx 1#8) t = true ∧ exec (.enq .tx 1#8) { t with steps := 2 } = .next u :=
  ⟨_, _, rfl, by decide, rfl⟩

theorem witness_lrx :
    (let s := atTurn .line 0 start;
      s.agent = .line ∧ s.rxEn = false)
      ∧ (let s := atTurn .line 0 ready;
        s.agent = .line ∧ s.rxEn = true ∧ s.rxc = false)
      ∧ (let s := atTurn .line 0 { ready with rxc := true };
        s.agent = .line ∧ s.rxEn = true ∧ s.rxc = true) := by decide

theorem witness_ltx :
    (let s := atTurn .line 0 { ready with txr := false };
      s.agent = .line ∧ s.txEn = true ∧ s.txr = false)
      ∧ (let s := atTurn .line 0 { start with txr := false };
        s.agent = .line ∧ s.txEn = false)
      ∧ (let s := atTurn .line 0 ready;
        s.agent = .line ∧ s.txr = true) := by decide

theorem witness_pin :
    ((15#8 : Byte).toNat < 8 * cfg.nports ∧ (0#8 : Byte).toNat < 8 * cfg.nports)
      ∧ ∀ k ∈ [0, 1, 2], ∀ pin ∈ [0#8, 15#8], let s := atTurn .main k (portOne 0x21 0xFF)
        s.agent = .main ∧ hostReady s = true ∧ pinOk s.cfg pin = true ∧ s.gpio.wf = true ∧ s.steps = k := by
  decide

/-- P2 waits while `OUT[1]` no longer holds the byte read at P1. -/
theorem witness_rmw_in_flight :
    ∀ op ∈ [RmwOp.high, .low, .dirin, .dirout, .setv 0, .setv 2, .toggle],
      ∀ pos ∈ [RmwAt.p1, .p2 0x01], let s := atTurn .main 1 { portOne 0x21 0xFF with main := .rmw op 13 pos }
        s.agent = .main ∧ noIsr s = true ∧ s.main = .rmw op 13 pos ∧ s.steps = 1 := by decide

theorem witness_pin_input : ({ portOne 0 0 with pinIn := [0x20] }).pinIn = [0x20] := by decide

theorem witness_pin_refused :
    let s := portOne 0 0
    hostReady s = true ∧ 0xFF#8 = s.cfg.noPin
      ∧ (16#8 : Byte) ≠ s.cfg.noPin ∧ 8 * s.cfg.nports ≤ (16#8 : Byte).toNat := by decide

theorem witness_frames :
    got (·.prod) (exec (.enq .tx 1#8) (atTurn .prod 1 start)) = some (.enq 1 .e2)
      ∧ got (·.cons) (exec (.deq .tx) (rbWith .cons 1 (ring 0 1 1 [1, 2, 3]))) = some (.deq .d2)
      ∧ got (·.consResp) (exec (.size .tx) (atTurn .cons 1 start)) = some (some 0x0000#16)
      ∧ got (·.main) (exec .read (rxWith 1 (ring 0 1 1 (eight 0)))) = some (.read (.rd1 .d2))
      ∧ got (·.main) (exec (.init 1#24) (atTurn .main 1 start)) = some (.init 1 .i2)
      ∧ got (·.main) (exec (.write 1#8) (atTurn .main 1 ready)) = some (.write 1 (.w2 1 false .e1))
      ∧ got (·.gie) (exec .gdis (atTurn .main 1 ready)) = some false
      ∧ got (·.main) (exec (.high 13#8) (portOne 0 0)) = some .idle := by decide

end Sys2Proof.Tests
end

/-! SUPPORT. The proofs about turns and sides (00_scope.md): how one step takes its turn, how the
micro-steps of an operation group into turns, and which agent may write which side of a ring. -/

namespace Sys2Proof.Machine

open Sys2Proof

/-! ### One step takes one turn -/

/-- A legal word at the head of the schedule is run by its turn's agent. -/
theorem step_of_legal {s : State} {t : Turn} {rest : List Turn} {i : Instr}
    (hs : s.sched = t :: rest) (hd : decode t.word = .instr i) :
    step s = exec i { s with sched := rest, agent := t.agent, steps := t.steps, above := t.above } := by
  simp [step, nextTurn, hs, hd]

/-- With no turn to take nothing moves. -/
theorem step_of_unscheduled {s : State} (hs : s.sched = []) : step s = .next s := by
  simp [step, nextTurn, hs]

/-- Settles O7: by the equation of a step for each form of the schedule. -/
theorem stepRunsDecodedInstruction : Obligations.StepRunsDecodedInstruction :=
  ⟨fun _ _ _ _ hs hd => step_of_legal hs hd, fun _ hs => step_of_unscheduled hs⟩

/-! ### A move keeps whose turn it is -/

theorem move_agent {i : Option Instr} {s t : State} (h : Move i s t) : t.agent = s.agent := by
  cases h <;> simp

theorem exec_agent {i : Instr} {s t : State} (h : exec i s = .next t) : t.agent = s.agent :=
  exec_keeps (P := fun x => x.agent = s.agent) (fun _ _ hm ha => (move_agent hm).trans ha) h rfl

/-! ### The sides of a ring -/

section
variable {α : Type} (n : Nat) (v : α) (b : RingBuf α)

/-- A producer's micro-step leaves the consumer's cursor alone. -/
@[simp] theorem enqMicro_head (e : EnqAt) : (enqMicro n v e b).1.head = b.head := by
  cases e <;> rfl

/-- A consumer's micro-step leaves the producer's cursor alone. -/
@[simp] theorem deqMicro_tail [Inhabited α] (d : DeqAt α) : (deqMicro n d b).1.tail = b.tail := by
  cases d <;> rfl

/-- A consumer's micro-step leaves the slots alone. -/
@[simp] theorem deqMicro_mem [Inhabited α] (d : DeqAt α) : (deqMicro n d b).1.mem = b.mem := by
  cases d <;> rfl

end

/-- What an agent leaves alone of a ring that `p` produces into and `c` consumes from (00_scope.md R9):
`tail` and the slots are the producer's to write, `head` the consumer's, `count` both sides'. -/
structure SidesKept {α : Type} (p c agent : Agent) (b b' : RingBuf α) : Prop where
  producer : agent ≠ p → b'.tail = b.tail ∧ b'.mem = b.mem
  consumer : agent ≠ c → b'.head = b.head
  shared : agent ≠ p → agent ≠ c → b'.count = b.count

namespace SidesKept
variable {α : Type} {p c agent : Agent} {b b' b'' : RingBuf α}

theorem of_eq (h : b' = b) : SidesKept p c agent b b' := by
  subst h
  exact ⟨fun _ => ⟨rfl, rfl⟩, fun _ => rfl, fun _ _ => rfl⟩

theorem of_producer (hhead : b'.head = b.head) : SidesKept p c p b b' :=
  ⟨fun hp => absurd rfl hp, fun _ => hhead, fun hp => absurd rfl hp⟩

theorem of_consumer (htail : b'.tail = b.tail) (hmem : b'.mem = b.mem) : SidesKept p c c b b' :=
  ⟨fun _ => ⟨htail, hmem⟩, fun hc => absurd rfl hc, fun _ hc => absurd rfl hc⟩

theorem trans (h : SidesKept p c agent b b') (h' : SidesKept p c agent b' b'') :
    SidesKept p c agent b b'' where
  producer hp := ⟨(h'.producer hp).1.trans (h.producer hp).1, (h'.producer hp).2.trans (h.producer hp).2⟩
  consumer hc := (h'.consumer hc).trans (h.consumer hc)
  shared hp hc := (h'.shared hp hc).trans (h.shared hp hc)

/-- Read the other way: whoever wrote a field is a side whose field it is. -/
theorem writers (h : SidesKept p c agent b b') :
    (b'.tail ≠ b.tail ∨ b'.mem ≠ b.mem → agent = p) ∧ (b'.head ≠ b.head → agent = c)
      ∧ (b'.count ≠ b.count → agent = p ∨ agent = c) := by
  refine ⟨fun hne => ?_, fun hne => ?_, fun hne => ?_⟩
  · by_contra hp
    obtain ⟨htail, hmem⟩ := h.producer hp
    exact hne.elim (· htail) (· hmem)
  · by_contra hc
    exact hne (h.consumer hc)
  · by_contra hpc
    obtain ⟨hp, hc⟩ := not_or.1 hpc
    exact hne (h.shared hp hc)

end SidesKept

/-- Between `s` and `t` each of the three rings was written only by the sides of the agent whose turn it
is in `s` (00_scope.md R9). -/
structure RingsKept (s t : State) : Prop where
  txb : SidesKept .main .htx s.agent s.txb t.txb
  rxb : SidesKept .hrx .main s.agent s.rxb t.rxb
  rb : SidesKept .prod .cons s.agent s.rb t.rb

theorem RingsKept.of_eq {s t : State} (htx : t.txb = s.txb) (hrx : t.rxb = s.rxb) (hrb : t.rb = s.rb) :
    RingsKept s t :=
  ⟨.of_eq htx, .of_eq hrx, .of_eq hrb⟩

theorem RingsKept.trans {s t u : State} (h : RingsKept s t) (ha : t.agent = s.agent)
    (h' : RingsKept t u) : RingsKept s u :=
  ⟨h.txb.trans (ha ▸ h'.txb), h.rxb.trans (ha ▸ h'.rxb), h.rb.trans (ha ▸ h'.rb)⟩

/-! ### What each agent's micro-step does to the rings -/

theorem mainMicro_rb (s : State) : (mainMicro s).rb = s.rb := by rw [mainMicro_frame]

/-- MAIN only produces into TXB and only consumes from RXB. -/
theorem mainMicro_sides (s : State) :
    (mainMicro s).txb.head = s.txb.head ∧ (mainMicro s).rxb.tail = s.rxb.tail
      ∧ (mainMicro s).rxb.mem = s.rxb.mem := by
  cases hm : s.main with
  | init _ pos => cases pos <;> simp [mainMicro, hm, initMicro]
  | write _ pos =>
    cases pos with
    | w4 lf => cases lf <;> simp [mainMicro, hm, writeMicro]
    | _ => simp [mainMicro, hm, writeMicro]
  | read pos => cases pos <;> simp [mainMicro, hm, readMicro]
  | rmw _ _ pos => cases pos <;> simp [mainMicro, hm, rmwMicro]
  | _ => simp [mainMicro, hm, getMicro]

theorem mainMicro_ringsKept {s : State} (ha : s.agent = .main) : RingsKept s (mainMicro s) :=
  have ⟨hhead, htail, hmem⟩ := mainMicro_sides s
  { txb := ha ▸ .of_producer hhead
    rxb := ha ▸ .of_consumer htail hmem
    rb := .of_eq (mainMicro_rb s) }

/-- HRX only produces into RXB. -/
theorem isrMicro_ringsKept_rx {s : State} {pos : RxAt} (ha : s.agent = .hrx) (h : s.isr = .rx pos) :
    RingsKept s (isrMicro s) where
  txb := .of_eq (by cases pos <;> simp [isrMicro, h, rxMicro])
  rxb := ha ▸ .of_producer (by cases pos <;> simp [isrMicro, h, rxMicro])
  rb := .of_eq (by rw [isrMicro_frame])

/-- HTX only consumes from TXB. -/
theorem isrMicro_ringsKept_tx {s : State} {pos : TxAt} (ha : s.agent = .htx) (h : s.isr = .tx pos) :
    RingsKept s (isrMicro s) where
  txb := ha ▸ .of_consumer (by cases pos <;> simp [isrMicro, h, txMicro])
    (by cases pos <;> simp [isrMicro, h, txMicro])
  rxb := .of_eq (by cases pos <;> simp [isrMicro, h, txMicro])
  rb := .of_eq (by rw [isrMicro_frame])

theorem isr_of_rxEnqueuing {s : State} {v : Byte} (h : rxEnqueuing s = some v) :
    ∃ e, s.isr = .rx (.h2 v e) := by
  unfold rxEnqueuing at h; split at h <;> simp_all

theorem isr_of_txDequeuing {s : State} (h : txDequeuing s = true) : ∃ d, s.isr = .tx (.t1 d) := by
  unfold txDequeuing at h; split at h <;> simp_all

theorem IsrBy.ringsKept {s : State} {i : Option Instr} (h : IsrBy s i) : RingsKept s (isrMicro s) := by
  cases h with
  | irqrx ha pos h => exact isrMicro_ringsKept_rx ha h
  | irqtx ha pos h => exact isrMicro_ringsKept_tx ha h
  | enq v ha h => obtain ⟨e, h⟩ := isr_of_rxEnqueuing h; exact isrMicro_ringsKept_rx ha h
  | deq ha h => obtain ⟨d, h⟩ := isr_of_txDequeuing h; exact isrMicro_ringsKept_tx ha h

/-- Port P only produces into the standalone RB. -/
theorem prodMicro_rb_head (s : State) : (prodMicro s).rb.head = s.rb.head := by
  cases hp : s.prod with
  | enq v e =>
    have hhead := enqMicro_head s.cfg.nRb v s.rb e
    simp only [prodMicro, hp]
    split <;> simp_all
  | _ => simp [prodMicro, hp]

/-- Port C only consumes from the standalone RB. -/
theorem consMicro_rb (s : State) :
    (consMicro s).rb.tail = s.rb.tail ∧ (consMicro s).rb.mem = s.rb.mem := by
  cases hc : s.cons with
  | deq d =>
    have htail := deqMicro_tail s.cfg.nRb s.rb d
    have hmem := deqMicro_mem s.cfg.nRb s.rb d
    simp only [consMicro, hc]
    split <;> simp_all
  | _ => simp [consMicro, hc]

theorem prodMicro_ringsKept {s : State} (ha : s.agent = .prod) : RingsKept s (prodMicro s) where
  txb := .of_eq (by rw [prodMicro_frame])
  rxb := .of_eq (by rw [prodMicro_frame])
  rb := ha ▸ .of_producer (prodMicro_rb_head s)

theorem consMicro_ringsKept {s : State} (ha : s.agent = .cons) : RingsKept s (consMicro s) where
  txb := .of_eq (by rw [consMicro_frame])
  rxb := .of_eq (by rw [consMicro_frame])
  rb := ha ▸ .of_consumer (consMicro_rb s).1 (consMicro_rb s).2

theorem ProdBy.agent {s : State} {i : Option Instr} (h : ProdBy s i) : s.agent = .prod := by
  cases h <;> assumption

theorem ConsBy.agent {s : State} {i : Option Instr} (h : ConsBy s i) : s.agent = .cons := by
  cases h <;> assumption

/-- Only the micro-steps write a ring, each on its agent's side. -/
theorem move_ringsKept {i : Option Instr} {s t : State} (h : Move i s t) : RingsKept s t := by
  cases h with
  | mainMicro _ _ h => exact mainMicro_ringsKept h.agent
  | isrMicro _ _ h => exact h.ringsKept
  | prodMicro _ _ h => exact prodMicro_ringsKept h.agent
  | consMicro _ _ h => exact consMicro_ringsKept h.agent
  | _ => exact .of_eq (by simp) (by simp) (by simp)

theorem exec_ringsKept {i : Instr} {s t : State} (h : exec i s = .next t) : RingsKept s t :=
  have keep (x y : State) (hm : Move (some i) x y) (hx : x.agent = s.agent ∧ RingsKept s x) :
      y.agent = s.agent ∧ RingsKept s y :=
    ⟨(move_agent hm).trans hx.1, hx.2.trans hx.1 (move_ringsKept hm)⟩
  (exec_keeps keep h ⟨rfl, .of_eq rfl rfl rfl⟩).2

/-- Settles O12: every move writes a ring on its agent's side only, so exec does. -/
theorem cursorsWrittenOnlyByTheirSide : Obligations.CursorsWrittenOnlyByTheirSide := by
  intro s t i h
  obtain ⟨htx, hrx, hrb⟩ := exec_ringsKept h
  obtain ⟨htxTail, htxHead, htxCount⟩ := htx.writers
  obtain ⟨hrxTail, hrxHead, hrxCount⟩ := hrx.writers
  exact ⟨htxTail, htxHead, htxCount, hrxTail, hrxHead, hrxCount, hrb.writers⟩

/-! ### The number of micro-steps a turn takes -/

/-- The same state at a turn of `k` micro-steps (log 2). -/
def withSteps (k : Nat) (s : State) : State := { s with steps := k }

@[simp] theorem withSteps_steps (k : Nat) (s : State) : (withSteps k s).steps = k := rfl
@[simp] theorem withSteps_agent (k : Nat) (s : State) : (withSteps k s).agent = s.agent := rfl
@[simp] theorem withSteps_main (k : Nat) (s : State) : (withSteps k s).main = s.main := rfl
@[simp] theorem withSteps_isr (k : Nat) (s : State) : (withSteps k s).isr = s.isr := rfl
@[simp] theorem withSteps_prod (k : Nat) (s : State) : (withSteps k s).prod = s.prod := rfl
@[simp] theorem withSteps_cons (k : Nat) (s : State) : (withSteps k s).cons = s.cons := rfl
@[simp] theorem withSteps_rb (k : Nat) (s : State) : (withSteps k s).rb = s.rb := rfl
@[simp] theorem withSteps_cfg (k : Nat) (s : State) : (withSteps k s).cfg = s.cfg := rfl
@[simp] theorem withSteps_pinIn (k : Nat) (s : State) : (withSteps k s).pinIn = s.pinIn := rfl
@[simp] theorem withSteps_withSteps (j k : Nat) (s : State) :
    withSteps j (withSteps k s) = withSteps j s := rfl
@[simp] theorem noIsr_withSteps (k : Nat) (s : State) : noIsr (withSteps k s) = noIsr s := rfl
@[simp] theorem inFlight_withSteps (k : Nat) (s : State) : inFlight (withSteps k s) = inFlight s := rfl

theorem samplePins_withSteps (k : Nat) (s : State) :
    samplePins (withSteps k s) = ((samplePins s).1, withSteps k (samplePins s).2) := by
  unfold samplePins
  rw [withSteps_pinIn]
  split <;> rfl

theorem getMicro_withSteps (k : Nat) (pin : Byte) (s : State) :
    getMicro pin (withSteps k s) = withSteps k (getMicro pin s) := by
  unfold getMicro
  rw [samplePins_withSteps]
  rfl

/-- No micro-step of MAIN looks at how many its turn takes. -/
theorem mainMicro_withSteps (k : Nat) (s : State) :
    mainMicro (withSteps k s) = withSteps k (mainMicro s) := by
  unfold mainMicro
  rw [withSteps_main]
  cases s.main with
  | init _ pos => cases pos <;> rfl
  | write _ pos =>
    cases pos with
    | w4 lf => cases lf <;> rfl
    | _ => rfl
  | read pos => cases pos <;> rfl
  | rmw _ _ pos => cases pos <;> rfl
  | get pin => exact getMicro_withSteps k pin s
  | _ => rfl

/-- No micro-step of a handler looks at how many its turn takes. -/
theorem isrMicro_withSteps (k : Nat) (s : State) :
    isrMicro (withSteps k s) = withSteps k (isrMicro s) := by
  unfold isrMicro
  rw [withSteps_isr]
  cases s.isr with
  | none => rfl
  | rx pos => cases pos <;> rfl
  | tx pos => cases pos <;> rfl

/-- No micro-step of port P looks at how many its turn takes. -/
theorem prodMicro_withSteps (k : Nat) (s : State) :
    prodMicro (withSteps k s) = withSteps k (prodMicro s) := by
  unfold prodMicro
  rw [withSteps_prod]
  cases s.prod with
  | enq v e => simp only [withSteps_cfg, withSteps_rb]; split <;> rfl
  | _ => rfl

/-- No micro-step of port C looks at how many its turn takes. -/
theorem consMicro_withSteps (k : Nat) (s : State) :
    consMicro (withSteps k s) = withSteps k (consMicro s) := by
  unfold consMicro
  rw [withSteps_cons]
  cases s.cons with
  | deq d => simp only [withSteps_cfg, withSteps_rb]; split <;> rfl
  | _ => rfl

/-- For `run`, a turn of `a` micro-steps and then one of `b` lead where one turn of `a + b` leads. -/
def Groups (run : Nat → State → State) : Prop :=
  ∀ a b s, run (a + b) (withSteps (a + b) s)
    = withSteps (a + b) (run b (withSteps b (run a (withSteps a s))))

section
variable {stop : State → Bool} {micro : State → State}
  (hstop : ∀ k s, stop (withSteps k s) = stop s)
  (hmicro : ∀ k s, micro (withSteps k s) = withSteps k (micro s))
include hstop hmicro

/-- What a burst does is the same whatever number of micro-steps the state says its turn takes. -/
theorem burst_withSteps (j k : Nat) (s : State) :
    burst stop micro j (withSteps k s) = withSteps k (burst stop micro j s) := by
  induction j generalizing s with
  | zero => rfl
  | succ j ih => cases hs : stop s <;> simp [burst_succ, hstop, hs, hmicro, ih]

/-- A turn of `a` micro-steps and then one of `b` are one of `a + b`. -/
theorem burst_groups : Groups (burst stop micro) := fun a b s => by
  simp [burst_withSteps hstop hmicro, burst_add]

end

theorem runMain_groups : Groups runMain := burst_groups (fun _ _ => rfl) mainMicro_withSteps
theorem runIsr_groups : Groups runIsr := burst_groups (fun _ _ => rfl) isrMicro_withSteps
theorem runProd_groups : Groups runProd := burst_groups (fun _ _ => rfl) prodMicro_withSteps
theorem runCons_groups : Groups runCons := burst_groups (fun _ _ => rfl) consMicro_withSteps

/-! ### What an admission answers, case by case -/

section
variable {i : Instr} {first : Main} {bar : Option Refusal} {s : State}

/-- While a handler is in service MAIN's turn passes (10_state.md R40). -/
theorem byMain_frozen (ha : s.agent = .main) (hn : noIsr s = false) :
    byMain i first bar s = .next s := by
  simp [byMain, ha, hn]

/-- A request on an idle port H is presented and takes the turn's micro-steps. -/
theorem byMain_idle (ha : s.agent = .main) (hn : noIsr s = true) (hf : inFlight s = none) :
    byMain i first none s = .next (runMain s.steps (presentMain first s)) := by
  simp [byMain, ha, hn, hf]

/-- A request with no meaning is refused at its presentation. -/
theorem byMain_barred {why : Refusal} (ha : s.agent = .main) (hn : noIsr s = true)
    (hf : inFlight s = none) : byMain i first (some why) s = .refused why := by
  simp [byMain, ha, hn, hf]

/-- The operation in flight goes on, whatever its precondition would say now (log 24). -/
theorem byMain_inFlight (ha : s.agent = .main) (hn : noIsr s = true) (hf : inFlight s = some i) :
    byMain i first bar s = .next (runMain s.steps s) := by
  simp [byMain, ha, hn, hf]

/-- Another operation in flight has port H busy (log 4). -/
theorem byMain_busy {j : Instr} (ha : s.agent = .main) (hn : noIsr s = true)
    (hf : inFlight s = some j) (hj : j ≠ i) : byMain i first bar s = .refused .portBusy := by
  simp [byMain, ha, hn, hf, hj]

end

section
variable {first : ProdOp} {s : State}

theorem byProd_idle (h : prodIdle s = true) :
    byProd first s = .next (runProd s.steps (presentProd first s)) := by
  simp [byProd, h]

theorem byProd_inFlight (h : prodIdle s = false) (hf : s.prod.first = first) :
    byProd first s = .next (runProd s.steps s) := by
  simp [byProd, h, hf]

theorem byProd_busy (h : prodIdle s = false) (hf : s.prod.first ≠ first) :
    byProd first s = .refused .portBusy := by
  simp [byProd, h, hf]

end

section
variable {first : ConsOp} {s : State}

theorem byCons_idle (h : consIdle s = true) :
    byCons first s = .next (runCons s.steps (presentCons first s)) := by
  simp [byCons, h]

theorem byCons_inFlight (h : consIdle s = false) (hf : s.cons.first = first) :
    byCons first s = .next (runCons s.steps s) := by
  simp [byCons, h, hf]

theorem byCons_busy (h : consIdle s = false) (hf : s.cons.first ≠ first) :
    byCons first s = .refused .portBusy := by
  simp [byCons, h, hf]

end

section
variable {s : State}

theorem execIrqrx_enter (ha : s.agent = .hrx) (hi : s.isr = .none) (he : rxMayEnter s = true) :
    execIrqrx s = .next (runIsr s.steps (enterHandler (.rx .h1) s)) := by
  simp [execIrqrx, ha, hi, he]

theorem execIrqrx_inService {pos : RxAt} (ha : s.agent = .hrx) (hi : s.isr = .rx pos) :
    execIrqrx s = .next (runIsr s.steps s) := by
  simp [execIrqrx, ha, hi]

/-- HRX neither in service nor to be entered has no step (log 3). -/
theorem execIrqrx_none (ha : s.agent = .hrx) (hi : ∀ pos, s.isr ≠ .rx pos)
    (he : s.isr = .none → rxMayEnter s = false) : execIrqrx s = .next s := by
  cases h : s.isr with
  | none => simp [execIrqrx, ha, h, he h]
  | rx pos => exact absurd h (hi pos)
  | tx pos => simp [execIrqrx, ha, h]

theorem execIrqtx_enter (ha : s.agent = .htx) (hi : s.isr = .none) (he : txMayEnter s = true) :
    execIrqtx s = .next (runIsr s.steps (enterHandler (.tx (.t1 .d1)) s)) := by
  simp [execIrqtx, ha, hi, he]

theorem execIrqtx_inService {pos : TxAt} (ha : s.agent = .htx) (hi : s.isr = .tx pos) :
    execIrqtx s = .next (runIsr s.steps s) := by
  simp [execIrqtx, ha, hi]

/-- HTX neither in service nor to be entered has no step (log 3). -/
theorem execIrqtx_none (ha : s.agent = .htx) (hi : ∀ pos, s.isr ≠ .tx pos)
    (he : s.isr = .none → txMayEnter s = false) : execIrqtx s = .next s := by
  cases h : s.isr with
  | none => simp [execIrqtx, ha, h, he h]
  | rx pos => simp [execIrqtx, ha, h]
  | tx pos => exact absurd h (hi pos)

/-- While a handler is in service a word MAIN's port does not accept is not answered. -/
theorem notAccepted_frozen (ha : s.agent = .main) (hn : noIsr s = false) : notAccepted s = .next s := by
  simp [notAccepted, answerIllegal, ha, hn]

/-- While a handler is in service MAIN's turn passes, whatever its word (10_state.md R40). -/
theorem exec_frozen (i : Instr) (ha : s.agent = .main) (hn : noIsr s = false) : exec i s = .next s := by
  have hb (j : Instr) (first : Main) (bar : Option Refusal) : byMain j first bar s = .next s :=
    byMain_frozen ha hn
  have hno := notAccepted_frozen ha hn
  cases i with
  | enq => simp [exec, execEnq, ha, hn, hno]
  | deq => simp [exec, execDeq, ha, hn, hno]
  | size => simp [exec, execSize, ha, hn, hno]
  | irqrx => simp [exec, execIrqrx, ha, hno]
  | irqtx => simp [exec, execIrqtx, ha, hno]
  | lrx => simp [exec, execLrx, ha, hno]
  | ltx => simp [exec, execLtx, ha, hno]
  | init baud =>
    by_cases h0 : baud = 0#24
    · simp [exec, execInit, h0, hno]
    · simp [exec, execInit, h0, hb]
  | write | read | tsize | gien | gdis | get | high | low | dirin | dirout | setv | toggle =>
    exact hb _ _ _

end

/-! ### Requests and their ports -/

theorem exec_rmwInstr (op : RmwOp) (pin : Byte) (s : State) :
    exec (rmwInstr op pin) s = byRmw op pin s := by
  cases op <;> rfl

/-- Port P performs ENQ with `sel` 0. -/
theorem exec_enq_of_prod {s : State} {v : Byte} (ha : s.agent = .prod) :
    exec (.enq .tx v) s = byProd (.enq (enqElement s v) .e1) s := by
  simp [exec, execEnq, ha]

/-- Port C performs DEQ with `sel` 0. -/
theorem exec_deq_of_cons {s : State} (ha : s.agent = .cons) :
    exec (.deq .tx) s = byCons (.deq .d1) s := by
  simp [exec, execDeq, ha]

/-- Port P answers SIZE with `sel` 0. -/
theorem exec_size_of_prod {s : State} (ha : s.agent = .prod) :
    exec (.size .tx) s = byProd .size s := by
  simp [exec, execSize, ha]

/-- Port C answers SIZE with `sel` 0. -/
theorem exec_size_of_cons {s : State} (ha : s.agent = .cons) :
    exec (.size .tx) s = byCons .size s := by
  simp [exec, execSize, ha]

/-! ### Turns only group micro-steps -/

/-- A turn of `i` from `s`, once its request is presented or its handler entered, and a turn of `i` from `t`
take the same micro-steps, however many the turn has (log 2). -/
def RunsFrom (i : Instr) (s t : State) : Prop :=
  ∃ (run : Nat → State → State) (begun : State), Groups run
    ∧ (∀ k, exec i (withSteps k s) = .next (run k (withSteps k begun)))
    ∧ ∀ k, exec i (withSteps k t) = .next (run k (withSteps k t))

/-- Where the first turn leads to a state the operation goes on from, the second turn is the rest of one
longer turn. -/
theorem RunsFrom.group {i : Instr} {s t u : State} {a b : Nat} (hr : RunsFrom i s t)
    (h : exec i (withSteps a s) = .next t) (h' : exec i (withSteps b t) = .next u) :
    exec i (withSteps (a + b) s) = .next (withSteps (a + b) u) := by
  obtain ⟨run, begun, hgroup, hbegin, hon⟩ := hr
  cases (hbegin a).symm.trans h
  cases (hon b).symm.trans h'
  rw [hbegin, hgroup]

section
variable {i : Instr} {s t : State} {a : Nat}

/-- A frozen MAIN stays where it is, turn by turn. -/
theorem runsFrom_of_frozen (ha : s.agent = .main) (hn : noIsr s = false)
    (h : exec i (withSteps a s) = .next t) : RunsFrom i s t := by
  have hpass (x : State) (hx : x.agent = .main) (hnx : noIsr x = false) (k : Nat) :
      exec i (withSteps k x) = .next (withSteps k x) :=
    exec_frozen i hx hnx
  cases (hpass s ha hn a).symm.trans h
  exact ⟨fun _ x => x, s, fun _ _ _ => rfl, hpass s ha hn, hpass _ ha hn⟩

theorem noIsr_runMain (k : Nat) (s : State) : noIsr (runMain k s) = noIsr s :=
  burst_induction (P := fun x => noIsr x = noIsr s) (fun x _ h => (noIsr_mainMicro x).trans h) k rfl

/-- An operation of port H that MAIN has in flight after its turn. -/
theorem runsFrom_of_byMain {first : Main} {bar : State → Option Refusal}
    (hexec : ∀ x, exec i x = byMain i first (bar x) x) (hbar : ∀ k x, bar (withSteps k x) = bar x)
    (ha : s.agent = .main) (hn : noIsr s = true) (h : exec i (withSteps a s) = .next t)
    (hf : inFlight t = some i) : RunsFrom i s t := by
  obtain ⟨begun, hnb, hbegin⟩ : ∃ begun, noIsr begun = true
      ∧ ∀ k, exec i (withSteps k s) = .next (runMain k (withSteps k begun)) := by
    rw [hexec, hbar] at h
    simp only [hexec, hbar]
    cases hs : inFlight s with
    | none =>
      cases hb : bar s with
      | none => exact ⟨presentMain first s, hn, fun k => byMain_idle ha hn hs⟩
      | some why =>
        rw [hb] at h
        exact nomatch (byMain_barred (s := withSteps a s) ha hn hs).symm.trans h
    | some j =>
      by_cases hj : j = i
      · exact ⟨s, hn, fun k => byMain_inFlight ha hn (hj ▸ hs)⟩
      · exact nomatch (byMain_busy (s := withSteps a s) ha hn hs hj).symm.trans h
  have hat := exec_agent h
  cases (hbegin a).symm.trans h
  exact ⟨runMain, begun, runMain_groups, hbegin, fun k =>
    (hexec _).trans (byMain_inFlight (hat.trans ha) ((noIsr_runMain _ _).trans hnb) hf)⟩

/-- A word that MAIN's port answers `ILLEGAL` leaves MAIN idle. -/
theorem inFlight_of_notAccepted (ha : s.agent = .main) (hn : noIsr s = true)
    (h : notAccepted s = .next t) : inFlight t = none := by
  cases hm : mainIdle s with
  | false => simp [notAccepted, answerIllegal, ha, hn, hm] at h
  | true =>
    simp only [notAccepted, answerIllegal, ha, hn, hm, if_true] at h
    cases h
    exact (inFlight_eq_none _).2 hm

/-- INIT; with `baud` 0 its word is not accepted, so it is never in flight. -/
theorem runsFrom_of_init {baud : BitVec 24} (ha : s.agent = .main) (hn : noIsr s = true)
    (h : exec (.init baud) (withSteps a s) = .next t) (hf : inFlight t = some (.init baud)) :
    RunsFrom (.init baud) s t := by
  by_cases h0 : baud = 0#24
  · have hno : notAccepted (withSteps a s) = .next t := (if_pos h0).symm.trans h
    exact nomatch (inFlight_of_notAccepted (s := withSteps a s) ha hn hno).symm.trans hf
  · exact runsFrom_of_byMain (bar := fun _ => none) (fun _ => if_neg h0) (fun _ _ => rfl) ha hn h hf

/-- Every operation of port H that MAIN has in flight after its turn. -/
theorem runsFrom_of_inFlight (hi : presenter i = .main) (ha : s.agent = .main)
    (h : exec i (withSteps a s) = .next t) (hf : inFlight t = some i) : RunsFrom i s t := by
  cases hn : noIsr s with
  | false => exact runsFrom_of_frozen ha hn h
  | true =>
    cases i with
    | enq | deq | size | irqrx | irqtx | lrx | ltx => cases hi
    | init baud => exact runsFrom_of_init ha hn h hf
    | write | read | tsize | gien | gdis | get | high | low | dirin | dirout | setv | toggle =>
      exact runsFrom_of_byMain (fun _ => rfl) (fun _ _ => rfl) ha hn h hf

/-- An operation of port P that is in flight after its turn. -/
theorem runsFrom_of_byProd {first : State → ProdOp}
    (hexec : ∀ x, x.agent = .prod → exec i x = byProd (first x) x)
    (hfirst : ∀ k x, first (withSteps k x) = first x) (ha : s.agent = .prod)
    (h : exec i (withSteps a s) = .next t) (hp : prodIdle t = false)
    (hf : t.prod.first = first t) : RunsFrom i s t := by
  obtain ⟨begun, hbegin⟩ : ∃ begun, ∀ k,
      exec i (withSteps k s) = .next (runProd k (withSteps k begun)) := by
    have hexec' (k : Nat) : exec i (withSteps k s) = byProd (first s) (withSteps k s) := by
      rw [hexec (withSteps k s) ha, hfirst]
    rw [hexec'] at h
    simp only [hexec']
    cases hs : prodIdle s with
    | true => exact ⟨presentProd (first s) s, fun k => byProd_idle hs⟩
    | false =>
      by_cases hfs : s.prod.first = first s
      · exact ⟨s, fun k => byProd_inFlight hs hfs⟩
      · exact nomatch (byProd_busy (s := withSteps a s) hs hfs).symm.trans h
  refine ⟨runProd, begun, runProd_groups, hbegin, fun k => ?_⟩
  rw [hexec (withSteps k t) ((exec_agent h).trans ha), hfirst]
  exact byProd_inFlight hp hf

/-- An operation of port C that is in flight after its turn. -/
theorem runsFrom_of_byCons {first : ConsOp}
    (hexec : ∀ x, x.agent = .cons → exec i x = byCons first x) (ha : s.agent = .cons)
    (h : exec i (withSteps a s) = .next t) (hc : consIdle t = false) (hf : t.cons.first = first) :
    RunsFrom i s t := by
  obtain ⟨begun, hbegin⟩ : ∃ begun, ∀ k,
      exec i (withSteps k s) = .next (runCons k (withSteps k begun)) := by
    have hexec' (k : Nat) : exec i (withSteps k s) = byCons first (withSteps k s) :=
      hexec (withSteps k s) ha
    rw [hexec'] at h
    simp only [hexec']
    cases hs : consIdle s with
    | true => exact ⟨presentCons first s, fun k => byCons_idle hs⟩
    | false =>
      by_cases hfs : s.cons.first = first
      · exact ⟨s, fun k => byCons_inFlight hs hfs⟩
      · exact nomatch (byCons_busy (s := withSteps a s) hs hfs).symm.trans h
  refine ⟨runCons, begun, runCons_groups, hbegin, fun k => ?_⟩
  rw [hexec (withSteps k t) ((exec_agent h).trans ha)]
  exact byCons_inFlight hc hf

/-- HRX in service after its turn was in service before, or was entered. -/
theorem runsFrom_of_rx {pos : RxAt} (ha : s.agent = .hrx)
    (h : exec .irqrx (withSteps a s) = .next t) (ht : t.isr = .rx pos) : RunsFrom .irqrx s t := by
  have hon (k : Nat) : exec .irqrx (withSteps k t) = .next (runIsr k (withSteps k t)) :=
    execIrqrx_inService ((exec_agent h).trans ha) ht
  by_cases hs : ∃ pos, s.isr = .rx pos
  · obtain ⟨pos, hs⟩ := hs
    exact ⟨runIsr, s, runIsr_groups, fun _ => execIrqrx_inService ha hs, hon⟩
  · by_cases he : s.isr = .none ∧ rxMayEnter s = true
    · exact ⟨runIsr, enterHandler (.rx .h1) s, runIsr_groups,
        fun _ => execIrqrx_enter ha he.1 he.2, hon⟩
    · have hpass := execIrqrx_none (s := withSteps a s) ha (not_exists.1 hs)
        fun hn => Bool.eq_false_iff.2 fun hm => he ⟨hn, hm⟩
      cases hpass.symm.trans h
      exact absurd ⟨pos, ht⟩ hs

/-- HTX in service after its turn was in service before, or was entered. -/
theorem runsFrom_of_tx {pos : TxAt} (ha : s.agent = .htx)
    (h : exec .irqtx (withSteps a s) = .next t) (ht : t.isr = .tx pos) : RunsFrom .irqtx s t := by
  have hon (k : Nat) : exec .irqtx (withSteps k t) = .next (runIsr k (withSteps k t)) :=
    execIrqtx_inService ((exec_agent h).trans ha) ht
  by_cases hs : ∃ pos, s.isr = .tx pos
  · obtain ⟨pos, hs⟩ := hs
    exact ⟨runIsr, s, runIsr_groups, fun _ => execIrqtx_inService ha hs, hon⟩
  · by_cases he : s.isr = .none ∧ txMayEnter s = true
    · exact ⟨runIsr, enterHandler (.tx (.t1 .d1)) s, runIsr_groups,
        fun _ => execIrqtx_enter ha he.1 he.2, hon⟩
    · have hpass := execIrqtx_none (s := withSteps a s) ha (not_exists.1 hs)
        fun hn => Bool.eq_false_iff.2 fun hm => he ⟨hn, hm⟩
      cases hpass.symm.trans h
      exact absurd ⟨pos, ht⟩ hs

/-- Port P's operation, known by its first position, is in flight. -/
theorem prodIdle_of_first (h : t.prod.first ≠ .idle) : prodIdle t = false :=
  Bool.eq_false_iff.2 fun hp => h (by rw [(prodIdle_eq t).1 hp]; rfl)

/-- Port C's operation, known by its first position, is in flight. -/
theorem consIdle_of_first (h : t.cons.first ≠ .idle) : consIdle t = false :=
  Bool.eq_false_iff.2 fun hc => h (by rw [(consIdle_eq t).1 hc]; rfl)

/-- Whatever operation a turn leaves under way runs from where the turn began. -/
theorem runsFrom_of_goesOn (h : exec i (withSteps a s) = .next t) (hgo : goesOn i t = true) :
    RunsFrom i s t := by
  have hagent : t.agent = s.agent := exec_agent (s := withSteps a s) h
  cases i with
  | lrx | ltx => cases hgo
  | irqrx =>
    simp only [goesOn, Bool.and_eq_true, beq_iff_eq] at hgo
    obtain ⟨ha, hisr⟩ := hgo
    cases ht : t.isr with
    | rx pos => exact runsFrom_of_rx (hagent ▸ ha) h ht
    | none | tx => simp [ht] at hisr
  | irqtx =>
    simp only [goesOn, Bool.and_eq_true, beq_iff_eq] at hgo
    obtain ⟨ha, hisr⟩ := hgo
    cases ht : t.isr with
    | tx pos => exact runsFrom_of_tx (hagent ▸ ha) h ht
    | none | rx => simp [ht] at hisr
  | enq sel v =>
    simp only [goesOn, Bool.and_eq_true, beq_iff_eq] at hgo
    obtain ⟨⟨ha, rfl⟩, hf⟩ := hgo
    exact runsFrom_of_byProd (first := fun x => .enq (enqElement x v) .e1)
      (fun _ => exec_enq_of_prod) (fun _ _ => rfl) (hagent ▸ ha) h
      (prodIdle_of_first (by simp [hf])) hf
  | deq sel =>
    simp only [goesOn, Bool.and_eq_true, beq_iff_eq] at hgo
    obtain ⟨⟨ha, rfl⟩, hf⟩ := hgo
    exact runsFrom_of_byCons (fun _ => exec_deq_of_cons) (hagent ▸ ha) h
      (consIdle_of_first (by simp [hf])) hf
  | size sel =>
    simp only [goesOn, Bool.and_eq_true, Bool.or_eq_true, beq_iff_eq] at hgo
    obtain ⟨rfl, ⟨ha, hf⟩ | ⟨ha, hf⟩⟩ := hgo
    · exact runsFrom_of_byProd (first := fun _ => .size) (fun _ => exec_size_of_prod) (fun _ _ => rfl)
        (hagent ▸ ha) h (prodIdle_of_first (by simp [hf, ProdOp.first])) (by rw [hf]; rfl)
    · exact runsFrom_of_byCons (fun _ => exec_size_of_cons) (hagent ▸ ha) h
        (consIdle_of_first (by simp [hf, ConsOp.first])) (by rw [hf]; rfl)
  | init | write | read | tsize | gien | gdis | get | high | low | dirin | dirout | setv | toggle =>
    simp only [goesOn, Bool.and_eq_true, beq_iff_eq] at hgo
    exact runsFrom_of_inFlight rfl (hagent ▸ hgo.1) h hgo.2

end

/-! ### A turn of no micro-step -/

section
variable {s : State}

/-- A request on a ready port H is only presented by a turn of no micro-step. -/
theorem byMain_presents {i : Instr} {first : Main} {bar : Option Refusal} (hready : hostReady s = true)
    (hsteps : s.steps = 0) (hbar : bar = none) :
    byMain i first bar s = .next (presentMain first s) := by
  simp only [hostReady, Bool.and_eq_true, beq_iff_eq] at hready
  obtain ⟨⟨ha, hn⟩, hm⟩ := hready
  subst hbar
  rw [byMain_idle ha hn ((inFlight_eq_none s).2 hm), hsteps]
  rfl

theorem byProd_presents {first : ProdOp} (hp : s.prod = .idle) (hsteps : s.steps = 0) :
    byProd first s = .next (presentProd first s) := by
  rw [byProd_idle ((prodIdle_eq s).2 hp), hsteps]
  rfl

theorem byCons_presents {first : ConsOp} (hc : s.cons = .idle) (hsteps : s.steps = 0) :
    byCons first s = .next (presentCons first s) := by
  rw [byCons_idle ((consIdle_eq s).2 hc), hsteps]
  rfl

theorem lifecycleBar_of_ready (h : s.st = .ready) : lifecycleBar s = none := by
  simp [lifecycleBar, h]

theorem pinBar_of_pinOk {c : Config} {pin : Byte} (h : pinOk c pin = true) : pinBar c pin = none := by
  simp only [pinOk, Bool.and_eq_true, bne_iff_ne, decide_eq_true_eq] at h
  rw [pinBar, if_neg h.1, if_neg (Nat.not_le.2 h.2)]

end

/-- Settles O44: an operation runs from where its first turn began by bursts, and two bursts in a row
are one; a turn of no micro-step is the presentation alone. -/
theorem turnsOnlyGroupMicroSteps : Obligations.TurnsOnlyGroupMicroSteps := by
  refine ⟨fun i s t u a b h hgo h' => (runsFrom_of_goesOn h hgo).group h h', fun s h0 =>
    ⟨fun hr => ⟨fun baud hb => ?init, fun hst v => ?write, fun hst => ?read, fun sel => ?tsize, ?gien,
      ?gdis, fun pin hpin => ⟨?get, fun op => ?rmw⟩⟩,
    fun ha hp => ⟨fun val => ?enq, ?sizeP⟩, fun ha hc => ⟨?deq, ?sizeC⟩⟩⟩
  case init => exact (if_neg hb).trans (byMain_presents hr h0 rfl)
  case write => exact byMain_presents hr h0 (lifecycleBar_of_ready hst)
  case read => exact byMain_presents hr h0 (lifecycleBar_of_ready hst)
  case tsize => exact byMain_presents hr h0 rfl
  case gien => exact byMain_presents hr h0 rfl
  case gdis => exact byMain_presents hr h0 rfl
  case get => exact byMain_presents hr h0 (pinBar_of_pinOk hpin)
  case rmw => exact (exec_rmwInstr op pin s).trans (byMain_presents hr h0 (pinBar_of_pinOk hpin))
  case enq => exact (exec_enq_of_prod ha).trans (byProd_presents hp h0)
  case sizeP => exact (exec_size_of_prod ha).trans (byProd_presents hp h0)
  case deq => exact (exec_deq_of_cons ha).trans (byCons_presents hc h0)
  case sizeC => exact (exec_size_of_cons ha).trans (byCons_presents hc h0)

end Sys2Proof.Machine

/-! SUPPORT. The proofs about the state (10_state.md): what every step keeps of the three rings, the GPIO
space and the parameters, who writes each flag, the reset state, and the frozen mainline. -/

namespace Sys2Proof.Machine

open Sys2Proof

/-! ### One micro-step of a ring primitive keeps the ring's invariant (40_ring_buffer.md R135) -/

section
variable {α : Type} [Inhabited α] {n : Nat} {b : RingBuf α} {v : α}
  {p : Option (α × EnqAt)} {c : Option (DeqAt α)}

/-- A producer at E1 asks nothing more of the ring than no producer does. -/
theorem ringOk_producer_e1 : RingOk n b (some (v, .e1)) c ↔ RingOk n b none c := by
  constructor <;> intro h <;>
    exact { h with room := nofun, cursors := h.cursors, stored := nofun }

/-- A consumer at D1 asks nothing more of the ring than no consumer does. -/
theorem ringOk_consumer_d1 : RingOk n b p (some .d1) ↔ RingOk n b p none := by
  constructor <;> intro h <;>
    exact { h with element := nofun, cursors := h.cursors, copied := nofun }

/-- While the producer stands at E2 the slot it is about to write lies outside the elements between the
cursors. -/
theorem RingOk.tail_not_between (h : RingOk n b (some (v, .e2)) c) {k : Nat}
    (hk : k < between b (some (v, .e2)) c) : (b.head.toNat + k) % n ≠ b.tail.toNat := by
  intro heq
  have hroom : b.count.toNat < n := h.room rfl
  have hk : k + unreleased c < b.count.toNat := by
    simp only [between, unpublished] at hk
    omega
  have hmod : b.head.toNat + (k + unreleased c) ≡ b.head.toNat + b.count.toNat [MOD n] :=
    calc (b.head.toNat + (k + unreleased c)) % n
        = ((b.head.toNat + k) % n + unreleased c) % n := by rw [Nat.mod_add_mod, Nat.add_assoc]
      _ = (b.tail.toNat + unreleased c) % n := by rw [heq]
      _ = (b.head.toNat + b.count.toNat) % n := h.cursors.symm
  have := (Nat.ModEq.add_left_cancel' _ hmod).eq_of_lt_of_lt (by omega) hroom
  omega

/-- A producer at E2 does not write the slot a consumer at D3 has copied. -/
theorem RingOk.head_ne_tail {w : α} (h : RingOk n b (some (v, .e2)) (some (.d3 w))) :
    b.head.toNat ≠ b.tail.toNat := by
  have hne := h.tail_not_between (k := 0) (by simpa [between, unpublished, unreleased] using h.element rfl)
  rwa [Nat.add_zero, Nat.mod_eq_of_lt h.head] at hne

/-- Each micro-step of ENQ keeps the ring's invariant, wherever the consumer stands. -/
theorem RingOk.after_enqMicro (hn : n ≤ 255) {e : EnqAt} (h : RingOk n b (some (v, e)) c) :
    RingOk n (enqMicro n v e b).1 (afterEnqMicro v (enqMicro n v e b).2) c := by
  cases e with
  | e1 =>
    by_cases hfull : b.count.toNat = n
    · rw [enqMicro_e1_full hfull]
      exact ringOk_producer_e1.1 h
    · rw [enqMicro_e1_room hfull]
      exact { h with
        room := fun _ => lt_of_le_of_ne h.count hfull, cursors := h.cursors, stored := nofun }
  | e2 =>
    have htail : b.tail.toNat < b.mem.length := h.size ▸ h.tail
    exact { h with
      size := (slotWrite_length _).trans h.size, cursors := h.cursors
      stored := fun w hw => by cases hw; exact slotAt_slotWrite_same _ htail
      copied := fun w hw => by
        subst hw
        exact (slotAt_slotWrite_other _ h.head_ne_tail).trans (h.copied w rfl) }
  | e3 =>
    exact { h with
      tail := advance_lt hn h.tail, stored := nofun
      cursors := by
        rw [enqMicro_e3, advance_toNat hn h.tail, Nat.mod_add_mod, Nat.add_right_comm b.tail.toNat]
        exact Nat.ModEq.add_right 1 h.cursors }
  | e4 =>
    have hroom : b.count.toNat < n := h.room rfl
    have hcount : (b.count + 1#8).toNat = b.count.toNat + 1 := count_succ (by omega)
    exact { h with
      count := hcount ▸ hroom, room := nofun, stored := nofun
      element := fun _ => hcount ▸ Nat.succ_pos _
      cursors := by rw [enqMicro_e4, hcount]; exact h.cursors }

/-- Each micro-step of DEQ keeps the ring's invariant, wherever the producer stands. -/
theorem RingOk.after_deqMicro (hn : n ≤ 255) {d : DeqAt α} (h : RingOk n b p (some d)) :
    RingOk n (deqMicro n d b).1 p (afterDeqMicro (deqMicro n d b).2) := by
  cases d with
  | d1 =>
    by_cases hempty : b.count = 0#8
    · rw [deqMicro_d1_empty hempty]
      exact ringOk_consumer_d1.1 h
    · rw [deqMicro_d1_some hempty]
      exact { h with
        element := fun _ => Nat.pos_of_ne_zero fun h0 => hempty (BitVec.eq_of_toNat_eq h0)
        cursors := h.cursors, copied := nofun }
  | d2 =>
    exact { h with cursors := h.cursors, copied := fun w hw => by cases hw; rfl }
  | d3 w =>
    exact { h with
      head := advance_lt hn h.head, copied := nofun
      cursors := by
        rw [deqMicro_d3, advance_toNat hn h.head, Nat.add_assoc, Nat.mod_add_mod, Nat.add_right_comm,
          ← Nat.add_assoc]
        exact Nat.ModEq.add_right 1 h.cursors }
  | d4 w =>
    have hpos : 0 < b.count.toNat := h.element rfl
    have hcount : (b.count - 1#8).toNat = b.count.toNat - 1 := count_pred hpos
    exact { h with
      count := hcount ▸ (Nat.sub_le _ _).trans h.count, element := nofun, copied := nofun
      room := fun hp => hcount ▸ (Nat.sub_le _ _).trans_lt (h.room hp)
      cursors := by
        have hcursors : b.head.toNat + (b.count.toNat - 1) + unpublished p + 1
            ≡ b.tail.toNat + 1 [MOD n] := by
          rw [show b.head.toNat + (b.count.toNat - 1) + unpublished p + 1
            = b.head.toNat + b.count.toNat + unpublished p by omega]
          exact h.cursors
        rw [deqMicro_d4, hcount]
        exact Nat.ModEq.add_right_cancel' 1 hcursors }

end

/-! ### The two halves of the machine's invariant -/

/-- The transport's part of `Inv`: its two rings, the data register HTX is to write, the GPIO space. -/
structure TransportOk (s : State) : Prop where
  txb : RingOk s.cfg.nTx s.txb (txbProducer s) (txbConsumer s)
  rxb : RingOk s.cfg.nRx s.rxb (rxbProducer s) (rxbConsumer s)
  free : txBeforeWrite s = true → s.txr = true
  gpio : s.gpio.wf = true

/-- The standalone RB's part of `Inv`. -/
structure StandaloneOk (s : State) : Prop where
  rb : RingOk s.cfg.nRb s.rb (rbProducer s) (rbConsumer s)
  fits : ElementsFit s

theorem inv_iff (s : State) : Inv s ↔ s.cfg.wf = true ∧ TransportOk s ∧ StandaloneOk s :=
  ⟨fun h => ⟨h.cfg, ⟨h.txb, h.rxb, h.free, h.gpio⟩, ⟨h.rb, h.fits⟩⟩,
    fun ⟨hcfg, ht, hs⟩ => ⟨hcfg, ht.txb, ht.rxb, hs.rb, hs.fits, ht.free, ht.gpio⟩⟩

section
variable {s t : State}

theorem txbProducer_congr (h : t.main = s.main) : txbProducer t = txbProducer s := by
  simp only [txbProducer, h]

theorem txbConsumer_congr (h : t.isr = s.isr) : txbConsumer t = txbConsumer s := by
  simp only [txbConsumer, h]

theorem rxbProducer_congr (h : t.isr = s.isr) : rxbProducer t = rxbProducer s := by
  simp only [rxbProducer, h]

theorem rxbConsumer_congr (h : t.main = s.main) : rxbConsumer t = rxbConsumer s := by
  simp only [rxbConsumer, h]

theorem txBeforeWrite_congr (h : t.isr = s.isr) : txBeforeWrite t = txBeforeWrite s := by
  simp only [txBeforeWrite, h]

theorem rbProducer_congr (h : t.prod = s.prod) : rbProducer t = rbProducer s := by
  simp only [rbProducer, h]

theorem rbConsumer_congr (h : t.cons = s.cons) : rbConsumer t = rbConsumer s := by
  simp only [rbConsumer, h]

/-- What leaves the transport's fields alone leaves its invariant. -/
theorem TransportOk.congr (h : TransportOk s) (hcfg : t.cfg = s.cfg := by simp)
    (htxb : t.txb = s.txb := by simp) (hrxb : t.rxb = s.rxb := by simp)
    (hmain : t.main = s.main := by simp) (hisr : t.isr = s.isr := by simp)
    (htxr : t.txr = s.txr := by simp) (hgpio : t.gpio = s.gpio := by simp) : TransportOk t where
  txb := by rw [hcfg, htxb, txbProducer_congr hmain, txbConsumer_congr hisr]; exact h.txb
  rxb := by rw [hcfg, hrxb, rxbProducer_congr hisr, rxbConsumer_congr hmain]; exact h.rxb
  free := by rw [txBeforeWrite_congr hisr, htxr]; exact h.free
  gpio := hgpio ▸ h.gpio

/-- What leaves the standalone RB's fields alone leaves its invariant. -/
theorem StandaloneOk.congr (h : StandaloneOk s) (hcfg : t.cfg = s.cfg := by simp)
    (hrb : t.rb = s.rb := by simp) (hprod : t.prod = s.prod := by simp)
    (hcons : t.cons = s.cons := by simp) (hvalue : t.consValue = s.consValue := by simp) :
    StandaloneOk t where
  rb := by rw [hcfg, hrb, rbProducer_congr hprod, rbConsumer_congr hcons]; exact h.rb
  fits :=
    { slots := by rw [hcfg, hrb]; exact h.fits.slots
      producer := by rw [hcfg, rbProducer_congr hprod]; exact h.fits.producer
      consumer := by rw [hcfg, rbConsumer_congr hcons]; exact h.fits.consumer
      given := by rw [hcfg, hvalue]; exact h.fits.given }

end

/-! ### The transport's half, micro-step by micro-step -/

section
variable {s : State}

/-- W2's ENQ keeps TXB's invariant; a new attempt after `Full` stands at E1 again. -/
theorem writeMicro_txbOk_of_w2 {byte cur : Byte} {lf : Bool} {e : EnqAt} (hn : s.cfg.nTx ≤ 255)
    (h : RingOk s.cfg.nTx s.txb (some (cur, e)) (txbConsumer s)) :
    RingOk s.cfg.nTx (writeMicro byte (.w2 cur lf e) s).txb
      (txbProducer (writeMicro byte (.w2 cur lf e) s)) (txbConsumer s) := by
  have hstep := h.after_enqMicro hn
  simp only [writeMicro, txbProducer]
  cases hnext : (enqMicro s.cfg.nTx cur e s.txb).2 <;> rw [hnext] at hstep
  case full => exact ringOk_producer_e1.2 hstep
  all_goals exact hstep

/-- Rd1's DEQ keeps RXB's invariant; a new attempt after `Empty` stands at D1 again. -/
theorem readMicro_rxbOk_of_rd1 {d : DeqAt Byte} (hn : s.cfg.nRx ≤ 255)
    (h : RingOk s.cfg.nRx s.rxb (rxbProducer s) (some d)) :
    RingOk s.cfg.nRx (readMicro (.rd1 d) s).rxb (rxbProducer s)
      (rxbConsumer (readMicro (.rd1 d) s)) := by
  have hstep := h.after_deqMicro hn
  simp only [readMicro, rxbConsumer]
  cases hnext : (deqMicro s.cfg.nRx d s.rxb).2 <;> rw [hnext] at hstep
  case empty => exact ringOk_consumer_d1.2 hstep
  all_goals exact hstep

/-- H2's ENQ keeps RXB's invariant. -/
theorem rxMicro_rxbOk_of_h2 {d : Byte} {e : EnqAt} (hn : s.cfg.nRx ≤ 255)
    (h : RingOk s.cfg.nRx s.rxb (some (d, e)) (rxbConsumer s)) :
    RingOk s.cfg.nRx (rxMicro (.h2 d e) s).rxb (rxbProducer (rxMicro (.h2 d e) s)) (rxbConsumer s) := by
  have hstep := h.after_enqMicro hn
  simp only [rxMicro, rxbProducer]
  cases hnext : (enqMicro s.cfg.nRx d e s.rxb).2 <;> rw [hnext] at hstep <;> exact hstep

/-- T1's DEQ keeps TXB's invariant. -/
theorem txMicro_txbOk_of_t1 {d : DeqAt Byte} (hn : s.cfg.nTx ≤ 255)
    (h : RingOk s.cfg.nTx s.txb (txbProducer s) (some d)) :
    RingOk s.cfg.nTx (txMicro (.t1 d) s).txb (txbProducer s) (txbConsumer (txMicro (.t1 d) s)) := by
  have hstep := h.after_deqMicro hn
  simp only [txMicro, txbConsumer]
  cases hnext : (deqMicro s.cfg.nTx d s.txb).2 <;> rw [hnext] at hstep <;> exact hstep

theorem mainMicro_txr (s : State) : (mainMicro s).txr = s.txr := by rw [mainMicro_frame]

/-- MAIN keeps the canonical form of the GPIO space, which it writes by whole registers only. -/
theorem mainMicro_gpio_wf (h : s.gpio.wf = true) : (mainMicro s).gpio.wf = true := by
  cases hm : s.main with
  | init _ pos => cases pos <;> simpa [mainMicro, hm, initMicro] using h
  | write _ pos =>
    cases pos with
    | w4 lf => cases lf <;> simpa [mainMicro, hm, writeMicro] using h
    | _ => simpa [mainMicro, hm, writeMicro] using h
  | read pos => cases pos <;> simpa [mainMicro, hm, readMicro] using h
  | rmw _ _ pos =>
    cases pos with
    | p1 => simpa [mainMicro, hm, rmwMicro] using h
    | p2 => simpa [mainMicro, hm, rmwMicro] using memWrite_wf _ _ h
  | get pin => simpa [mainMicro, hm, getMicro] using memWrite_wf _ _ h
  | _ => simpa [mainMicro, hm] using h

/-- MAIN touches TXB inside WRITE's W2 only, and keeps its invariant there. -/
theorem mainMicro_txbOk (hn : s.cfg.nTx ≤ 255)
    (h : RingOk s.cfg.nTx s.txb (txbProducer s) (txbConsumer s)) :
    RingOk s.cfg.nTx (mainMicro s).txb (txbProducer (mainMicro s)) (txbConsumer s) := by
  cases hm : s.main with
  | init _ pos => cases pos <;> simpa [mainMicro, hm, initMicro, txbProducer] using h
  | write byte pos =>
    cases pos with
    | w1 =>
      simp only [mainMicro, hm, writeMicro, txbProducer] at h ⊢
      split_ifs <;> exact ringOk_producer_e1.2 h
    | w2 cur lf e =>
      simp only [txbProducer, hm] at h
      simpa only [mainMicro, hm] using writeMicro_txbOk_of_w2 hn h
    | w3 lf => simpa [mainMicro, hm, writeMicro, txbProducer] using h
    | w4 lf =>
      cases lf <;> simpa [mainMicro, hm, writeMicro, txbProducer, ringOk_producer_e1] using h
  | read pos => cases pos <;> simpa [mainMicro, hm, readMicro, txbProducer] using h
  | rmw _ _ pos => cases pos <;> simpa [mainMicro, hm, rmwMicro, txbProducer] using h
  | _ => simpa [mainMicro, hm, getMicro, txbProducer] using h

/-- MAIN touches RXB inside READ's Rd1 only, and keeps its invariant there. -/
theorem mainMicro_rxbOk (hn : s.cfg.nRx ≤ 255)
    (h : RingOk s.cfg.nRx s.rxb (rxbProducer s) (rxbConsumer s)) :
    RingOk s.cfg.nRx (mainMicro s).rxb (rxbProducer s) (rxbConsumer (mainMicro s)) := by
  cases hm : s.main with
  | init _ pos => cases pos <;> simpa [mainMicro, hm, initMicro, rxbConsumer] using h
  | write _ pos =>
    cases pos with
    | w4 lf => cases lf <;> simpa [mainMicro, hm, writeMicro, rxbConsumer] using h
    | _ => simpa [mainMicro, hm, writeMicro, rxbConsumer] using h
  | read pos =>
    cases pos with
    | rd1 d =>
      simp only [rxbConsumer, hm] at h
      simpa only [mainMicro, hm] using readMicro_rxbOk_of_rd1 hn h
    | rd2 v => simpa [mainMicro, hm, readMicro, rxbConsumer] using h
  | rmw _ _ pos => cases pos <;> simpa [mainMicro, hm, rmwMicro, rxbConsumer] using h
  | _ => simpa [mainMicro, hm, getMicro, rxbConsumer] using h

theorem mainMicro_transportOk (hcfg : s.cfg.wf = true) (h : TransportOk s) :
    TransportOk (mainMicro s) := by
  obtain ⟨⟨-, hnTx⟩, ⟨-, hnRx⟩, -⟩ := Config.capacity_of_wf hcfg
  exact
    { txb := by
        rw [mainMicro_cfg, txbConsumer_congr (mainMicro_isr s)]
        exact mainMicro_txbOk hnTx h.txb
      rxb := by
        rw [mainMicro_cfg, rxbProducer_congr (mainMicro_isr s)]
        exact mainMicro_rxbOk hnRx h.rxb
      free := by
        rw [txBeforeWrite_congr (mainMicro_isr s), mainMicro_txr]
        exact h.free
      gpio := mainMicro_gpio_wf h.gpio }

/-- HRX touches RXB inside H2 only; HTX touches TXB inside T1 only, and after T2 it writes the data register
no more. -/
theorem isrMicro_transportOk (hcfg : s.cfg.wf = true) (h : TransportOk s) : TransportOk (isrMicro s) := by
  obtain ⟨⟨-, hnTx⟩, ⟨-, hnRx⟩, -⟩ := Config.capacity_of_wf hcfg
  obtain ⟨htxb, hrxb, hfree, hgpio⟩ := h
  cases hi : s.isr with
  | none => simpa only [isrMicro, hi] using TransportOk.mk htxb hrxb hfree hgpio
  | rx pos =>
    simp only [isrMicro, hi]
    simp only [txbConsumer, rxbProducer, hi] at htxb hrxb
    cases pos with
    | h1 => exact ⟨htxb, ringOk_producer_e1.2 hrxb, nofun, hgpio⟩
    | h2 d e => exact ⟨htxb, rxMicro_rxbOk_of_h2 hnRx hrxb, nofun, hgpio⟩
    | h3 => exact ⟨htxb, hrxb, nofun, hgpio⟩
  | tx pos =>
    simp only [isrMicro, hi]
    simp only [txbConsumer, rxbProducer, txBeforeWrite, hi] at htxb hrxb hfree
    cases pos with
    | t1 d => exact ⟨txMicro_txbOk_of_t1 hnTx htxb, hrxb, fun _ => hfree rfl, hgpio⟩
    | t2a v => exact ⟨htxb, hrxb, nofun, hgpio⟩
    | t2b => exact ⟨htxb, hrxb, nofun, hgpio⟩
    | t3 => exact ⟨htxb, hrxb, nofun, hgpio⟩

/-- An operation of port H starts before any ring primitive, or at D1. -/
theorem MayStart.transportOk {i : Instr} {first : Main} (hm : mainIdle s = true)
    (hstart : MayStart s i first) (h : TransportOk s) : TransportOk (presentMain first s) := by
  have hidle : s.main = .idle := (mainIdle_eq s).1 hm
  obtain ⟨htxb, hrxb, hfree, hgpio⟩ := h
  simp only [txbProducer, rxbConsumer, hidle] at htxb hrxb
  cases hstart with
  | read => exact ⟨htxb, ringOk_consumer_d1.2 hrxb, hfree, hgpio⟩
  | _ => exact ⟨htxb, hrxb, hfree, hgpio⟩

theorem enterRx_transportOk (hi : s.isr = .none) (h : TransportOk s) :
    TransportOk (enterHandler (.rx .h1) s) := by
  obtain ⟨htxb, hrxb, -, hgpio⟩ := h
  simp only [txbConsumer, rxbProducer, hi] at htxb hrxb
  exact ⟨htxb, hrxb, nofun, hgpio⟩

/-- HTX is entered at D1, and only when the data register is free. -/
theorem enterTx_transportOk (hi : s.isr = .none) (hr : s.txr = true) (h : TransportOk s) :
    TransportOk (enterHandler (.tx (.t1 .d1)) s) := by
  obtain ⟨htxb, hrxb, -, hgpio⟩ := h
  simp only [txbConsumer, rxbProducer, hi] at htxb hrxb
  exact ⟨ringOk_consumer_d1.2 htxb, hrxb, fun _ => hr, hgpio⟩

/-- A handler may be entered only with none in service; HTX only when the data register is free. -/
theorem isr_of_rxMayEnter (h : rxMayEnter s = true) : s.isr = .none := by
  simp only [rxMayEnter, rxEligible, Bool.and_eq_true] at h
  exact (noIsr_eq s).1 h.1.2

theorem isr_of_txMayEnter (h : txMayEnter s = true) : s.isr = .none ∧ s.txr = true := by
  simp only [txMayEnter, txEligible, Bool.and_eq_true] at h
  exact ⟨(noIsr_eq s).1 h.1.2, h.1.1.1.1⟩

end

/-! ### The standalone half, micro-step by micro-step -/

section
variable {s : State}

/-- A slot after ENQ's micro-step holds what a slot held, or the element. -/
theorem mem_of_enqMicro {α : Type} {n : Nat} {v x : α} {e : EnqAt} {b : RingBuf α}
    (h : x ∈ (enqMicro n v e b).1.mem) : x ∈ b.mem ∨ x = v := by
  cases e with
  | e2 => exact List.mem_or_eq_of_mem_set h
  | _ => exact .inl h

/-- The element in a DEQ's hand was there before, or is that of the slot at `head`. -/
theorem hand_of_deqMicro {α : Type} [Inhabited α] {n : Nat} {d : DeqAt α} {b : RingBuf α} {v : α}
    (h : afterDeqMicro (deqMicro n d b).2 = some (.d3 v)
      ∨ afterDeqMicro (deqMicro n d b).2 = some (.d4 v)) :
    d = .d3 v ∨ slotRead b b.head = v := by
  cases d with
  | d1 => simp only [deqMicro] at h; split_ifs at h <;> simp [afterDeqMicro] at h
  | d2 => exact .inr (by simpa [afterDeqMicro] using h)
  | d3 w => exact .inl (by simpa [afterDeqMicro] using h)
  | d4 w => simp [afterDeqMicro] at h

/-- ENQ on the standalone RB, as a micro-step of the ring and of its producer. -/
theorem prodMicro_enq {v : Nat} {e : EnqAt} (hp : s.prod = .enq v e) :
    (prodMicro s).rb = (enqMicro s.cfg.nRb v e s.rb).1
      ∧ rbProducer (prodMicro s) = afterEnqMicro v (enqMicro s.cfg.nRb v e s.rb).2 := by
  simp only [prodMicro, hp]
  split <;> rename_i heq <;> simp [heq, rbProducer, afterEnqMicro]

/-- DEQ on the standalone RB, as a micro-step of the ring and of its consumer. -/
theorem consMicro_deq {d : DeqAt Nat} (hc : s.cons = .deq d) :
    (consMicro s).rb = (deqMicro s.cfg.nRb d s.rb).1
      ∧ rbConsumer (consMicro s) = afterDeqMicro (deqMicro s.cfg.nRb d s.rb).2 := by
  simp only [consMicro, hc]
  split <;> rename_i heq <;> simp [heq, rbConsumer, afterDeqMicro]

/-- The element port C's DEQ gives is the one it has in hand at D4. -/
theorem consValue_of_consMicro_deq {d : DeqAt Nat} {v : Nat} (hc : s.cons = .deq d)
    (h : (consMicro s).consValue = some v) : s.consValue = some v ∨ d = .d4 v := by
  cases d with
  | d1 =>
    simp only [consMicro, hc, deqMicro] at h
    split_ifs at h <;> simp_all
  | d4 w => exact .inr (by simpa [consMicro, hc] using h)
  | _ => exact .inl (by simpa [consMicro, hc] using h)

/-- A producer keeps its element until its ENQ ends. -/
theorem afterEnqMicro_element {α : Type} {v w : α} {r : EnqNext} {e : EnqAt}
    (h : afterEnqMicro v r = some (w, e)) : w = v := by
  cases r <;> simp_all [afterEnqMicro]

theorem prodMicro_cons (s : State) : (prodMicro s).cons = s.cons := by rw [prodMicro_frame]

theorem prodMicro_consValue (s : State) : (prodMicro s).consValue = s.consValue := by
  rw [prodMicro_frame]

theorem consMicro_prod (s : State) : (consMicro s).prod = s.prod := by rw [consMicro_frame]

theorem prodMicro_standaloneOk (hcfg : s.cfg.wf = true) (h : StandaloneOk s) :
    StandaloneOk (prodMicro s) := by
  obtain ⟨-, -, -, hn⟩ := Config.capacity_of_wf hcfg
  have hc := rbConsumer_congr (prodMicro_cons s)
  cases hp : s.prod with
  | idle => simpa only [prodMicro, hp] using h
  | size =>
    have hring := h.rb
    simp only [rbProducer, hp] at hring
    simp only [prodMicro, hp]
    exact ⟨hring, h.fits.slots, nofun, h.fits.consumer, h.fits.given⟩
  | enq v e =>
    obtain ⟨hring, hafter⟩ := prodMicro_enq hp
    have hbefore : rbProducer s = some (v, e) := by simp only [rbProducer, hp]
    have hv : v < 2 ^ s.cfg.wT := h.fits.producer v e hbefore
    refine ⟨?_, ?slots, ?producer, ?_, ?_⟩
    · rw [prodMicro_cfg, hring, hafter, hc]
      exact (hbefore ▸ h.rb).after_enqMicro hn
    case slots =>
      rw [prodMicro_cfg, hring]
      exact fun x hx => (mem_of_enqMicro hx).elim (h.fits.slots x) (· ▸ hv)
    case producer =>
      rw [prodMicro_cfg, hafter]
      exact fun w e' hw => afterEnqMicro_element hw ▸ hv
    · rw [prodMicro_cfg, hc]; exact h.fits.consumer
    · rw [prodMicro_cfg, prodMicro_consValue]; exact h.fits.given

theorem consMicro_standaloneOk (hcfg : s.cfg.wf = true) (h : StandaloneOk s) :
    StandaloneOk (consMicro s) := by
  obtain ⟨-, -, -, hn⟩ := Config.capacity_of_wf hcfg
  have hp := rbProducer_congr (consMicro_prod s)
  cases hc : s.cons with
  | idle => simpa only [consMicro, hc] using h
  | size =>
    have hring := h.rb
    simp only [rbConsumer, hc] at hring
    simp only [consMicro, hc]
    exact ⟨hring, h.fits.slots, h.fits.producer, nofun, nofun⟩
  | deq d =>
    obtain ⟨hring, hafter⟩ := consMicro_deq hc
    have hbefore : rbConsumer s = some d := by simp only [rbConsumer, hc]
    have hhead : slotRead s.rb s.rb.head < 2 ^ s.cfg.wT := by
      have hlt : s.rb.head.toNat < s.rb.mem.length := h.rb.size ▸ h.rb.head
      rw [slotRead, List.getD_eq_getElem _ _ hlt]
      exact h.fits.slots _ (List.getElem_mem hlt)
    refine ⟨?_, ?_, ?_, ?consumer, ?given⟩
    · rw [consMicro_cfg, hring, hafter, hp]
      exact (hbefore ▸ h.rb).after_deqMicro hn
    · rw [consMicro_cfg, (consMicro_rb s).2]; exact h.fits.slots
    · rw [consMicro_cfg, hp]; exact h.fits.producer
    case consumer =>
      rw [consMicro_cfg, hafter]
      intro v hv
      obtain rfl | rfl := hand_of_deqMicro hv
      · exact h.fits.consumer v (.inl hbefore)
      · exact hhead
    case given =>
      rw [consMicro_cfg]
      intro v hv
      obtain hv | rfl := consValue_of_consMicro_deq hc hv
      · exact h.fits.given v hv
      · exact h.fits.consumer v (.inr hbefore)

/-- An ENQ starts at E1, with an element of `W_T` bits. -/
theorem ProdStart.standaloneOk {i : Instr} {first : ProdOp} (hp : prodIdle s = true)
    (hstart : ProdStart s i first) (h : StandaloneOk s) : StandaloneOk (presentProd first s) := by
  have hidle : s.prod = .idle := (prodIdle_eq s).1 hp
  obtain ⟨hrb, hslots, -, hconsumer, hgiven⟩ := h
  simp only [rbProducer, hidle] at hrb
  cases hstart with
  | enq val =>
    exact ⟨ringOk_producer_e1.2 hrb, hslots, fun v e hv => by cases hv; exact enqElement_lt s val,
      hconsumer, hgiven⟩
  | size => exact ⟨hrb, hslots, nofun, hconsumer, hgiven⟩

/-- A DEQ starts at D1, with nothing in hand. -/
theorem ConsStart.standaloneOk {i : Instr} {first : ConsOp} (hc : consIdle s = true)
    (hstart : ConsStart i first) (h : StandaloneOk s) : StandaloneOk (presentCons first s) := by
  have hidle : s.cons = .idle := (consIdle_eq s).1 hc
  obtain ⟨hrb, hslots, hproducer, -, -⟩ := h
  simp only [rbConsumer, hidle] at hrb
  cases hstart with
  | deq => exact ⟨ringOk_consumer_d1.2 hrb, hslots, hproducer, nofun, nofun⟩
  | size => exact ⟨hrb, hslots, hproducer, nofun, nofun⟩

/-- A response of port C without an element asks nothing of one. -/
theorem StandaloneOk.answerCons (st : Status) (v : Byte) (h : StandaloneOk s) :
    StandaloneOk (answerCons st v s) :=
  ⟨h.rb, h.fits.slots, h.fits.producer, h.fits.consumer, nofun⟩

end

/-! ### Every step keeps the invariant -/

theorem move_cfg {i : Option Instr} {s t : State} (h : Move i s t) : t.cfg = s.cfg := by
  cases h <;> simp

theorem move_transportOk {i : Option Instr} {s t : State} (h : Move i s t) (hcfg : s.cfg.wf = true)
    (hs : TransportOk s) : TransportOk t := by
  cases h with
  | presentMain i _ first _ _ hm hstart => exact hstart.transportOk hm hs
  | mainMicro => exact mainMicro_transportOk hcfg hs
  | enterRx _ _ he => exact enterRx_transportOk (isr_of_rxMayEnter he) hs
  | enterTx _ _ he =>
    obtain ⟨hi, hr⟩ := isr_of_txMayEnter he
    exact enterTx_transportOk hi hr hs
  | isrMicro => exact isrMicro_transportOk hcfg hs
  | ltx => exact ⟨hs.txb, hs.rxb, fun _ => rfl, hs.gpio⟩
  | prodMicro => rw [prodMicro_frame]; exact hs.congr
  | consMicro => rw [consMicro_frame]; exact hs.congr
  | _ => exact hs.congr

theorem move_standaloneOk {i : Option Instr} {s t : State} (h : Move i s t) (hcfg : s.cfg.wf = true)
    (hs : StandaloneOk s) : StandaloneOk t := by
  cases h with
  | illegalCons => exact hs.answerCons _ _
  | mainMicro => rw [mainMicro_frame]; exact hs.congr
  | isrMicro => rw [isrMicro_frame]; exact hs.congr
  | presentProd i _ first _ hp hstart => exact hstart.standaloneOk hp hs
  | prodMicro => exact prodMicro_standaloneOk hcfg hs
  | presentCons i _ first _ hc hstart => exact hstart.standaloneOk hc hs
  | consMicro => exact consMicro_standaloneOk hcfg hs
  | _ => exact hs.congr

theorem move_inv {i : Option Instr} {s t : State} (h : Move i s t) (hs : Inv s) : Inv t := by
  obtain ⟨hcfg, htransport, hstandalone⟩ := (inv_iff s).1 hs
  exact (inv_iff t).2 ⟨(move_cfg h).symm ▸ hcfg, move_transportOk h hcfg htransport,
    move_standaloneOk h hcfg hstandalone⟩

/-- Settles O15: a step is the taking of a turn, which touches no field of the invariant, and a chain of
moves, each of which keeps it. -/
theorem stepKeepsInvariant : Obligations.StepKeepsInvariant := by
  intro s t hs h
  refine step_keeps (P := Inv) (fun _ _ _ => move_inv) (fun s _ _ _ _ hs => ?_) h hs
  obtain ⟨hcfg, htransport, hstandalone⟩ := (inv_iff s).1 hs
  exact (inv_iff _).2 ⟨hcfg, htransport.congr, hstandalone.congr⟩

/-! ### Who writes the flags (10_state.md R43, 60_exceptions.md R266) -/

/-- A flag that went from `a` to `b` is unchanged, or was written by one that may write `b` to it. -/
def Written {β : Type} (may : β → Prop) (a b : β) : Prop := b ≠ a → may b

theorem Written.of_eq {β : Type} {may : β → Prop} {a b : β} (h : b = a) : Written may a b :=
  fun hne => absurd h hne

theorem Written.trans {β : Type} {may : β → Prop} {a b c : β} (h : Written may a b)
    (h' : Written may b c) : Written may a c := by
  intro hne
  by_cases hbc : c = b
  · exact hbc ▸ h (hbc ▸ hne)
  · exact h' hbc

/-- The operation `i` may take the flags, the enables and `st` from their values in `s` to those in `t`. -/
structure FlagsWritten (i : Instr) (s t : State) : Prop where
  rxc : Written (fun x => (∃ v, i = .lrx v ∧ x = true) ∨ (i = .irqrx ∧ x = false)) s.rxc t.rxc
  txr : Written (fun x => (i = .ltx ∧ x = true) ∨ (i = .irqtx ∧ x = false)) s.txr t.txr
  rxcIe : Written (fun x => (∃ b, i = .init b) ∧ x = true) s.rxcIe t.rxcIe
  txrIe : Written (fun x => (∃ v, i = .write v ∧ x = true) ∨ (i = .irqtx ∧ x = false)
    ∨ (∃ b, i = .init b ∧ x = false)) s.txrIe t.txrIe
  gie : Written (fun x => (i = .gien ∧ x = true) ∨ (i = .gdis ∧ x = false)) s.gie t.gie
  rxEn : Written (fun x => (∃ b, i = .init b) ∧ x = true) s.rxEn t.rxEn
  txEn : Written (fun x => (∃ b, i = .init b) ∧ x = true) s.txEn t.txEn
  st : Written (fun x => (∃ b, i = .init b) ∧ x = .ready) s.st t.st

section
variable {i : Instr} {s t u : State}

/-- Flags that are all as they were are written by nobody. -/
theorem FlagsWritten.of_eq (hrxc : t.rxc = s.rxc := by rfl) (htxr : t.txr = s.txr := by rfl)
    (hrxcIe : t.rxcIe = s.rxcIe := by rfl) (htxrIe : t.txrIe = s.txrIe := by rfl)
    (hgie : t.gie = s.gie := by rfl) (hrxEn : t.rxEn = s.rxEn := by rfl)
    (htxEn : t.txEn = s.txEn := by rfl) (hst : t.st = s.st := by rfl) : FlagsWritten i s t :=
  ⟨.of_eq hrxc, .of_eq htxr, .of_eq hrxcIe, .of_eq htxrIe, .of_eq hgie, .of_eq hrxEn, .of_eq htxEn,
    .of_eq hst⟩

theorem FlagsWritten.refl (i : Instr) (s : State) : FlagsWritten i s s := .of_eq

theorem FlagsWritten.trans (h : FlagsWritten i s t) (h' : FlagsWritten i t u) : FlagsWritten i s u :=
  ⟨h.rxc.trans h'.rxc, h.txr.trans h'.txr, h.rxcIe.trans h'.rxcIe, h.txrIe.trans h'.txrIe,
    h.gie.trans h'.gie, h.rxEn.trans h'.rxEn, h.txEn.trans h'.txEn, h.st.trans h'.st⟩

/-- INIT writes the enables at I2, where `TXR_IE` can only fall, and `st` at I4. -/
theorem initMicro_flags (baud : BitVec 24) (pos : InitAt) (s : State) :
    FlagsWritten (.init baud) s (initMicro baud pos s) := by
  cases pos with
  | i1 => exact .of_eq
  | i2 =>
    have hfalls (x d : Bool) (hne : (x && d) ≠ x) : (x && d) = false := by
      revert x d
      decide
    exact { FlagsWritten.refl (.init baud) s with
      rxcIe := fun _ => ⟨⟨baud, rfl⟩, rfl⟩
      txrIe := fun hne => .inr (.inr ⟨baud, rfl, hfalls _ _ hne⟩)
      rxEn := fun _ => ⟨⟨baud, rfl⟩, rfl⟩
      txEn := fun _ => ⟨⟨baud, rfl⟩, rfl⟩ }
  | i3 => exact .of_eq
  | i4 => exact { FlagsWritten.refl (.init baud) s with st := fun _ => ⟨⟨baud, rfl⟩, rfl⟩ }

/-- WRITE arms the transmit-ready interrupt at W3. -/
theorem writeMicro_flags (byte : Byte) (pos : WriteAt) (s : State) :
    FlagsWritten (.write byte) s (writeMicro byte pos s) := by
  cases pos with
  | w1 | w2 => exact .of_eq
  | w3 lf => exact { FlagsWritten.refl (.write byte) s with txrIe := fun _ => .inl ⟨byte, rfl, rfl⟩ }
  | w4 lf => cases lf <;> exact .of_eq

theorem readMicro_flags (pos : ReadAt) (s : State) : FlagsWritten i s (readMicro pos s) := by
  cases pos <;> exact .of_eq

theorem rmwMicro_flags (op : RmwOp) (pin : Byte) (pos : RmwAt) (s : State) :
    FlagsWritten i s (rmwMicro op pin pos s) := by
  cases pos <;> exact .of_eq

theorem getMicro_flags (pin : Byte) (s : State) : FlagsWritten i s (getMicro pin s) := by
  constructor <;> exact .of_eq (by simp [getMicro])

/-- MAIN writes the flags that are its operation's to write. -/
theorem mainMicro_flags_of_inFlight (h : inFlight s = some i) : FlagsWritten i s (mainMicro s) := by
  cases hm : s.main with
  | idle => simp [inFlight, hm] at h
  | init baud pos =>
    simp only [inFlight, hm, Option.some.injEq] at h
    subst h
    simpa only [mainMicro, hm] using initMicro_flags baud pos s
  | write byte pos =>
    simp only [inFlight, hm, Option.some.injEq] at h
    subst h
    simpa only [mainMicro, hm] using writeMicro_flags byte pos s
  | read pos => simpa only [mainMicro, hm] using readMicro_flags pos s
  | rmw op pin pos => simpa only [mainMicro, hm] using rmwMicro_flags op pin pos s
  | tsize => simp only [mainMicro, hm]; exact .of_eq
  | gien =>
    simp only [inFlight, hm, Option.some.injEq] at h
    subst h
    simp only [mainMicro, hm]
    exact { FlagsWritten.refl .gien s with gie := fun _ => .inl ⟨rfl, rfl⟩ }
  | gdis =>
    simp only [inFlight, hm, Option.some.injEq] at h
    subst h
    simp only [mainMicro, hm]
    exact { FlagsWritten.refl .gdis s with gie := fun _ => .inr ⟨rfl, rfl⟩ }
  | get pin => simpa only [mainMicro, hm] using getMicro_flags pin s

theorem main_of_mainEnqueuing {v : Byte} (h : mainEnqueuing s = some v) :
    ∃ byte lf e, s.main = .write byte (.w2 v lf e) := by
  unfold mainEnqueuing at h; split at h <;> simp_all

theorem main_of_mainDequeuing (h : mainDequeuing s = true) : ∃ d, s.main = .read (.rd1 d) := by
  unfold mainDequeuing at h; split at h <;> simp_all

theorem main_of_mainSizing {sel : Sel} (h : mainSizing s = some sel) : s.main = .tsize sel := by
  unfold mainSizing at h; split at h <;> simp_all

theorem MainBy.flags (h : MainBy (some i) s) : FlagsWritten i s (mainMicro s) := by
  obtain ⟨-, -, ⟨hf, -⟩ | ⟨v, -, hv⟩ | ⟨-, hd⟩ | ⟨sel, -, hsel⟩⟩ := h
  · exact mainMicro_flags_of_inFlight hf.symm
  · obtain ⟨byte, lf, e, hm⟩ := main_of_mainEnqueuing hv
    simp only [mainMicro, hm]
    exact .of_eq
  · obtain ⟨d, hm⟩ := main_of_mainDequeuing hd
    simp only [mainMicro, hm]
    exact .of_eq
  · simp only [mainMicro, main_of_mainSizing hsel]
    exact .of_eq

/-- HRX clears `RXC` at H1. -/
theorem rxMicro_flags (pos : RxAt) (s : State) : FlagsWritten .irqrx s (rxMicro pos s) := by
  cases pos with
  | h1 => exact { FlagsWritten.refl .irqrx s with rxc := fun _ => .inr ⟨rfl, rfl⟩ }
  | h2 | h3 => exact .of_eq

/-- HTX clears `TXR` with a byte, `TXR_IE` without one. -/
theorem txMicro_flags (pos : TxAt) (s : State) : FlagsWritten .irqtx s (txMicro pos s) := by
  cases pos with
  | t2a v => exact { FlagsWritten.refl .irqtx s with txr := fun _ => .inr ⟨rfl, rfl⟩ }
  | t2b => exact { FlagsWritten.refl .irqtx s with txrIe := fun _ => .inr (.inl ⟨rfl, rfl⟩) }
  | t1 | t3 => exact .of_eq

theorem IsrBy.flags (h : IsrBy s (some i)) : FlagsWritten i s (isrMicro s) := by
  cases h with
  | irqrx _ pos hi => simpa only [isrMicro, hi] using rxMicro_flags pos s
  | irqtx _ pos hi => simpa only [isrMicro, hi] using txMicro_flags pos s
  | enq v _ hv =>
    obtain ⟨e, hi⟩ := isr_of_rxEnqueuing hv
    simp only [isrMicro, hi]
    exact .of_eq
  | deq _ hd =>
    obtain ⟨d, hi⟩ := isr_of_txDequeuing hd
    simp only [isrMicro, hi]
    exact .of_eq

theorem latchReceived_flags (val : Byte) (s : State) :
    FlagsWritten (.lrx val) s (latchReceived val s) := by
  unfold latchReceived
  split_ifs <;>
    exact { FlagsWritten.refl (.lrx val) s with rxc := fun _ => .inl ⟨val, rfl, rfl⟩ }

theorem move_flags (h : Move (some i) s t) : FlagsWritten i s t := by
  cases h with
  | mainMicro _ _ h => exact h.flags
  | isrMicro _ _ h => exact h.flags
  | lrx _ val => exact latchReceived_flags val s
  | ltx => exact { FlagsWritten.refl .ltx s with txr := fun _ => .inl ⟨rfl, rfl⟩ }
  | prodMicro => rw [prodMicro_frame]; exact .of_eq
  | consMicro => rw [consMicro_frame]; exact .of_eq
  | _ => exact .of_eq

end

/-- Settles O19: every move writes only the flags that are its operation's to write, so exec does. -/
theorem flagsWrittenOnlyByTheirWriters : Obligations.FlagsWrittenOnlyByTheirWriters := by
  intro i s t h
  obtain ⟨hrxc, htxr, hrxcIe, htxrIe, hgie, hrxEn, htxEn, hst⟩ :=
    exec_keeps (P := FlagsWritten i s) (fun _ _ hm hx => hx.trans (move_flags hm)) h (.refl i s)
  exact ⟨hrxc, htxr, hrxcIe, htxrIe, hgie, hrxEn, htxEn, hst⟩

/-! ### The reset state (10_state.md R46) -/

section
variable {α : Type} (n : Nat) (zero : α)

@[simp] theorem RingBuf.reset_mem : (RingBuf.reset n zero).mem = List.replicate n zero := rfl
@[simp] theorem RingBuf.reset_head : (RingBuf.reset n zero).head = 0#8 := rfl
@[simp] theorem RingBuf.reset_tail : (RingBuf.reset n zero).tail = 0#8 := rfl
@[simp] theorem RingBuf.reset_count : (RingBuf.reset n zero).count = 0#8 := rfl

/-- A ring is at rest right after reset (10_state.md R27). -/
theorem ringOk_reset [Inhabited α] {n : Nat} (hn : 1 ≤ n) :
    RingOk n (RingBuf.reset n zero) none none where
  size := List.length_replicate
  head := hn
  tail := hn
  count := Nat.zero_le n
  room := nofun
  element := nofun
  cursors := rfl
  stored := nofun
  copied := nofun

end

theorem eq_resetOf {s : State} (h : s = State.reset ∨ ∃ c, s = State.resetOf c) :
    ∃ c, s = State.resetOf c :=
  h.elim (fun h => ⟨Config.default, h⟩) id

/-- Settles O13: a machine at reset is that of its configuration, whose fields are the table's. -/
theorem resetFollowsTable : Obligations.ResetFollowsTable := by
  intro s h
  obtain ⟨c, rfl⟩ := eq_resetOf h
  simp [State.resetOf]

theorem inv_resetOf {c : Config} (h : c.wf = true) : Inv (State.resetOf c) := by
  obtain ⟨⟨hnTx, -⟩, ⟨hnRx, -⟩, ⟨hnRb, -⟩⟩ := Config.capacity_of_wf h
  exact
    { cfg := h
      txb := ringOk_reset _ hnTx
      rxb := ringOk_reset _ hnRx
      rb := ringOk_reset _ hnRb
      fits := ⟨fun x hx => List.eq_of_mem_replicate hx ▸ Nat.two_pow_pos _, nofun, nofun, nofun⟩
      free := nofun
      gpio := rfl }

theorem txGated_resetOf (c : Config) : TxGated (State.resetOf c) :=
  ⟨nofun, nofun, fun _ => ⟨rfl, rfl⟩⟩

/-- The configuration chosen for `State.reset` meets 00_scope.md R6 (log 9). -/
theorem default_wf : Config.default.wf = true := by
  have hclock : decide (0 < Config.default.fClk) = true := by simp [Config.default]
  rw [Config.wf, hclock]
  decide

/-- Settles O14: a well-formed configuration's reset state meets the invariants, and the default one is
well formed. -/
theorem resetMeetsInvariants : Obligations.ResetMeetsInvariants := by
  refine ⟨⟨inv_resetOf default_wf, txGated_resetOf _, rfl, rfl⟩, fun s h => ?_⟩
  obtain ⟨c, rfl⟩ := eq_resetOf h
  simp [State.resetOf]

/-! ### The frozen mainline (10_state.md R40) -/

/-- Settles O42: MAIN's turn passes while a handler is in service, and a handler is entered only when
none is. -/
theorem noStepWhileHandlerInService : Obligations.NoStepWhileHandlerInService := by
  refine fun s => ⟨fun ha hi i => ?_, fun ha pos hi => ?_, fun ha pos hi => ?_⟩
  · have hn : noIsr s = false := Bool.eq_false_iff.2 fun h => hi ((noIsr_eq s).1 h)
    exact exec_frozen i ha hn
  · exact execIrqtx_none ha (by simp [hi]) (by simp [hi])
  · exact execIrqrx_none ha (by simp [hi]) (by simp [hi])

end Sys2Proof.Machine

/-! SUPPORT. The proofs about memory (20_memory.md): the elements of a ring and the transmit stream under
every move, and which operation reaches which part of the state. -/

namespace Sys2Proof.Machine

open Sys2Proof

/-! ### The elements between the cursors (40_ring_buffer.md R135) -/

section
variable {α : Type} [Inhabited α] {n : Nat} {b b' : RingBuf α} {v : α}
  {p : Option (α × EnqAt)} {c : Option (DeqAt α)}

theorem liveFrom_succ (k : Nat) :
    liveFrom n b (k + 1) = liveFrom n b k ++ [slotAt b ((b.head.toNat + k) % n)] := by
  simp [liveFrom, List.range_succ]

theorem liveFrom_congr {k : Nat} (hhead : b'.head = b.head)
    (hslot : ∀ j < k, slotAt b' ((b.head.toNat + j) % n) = slotAt b ((b.head.toNat + j) % n)) :
    liveFrom n b' k = liveFrom n b k := by
  rw [liveFrom, hhead]
  exact List.map_congr_left fun j hj => hslot j (List.mem_range.1 hj)

/-- The oldest element stands in the slot at `head`; advancing `head` leaves the others. -/
theorem liveFrom_advance_head (hn : n ≤ 255) (hhead : b.head.toNat < n) (k : Nat) :
    liveFrom n b (k + 1)
      = slotAt b b.head.toNat :: liveFrom n { b with head := advance n b.head } k := by
  simp only [liveFrom, List.range_succ_eq_map, List.map_cons, List.map_map, Nat.add_zero,
    Nat.mod_eq_of_lt hhead, advance_toNat hn hhead]
  refine congrArg _ (List.map_congr_left fun j _ => ?_)
  simp only [Function.comp, Nat.mod_add_mod]
  rw [show b.head.toNat + j.succ = b.head.toNat + 1 + j by omega]
  rfl

theorem RingOk.unreleased_le (h : RingOk n b p c) : unreleased c ≤ b.count.toNat := by
  unfold unreleased
  split
  · exact h.element rfl
  all_goals exact Nat.zero_le _

/-- A consumer with an element copied and not yet taken finds it between the cursors. -/
theorem RingOk.between_pos (h : RingOk n b p (some (.d3 v))) : 0 < between b p (some (.d3 v)) := by
  have hpos : 0 < b.count.toNat := h.element rfl
  simp only [between, unreleased]
  omega

/-- Until E3 the slot at `tail` is the one after the elements between the cursors. -/
theorem RingOk.tail_eq (h : RingOk n b p c) (hp : unpublished p = 0) :
    (b.head.toNat + between b p c) % n = b.tail.toNat := by
  have hle := h.unreleased_le
  have hcursors := h.cursors
  simp only [hp, Nat.add_zero] at hcursors
  have hsum : b.head.toNat + between b p c + unreleased c = b.head.toNat + b.count.toNat := by
    simp only [between, hp]
    omega
  have hmod : b.head.toNat + between b p c ≡ b.tail.toNat [MOD n] :=
    Nat.ModEq.add_right_cancel' (unreleased c) (hsum ▸ hcursors)
  exact Nat.mod_eq_of_modEq hmod h.tail

/-- E3 appends the element being enqueued; no other micro-step of ENQ changes the elements between the
cursors, wherever the consumer stands (40_ring_buffer.md R135 (iv)). -/
theorem RingOk.inRing_enqMicro (hn : n ≤ 255) {e : EnqAt} (h : RingOk n b (some (v, e)) c) :
    inRing n (enqMicro n v e b).1 (afterEnqMicro v (enqMicro n v e b).2) c
      = inRing n b (some (v, e)) c ++ (if e = .e3 then [v] else []) := by
  cases e with
  | e1 =>
    by_cases hfull : b.count.toNat = n
    · rw [enqMicro_e1_full hfull]
      exact (List.append_nil _).symm
    · rw [enqMicro_e1_room hfull]
      exact (List.append_nil _).symm
  | e2 =>
    rw [if_neg nofun, List.append_nil]
    exact liveFrom_congr rfl fun j hj => slotAt_slotWrite_other _ (h.tail_not_between hj)
  | e3 =>
    have hle := h.unreleased_le
    have hbetween : between { b with tail := advance n b.tail } (some (v, .e4)) c
        = between b (some (v, .e3)) c + 1 := by
      simp only [between, unpublished]
      omega
    have hslot : slotAt b ((b.head.toNat + between b (some (v, .e3)) c) % n) = v := by
      rw [h.tail_eq rfl]
      exact h.stored v rfl
    simp only [enqMicro_e3, afterEnqMicro, inRing, hbetween, if_true]
    rw [← hslot]
    exact liveFrom_succ _
  | e4 =>
    have hroom : b.count.toNat < n := h.room rfl
    have hcount : (b.count + 1#8).toNat = b.count.toNat + 1 := count_succ (by omega)
    simp only [enqMicro_e4, afterEnqMicro, inRing, between, unpublished, hcount]
    exact (List.append_nil _).symm

/-- What DEQ's micro-step takes from between the cursors: D3 the element copied at D2. -/
def takenAt : DeqAt α → List α
  | .d3 v => [v]
  | .d1 | .d2 | .d4 _ => []

/-- D3 takes the oldest element; no other micro-step of DEQ changes the elements between the cursors,
wherever the producer stands (40_ring_buffer.md R135 (v)). -/
theorem RingOk.inRing_deqMicro (hn : n ≤ 255) {d : DeqAt α} (h : RingOk n b p (some d)) :
    inRing n b p (some d)
      = takenAt d ++ inRing n (deqMicro n d b).1 p (afterDeqMicro (deqMicro n d b).2) := by
  cases d with
  | d1 =>
    by_cases hempty : b.count = 0#8
    · rw [deqMicro_d1_empty hempty]
      rfl
    · rw [deqMicro_d1_some hempty]
      rfl
  | d2 => rfl
  | d3 w =>
    have hbetween : between b p (some (.d3 w))
        = between { b with head := advance n b.head } p (some (.d4 w)) + 1 := by
      have hpos := h.between_pos
      simp only [between, unreleased] at hpos ⊢
      omega
    rw [inRing, hbetween, liveFrom_advance_head hn h.head, h.copied w rfl]
    rfl
  | d4 w =>
    have hcount : (b.count - 1#8).toNat = b.count.toNat - 1 := count_pred (h.element rfl)
    have hpos : 0 < b.count.toNat := h.element rfl
    have hbetween : between b p (some (.d4 w)) = between { b with count := b.count - 1#8 } p none := by
      simp only [between, unreleased, hcount]
      omega
    rw [inRing, hbetween]
    rfl

end

/-! ### The transmit stream (20_memory.md R73) -/

/-- The part of the transmit stream that has left TXB: the line, the data register and HTX's hand. -/
def leftTxb (s : State) : List Byte := s.lineOut ++ (if s.txr then [] else [s.txd]) ++ txInHand s

theorem txStream_eq (s : State) :
    txStream s = leftTxb s ++ inRing s.cfg.nTx s.txb (txbProducer s) (txbConsumer s) := rfl

/-- What MAIN's next micro-step appends to the transmit stream: the byte of W2's ENQ, at its E3. -/
def mainAppends (s : State) : List Byte :=
  match s.main with
  | .write _ (.w2 cur _ .e3) => [cur]
  | _ => []

section
variable {s t : State}

theorem leftTxb_congr (hline : t.lineOut = s.lineOut) (htxr : t.txr = s.txr) (htxd : t.txd = s.txd)
    (hisr : t.isr = s.isr) : leftTxb t = leftTxb s := by
  simp only [leftTxb, txInHand, hline, htxr, htxd, hisr]

/-- What leaves the transmit path's fields alone leaves the stream. -/
theorem txStream_congr (hcfg : t.cfg = s.cfg := by simp) (htxb : t.txb = s.txb := by simp)
    (hmain : t.main = s.main := by simp) (hisr : t.isr = s.isr := by simp)
    (hline : t.lineOut = s.lineOut := by simp) (htxr : t.txr = s.txr := by simp)
    (htxd : t.txd = s.txd := by simp) : txStream t = txStream s := by
  rw [txStream_eq, txStream_eq, leftTxb_congr hline htxr htxd hisr, hcfg, htxb,
    txbProducer_congr hmain, txbConsumer_congr hisr]

/-- An operation of port H starts with nothing of it in TXB. -/
theorem MayStart.txStream {i : Instr} {first : Main} (hm : mainIdle s = true)
    (hstart : MayStart s i first) : txStream (presentMain first s) = txStream s := by
  have hidle : s.main = .idle := (mainIdle_eq s).1 hm
  have hbefore : txbProducer s = none := by simp only [txbProducer, hidle]
  have hafter : txbProducer (presentMain first s) = none := by cases hstart <;> rfl
  simp only [txStream_eq, hbefore, hafter]
  rfl

theorem leftTxb_mainMicro (s : State) : leftTxb (mainMicro s) = leftTxb s := by
  rw [mainMicro_frame]
  rfl

/-- W2 appends its byte to TXB at E3; a new attempt after `Full` finds the elements as they were. -/
theorem writeMicro_inRing_of_w2 {byte cur : Byte} {lf : Bool} {e : EnqAt} {c : Option (DeqAt Byte)}
    (hn : s.cfg.nTx ≤ 255) (h : RingOk s.cfg.nTx s.txb (some (cur, e)) c) :
    inRing s.cfg.nTx (writeMicro byte (.w2 cur lf e) s).txb
        (txbProducer (writeMicro byte (.w2 cur lf e) s)) c
      = inRing s.cfg.nTx s.txb (some (cur, e)) c ++ (if e = .e3 then [cur] else []) := by
  rw [← h.inRing_enqMicro hn]
  simp only [writeMicro, txbProducer]
  cases (enqMicro s.cfg.nTx cur e s.txb).2 <;> rfl

/-- MAIN appends to TXB inside W2 only. -/
theorem mainMicro_inRing {c : Option (DeqAt Byte)} (hn : s.cfg.nTx ≤ 255)
    (h : RingOk s.cfg.nTx s.txb (txbProducer s) c) :
    inRing s.cfg.nTx (mainMicro s).txb (txbProducer (mainMicro s)) c
      = inRing s.cfg.nTx s.txb (txbProducer s) c ++ mainAppends s := by
  cases hm : s.main with
  | init _ pos => cases pos <;> simp [mainMicro, hm, initMicro, txbProducer, mainAppends]
  | write byte pos =>
    cases pos with
    | w1 =>
      simp only [mainMicro, hm, writeMicro, txbProducer, mainAppends, List.append_nil]
      split_ifs <;> rfl
    | w2 cur lf e =>
      simp only [txbProducer, hm] at h
      simp only [mainMicro, hm, writeMicro_inRing_of_w2 hn h]
      cases e <;> simp [txbProducer, mainAppends, hm]
    | w3 lf => simp [mainMicro, hm, writeMicro, txbProducer, mainAppends]
    | w4 lf =>
      simp only [mainMicro, hm, writeMicro, txbProducer, mainAppends, List.append_nil]
      cases lf <;> rfl
  | read pos => cases pos <;> simp [mainMicro, hm, readMicro, txbProducer, mainAppends]
  | rmw _ _ pos => cases pos <;> simp [mainMicro, hm, rmwMicro, txbProducer, mainAppends]
  | _ => simp [mainMicro, hm, getMicro, txbProducer, mainAppends]

/-- MAIN appends to the transmit stream at E3 inside W2, and nowhere else touches it. -/
theorem mainMicro_txStream (hcfg : s.cfg.wf = true) (h : TransportOk s) :
    txStream (mainMicro s) = txStream s ++ mainAppends s := by
  obtain ⟨⟨-, hn⟩, -, -⟩ := Config.capacity_of_wf hcfg
  rw [txStream_eq, txStream_eq, leftTxb_mainMicro, mainMicro_cfg, txbConsumer_congr (mainMicro_isr s),
    mainMicro_inRing hn h.txb, List.append_assoc]

/-- T1's DEQ moves the oldest byte of TXB into HTX's hand at D3. -/
theorem txMicro_txStream_of_t1 {d : DeqAt Byte} (hn : s.cfg.nTx ≤ 255) (hi : s.isr = .tx (.t1 d))
    (h : RingOk s.cfg.nTx s.txb (txbProducer s) (some d)) :
    txStream (txMicro (.t1 d) s) = txStream s := by
  have hconsumer : txbConsumer (txMicro (.t1 d) s) = afterDeqMicro (deqMicro s.cfg.nTx d s.txb).2 := by
    simp only [txMicro, txbConsumer]
    cases (deqMicro s.cfg.nTx d s.txb).2 <;> rfl
  have hhand : txInHand (txMicro (.t1 d) s) = txInHand s ++ takenAt d := by
    cases d with
    | d1 =>
      by_cases hempty : s.txb.count = 0#8
      · simp [txMicro, txInHand, hi, takenAt, deqMicro_d1_empty hempty, afterDeqTx]
      · simp [txMicro, txInHand, hi, takenAt, deqMicro_d1_some hempty, afterDeqTx]
    | _ => simp [txMicro, txInHand, hi, takenAt, afterDeqTx]
  have hbefore : txbConsumer s = some d := by simp only [txbConsumer, hi]
  rw [txStream_eq s, hbefore, h.inRing_deqMicro hn, txStream_eq, hconsumer]
  simp only [leftTxb, hhand, List.append_assoc]
  rfl

/-- With nothing in HTX's hand the stream is the line, the data register and TXB, wherever HTX stands. -/
theorem txStream_of_emptyHanded (hhand : txInHand s = []) :
    txStream s = s.lineOut ++ (if s.txr then [] else [s.txd])
      ++ inRing s.cfg.nTx s.txb (txbProducer s) none := by
  have hring : inRing s.cfg.nTx s.txb (txbProducer s) (txbConsumer s)
      = inRing s.cfg.nTx s.txb (txbProducer s) none := by
    unfold txInHand at hhand
    unfold txbConsumer
    split at hhand <;> simp_all [inRing, between, unreleased]
  rw [txStream_eq, leftTxb, hhand, hring, List.append_nil]

theorem txInHand_of_rx {pos : RxAt} (h : s.isr = .rx pos) : txInHand s = [] := by
  simp only [txInHand, h]

/-- HRX touches nothing of the stream. -/
theorem rxMicro_txStream {pos : RxAt} (hi : s.isr = .rx pos) : txStream (rxMicro pos s) = txStream s := by
  have hhand : txInHand s = [] := txInHand_of_rx hi
  refine Eq.trans ?_ (txStream_of_emptyHanded hhand).symm
  cases pos <;> exact txStream_of_emptyHanded rfl

/-- HTX moves a byte from TXB to its hand, and from its hand to the data register, which it finds free. -/
theorem txMicro_txStream {pos : TxAt} (hn : s.cfg.nTx ≤ 255) (hi : s.isr = .tx pos)
    (h : TransportOk s) : txStream (txMicro pos s) = txStream s := by
  obtain ⟨htxb, -, hfree, -⟩ := h
  simp only [txbConsumer, txBeforeWrite, hi] at htxb hfree
  cases pos with
  | t1 d => exact txMicro_txStream_of_t1 hn hi htxb
  | t2a v => simp [txMicro, txStream, txInHand, txbConsumer, txbProducer, hi, hfree]
  | t2b | t3 =>
    have hhand : txInHand s = [] := by simp only [txInHand, hi]
    exact (txStream_of_emptyHanded rfl).trans (txStream_of_emptyHanded hhand).symm

theorem isrMicro_txStream (hcfg : s.cfg.wf = true) (h : TransportOk s) :
    txStream (isrMicro s) = txStream s := by
  obtain ⟨⟨-, hn⟩, -, -⟩ := Config.capacity_of_wf hcfg
  cases hi : s.isr with
  | none => simp only [isrMicro, hi]
  | rx pos => simpa only [isrMicro, hi] using rxMicro_txStream hi
  | tx pos => simpa only [isrMicro, hi] using txMicro_txStream hn hi h

/-- A handler is entered with nothing in hand. -/
theorem enterHandler_txStream {first : Isr} (hi : s.isr = .none)
    (hfirst : first = .rx .h1 ∨ first = .tx (.t1 .d1)) :
    txStream (enterHandler first s) = txStream s := by
  have hhand : txInHand s = [] := by simp only [txInHand, hi]
  obtain rfl | rfl := hfirst <;>
    exact (txStream_of_emptyHanded rfl).trans (txStream_of_emptyHanded hhand).symm

theorem takeTransmitted_txStream (hr : s.txr = false) : txStream (takeTransmitted s) = txStream s := by
  simp [takeTransmitted, txStream, hr, txInHand, txbConsumer, txbProducer]

end

/-- The transmit stream of `t` is that of `s`, with something appended only where `agent` is MAIN. -/
def Extends (agent : Agent) (s t : State) : Prop :=
  ∃ new, txStream t = txStream s ++ new ∧ (new = [] ∨ agent = .main)

section
variable {agent : Agent} {s t u : State}

theorem Extends.of_eq (h : txStream t = txStream s) : Extends agent s t :=
  ⟨[], h.trans (List.append_nil _).symm, .inl rfl⟩

theorem Extends.trans (h : Extends agent s t) (h' : Extends agent t u) : Extends agent s u := by
  obtain ⟨new, heq, hnew⟩ := h
  obtain ⟨new', heq', hnew'⟩ := h'
  refine ⟨new ++ new', by rw [heq', heq, List.append_assoc], ?_⟩
  obtain rfl | ha := hnew
  · exact hnew'
  · exact .inr ha

/-- A move leaves the transmit stream as it is, but for what MAIN appends. -/
theorem move_extends {i : Option Instr} (h : Move i s t) (hs : Inv s) : Extends s.agent s t := by
  obtain ⟨hcfg, htransport, -⟩ := (inv_iff s).1 hs
  cases h with
  | presentMain i _ first _ _ hm hstart => exact .of_eq (hstart.txStream hm)
  | mainMicro _ _ h => exact ⟨mainAppends s, mainMicro_txStream hcfg htransport, .inr h.agent⟩
  | enterRx _ _ he => exact .of_eq (enterHandler_txStream (isr_of_rxMayEnter he) (.inl rfl))
  | enterTx _ _ he => exact .of_eq (enterHandler_txStream (isr_of_txMayEnter he).1 (.inr rfl))
  | isrMicro => exact .of_eq (isrMicro_txStream hcfg htransport)
  | ltx _ _ _ hr => exact .of_eq (takeTransmitted_txStream hr)
  | prodMicro => rw [prodMicro_frame]; exact .of_eq txStream_congr
  | consMicro => rw [consMicro_frame]; exact .of_eq txStream_congr
  | _ => exact .of_eq txStream_congr

/-- The taking of a turn touches no field of the invariant. -/
theorem Inv.of_turn (hs : Inv s) (sched : List Turn) (agent : Agent) (steps above : Nat) :
    Inv { s with sched := sched, agent := agent, steps := steps, above := above } := by
  obtain ⟨hcfg, htransport, hstandalone⟩ := (inv_iff s).1 hs
  exact (inv_iff _).2 ⟨hcfg, htransport.congr, hstandalone.congr⟩

/-- A chain of moves is one agent's, and each keeps the invariant the next one needs. -/
theorem moves_extends {i : Option Instr} (h : Moves i s t) (hs : Inv s) :
    t.agent = s.agent ∧ Extends s.agent s t := by
  have keep (x y : State) (hm : Move i x y)
      (hx : Inv x ∧ x.agent = s.agent ∧ Extends s.agent s x) :
      Inv y ∧ y.agent = s.agent ∧ Extends s.agent s y := by
    obtain ⟨hinv, ha, hext⟩ := hx
    exact ⟨move_inv hm hinv, (move_agent hm).trans ha, hext.trans (ha ▸ move_extends hm hinv)⟩
  exact (moves_keep keep h ⟨hs, rfl, .of_eq rfl⟩).2

end

/-- Settles O17: the taking of a turn touches no byte of the stream, and every move of the turn's agent
keeps it or, where that agent is MAIN, appends to it. -/
theorem stepExtendsTransmitStream : Obligations.StepExtendsTransmitStream := by
  intro s t hs h
  obtain rfl | ⟨sched, agent, steps, above, hm⟩ := step_moves h
  · exact Extends.of_eq rfl
  · obtain ⟨ha, hext⟩ := moves_extends hm (hs.of_turn sched agent steps above)
    exact ha ▸ hext

/-! ### Which operation reaches which part of the state (20_memory.md R61) -/

/-- `s` with the responses of all three ports taken from `t`. -/
def respond (t s : State) : State :=
  { s with
    hostResp := t.hostResp, prodResp := t.prodResp, consResp := t.consResp
    consValue := t.consValue }

/-- `s` with all that the operation `i` reaches, on whatever agent's turn, taken from `t`. -/
def reach (i : Instr) (t s : State) : State :=
  respond t (match i with
    | .enq _ _ => { s with
        rb := t.rb, prod := t.prod, txb := t.txb, main := t.main, rxb := t.rxb, isr := t.isr }
    | .deq _ => { s with
        rb := t.rb, cons := t.cons, txb := t.txb, main := t.main, rxb := t.rxb, isr := t.isr }
    | .size _ => { s with prod := t.prod, cons := t.cons, main := t.main }
    | .init _ => { s with
        baudDiv := t.baudDiv, rxcIe := t.rxcIe, rxEn := t.rxEn, txEn := t.txEn, txrIe := t.txrIe
        frame := t.frame, st := t.st, draws := t.draws, main := t.main }
    | .write _ => { s with txb := t.txb, txrIe := t.txrIe, main := t.main }
    | .read => { s with rxb := t.rxb, main := t.main }
    | .tsize _ => { s with main := t.main }
    | .gien | .gdis => { s with gie := t.gie, main := t.main }
    | .irqrx => { s with rxc := t.rxc, rxb := t.rxb, isr := t.isr }
    | .irqtx => { s with
        txb := t.txb, txd := t.txd, txr := t.txr, txrIe := t.txrIe, isr := t.isr }
    | .lrx _ => { s with rxd := t.rxd, rxc := t.rxc, lineIn := t.lineIn, draws := t.draws }
    | .ltx => { s with txr := t.txr, lineOut := t.lineOut }
    | .get _ => { s with gpio := t.gpio, pinIn := t.pinIn, draws := t.draws, main := t.main }
    | .high _ | .low _ | .dirin _ | .dirout _ | .setv _ _ | .toggle _ =>
      { s with gpio := t.gpio, main := t.main })

/-- `s` with all that the agent `a` reaches, by whatever operation, taken from `t`. -/
def agentReach (a : Agent) (t s : State) : State :=
  match a with
  | .main => { s with
      txb := t.txb, rxb := t.rxb, baudDiv := t.baudDiv, rxEn := t.rxEn, txEn := t.txEn
      rxcIe := t.rxcIe, txrIe := t.txrIe, st := t.st, frame := t.frame, gie := t.gie, main := t.main
      gpio := t.gpio, pinIn := t.pinIn, hostResp := t.hostResp, draws := t.draws }
  | .hrx | .htx => { s with
      txb := t.txb, rxb := t.rxb, rxc := t.rxc, txr := t.txr, txd := t.txd, txrIe := t.txrIe
      isr := t.isr }
  | .line => { s with
      rxd := t.rxd, rxc := t.rxc, lineIn := t.lineIn, draws := t.draws, txr := t.txr
      lineOut := t.lineOut }
  | .prod => { s with rb := t.rb, prod := t.prod, prodResp := t.prodResp }
  | .cons => { s with
      rb := t.rb, cons := t.cons, consResp := t.consResp, consValue := t.consValue }

section
variable {i : Instr} {s t u : State}

theorem reach_self (i : Instr) (s : State) : s = reach i s s := by cases i <;> rfl

theorem reach_trans (h : t = reach i t s) (h' : u = reach i u t) : u = reach i u s :=
  h'.trans ((congrArg (reach i u) h).trans (by cases i <;> rfl))

/-- What is written within the reach of an operation is within its reach. -/
theorem reach_of_eq (h : t = u) (hu : reach i t u = reach i t s) : t = reach i t s :=
  (reach_self i t).trans ((congrArg (reach i t) h).trans hu)

theorem agentReach_self (a : Agent) (s : State) : s = agentReach a s s := by cases a <;> rfl

theorem agentReach_trans {a : Agent} (h : t = agentReach a t s) (h' : u = agentReach a u t) :
    u = agentReach a u s :=
  h'.trans ((congrArg (agentReach a u) h).trans (by cases a <;> rfl))

theorem agentReach_of_eq {a : Agent} (h : t = u) (hu : agentReach a t u = agentReach a t s) :
    t = agentReach a t s :=
  (agentReach_self a t).trans ((congrArg (agentReach a t) h).trans hu)

/-! ### What each operation reaches -/

/-- Every operation reaches the responses. -/
theorem reach_of_respond (h : t = respond t s) : t = reach i t s :=
  reach_of_eq h (by cases i <;> rfl)

theorem reach_rmwInstr (op : RmwOp) (pin : Byte) (t s : State) :
    reach (rmwInstr op pin) t s = respond t { s with gpio := t.gpio, main := t.main } := by
  cases op <;> rfl

theorem MayStart.reach {first : Main} (h : MayStart s i first) :
    presentMain first s = reach i (presentMain first s) s := by
  cases h with
  | rmw op pin => rw [reach_rmwInstr]; rfl
  | _ => rfl

theorem initMicro_reach (baud : BitVec 24) (pos : InitAt) (s : State) :
    initMicro baud pos s = reach (.init baud) (initMicro baud pos s) s := by
  cases pos <;> rfl

theorem writeMicro_reach (byte : Byte) (pos : WriteAt) (s : State) :
    writeMicro byte pos s = reach (.write byte) (writeMicro byte pos s) s := by
  cases pos with
  | w4 lf => cases lf <;> rfl
  | _ => rfl

theorem readMicro_reach (pos : ReadAt) (s : State) :
    readMicro pos s = reach .read (readMicro pos s) s := by
  cases pos <;> rfl

theorem rmwMicro_reach (op : RmwOp) (pin : Byte) (pos : RmwAt) (s : State) :
    rmwMicro op pin pos s = reach (rmwInstr op pin) (rmwMicro op pin pos s) s := by
  rw [reach_rmwInstr]
  cases pos <;> rfl

theorem getMicro_reach (pin : Byte) (s : State) :
    getMicro pin s = reach (.get pin) (getMicro pin s) s := by
  unfold getMicro samplePins
  split <;> rfl

/-- MAIN's micro-step reaches what its operation reaches. -/
theorem mainMicro_reach_of_inFlight (h : inFlight s = some i) :
    mainMicro s = reach i (mainMicro s) s := by
  cases hm : s.main with
  | idle => simp [inFlight, hm] at h
  | init baud pos =>
    cases (by simpa [inFlight, hm] using h : Instr.init baud = i)
    simpa only [mainMicro, hm] using initMicro_reach baud pos s
  | write byte pos =>
    cases (by simpa [inFlight, hm] using h : Instr.write byte = i)
    simpa only [mainMicro, hm] using writeMicro_reach byte pos s
  | read pos =>
    cases (by simpa [inFlight, hm] using h : Instr.read = i)
    simpa only [mainMicro, hm] using readMicro_reach pos s
  | rmw op pin pos =>
    cases (by simpa [inFlight, hm] using h : rmwInstr op pin = i)
    simpa only [mainMicro, hm] using rmwMicro_reach op pin pos s
  | tsize sel =>
    cases (by simpa [inFlight, hm] using h : Instr.tsize sel = i)
    simp only [mainMicro, hm]
    rfl
  | gien =>
    cases (by simpa [inFlight, hm] using h : Instr.gien = i)
    simp only [mainMicro, hm]
    rfl
  | gdis =>
    cases (by simpa [inFlight, hm] using h : Instr.gdis = i)
    simp only [mainMicro, hm]
    rfl
  | get pin =>
    cases (by simpa [inFlight, hm] using h : Instr.get pin = i)
    simpa only [mainMicro, hm] using getMicro_reach pin s

/-- MAIN's micro-step reaches what its word reaches, a label too. -/
theorem MainBy.reach (h : MainBy (some i) s) : mainMicro s = reach i (mainMicro s) s := by
  obtain ⟨-, -, ⟨hf, -⟩ | ⟨v, hi, hv⟩ | ⟨hi, hd⟩ | ⟨sel, hi, hsel⟩⟩ := h
  · exact mainMicro_reach_of_inFlight hf.symm
  · obtain ⟨byte, lf, e, hm⟩ := main_of_mainEnqueuing hv
    cases hi
    simp only [mainMicro, hm]
    rfl
  · obtain ⟨d, hm⟩ := main_of_mainDequeuing hd
    cases hi
    simp only [mainMicro, hm]
    rfl
  · cases hi
    simp only [mainMicro, main_of_mainSizing hsel]
    rfl

/-- A handler's micro-step reaches what its word reaches, a label too. -/
theorem IsrBy.reach (h : IsrBy s (some i)) : isrMicro s = reach i (isrMicro s) s := by
  cases h with
  | irqrx _ pos hi => simp only [isrMicro, hi]; cases pos <;> rfl
  | irqtx _ pos hi => simp only [isrMicro, hi]; cases pos <;> rfl
  | enq v _ hv =>
    obtain ⟨e, hi⟩ := isr_of_rxEnqueuing hv
    simp only [isrMicro, hi]
    rfl
  | deq _ hd =>
    obtain ⟨d, hi⟩ := isr_of_txDequeuing hd
    simp only [isrMicro, hi]
    rfl

theorem ProdBy.reach (h : ProdBy s (some i)) :
    Machine.prodMicro s = Machine.reach i (Machine.prodMicro s) s := by
  cases h with
  | enq val e => exact reach_of_eq (prodMicro_frame s) rfl
  | size _ hp => simp only [Machine.prodMicro, hp]; rfl

theorem ConsBy.reach (h : ConsBy s (some i)) :
    Machine.consMicro s = Machine.reach i (Machine.consMicro s) s := by
  cases h with
  | deq d => exact reach_of_eq (consMicro_frame s) rfl
  | size _ hc => simp only [Machine.consMicro, hc]; rfl

/-- A byte from the line writes the receive half of the data register and the history. -/
theorem latchReceived_writes (val : Byte) (s : State) :
    latchReceived val s = { s with
      rxd := (latchReceived val s).rxd, rxc := (latchReceived val s).rxc
      lineIn := (latchReceived val s).lineIn, draws := (latchReceived val s).draws } := by
  unfold latchReceived
  split <;> rfl

/-- A move changes nothing but what its word reaches. -/
theorem move_reach (h : Move (some i) s t) : t = reach i t s := by
  cases h with
  | illegalHost | illegalProd | illegalCons => exact reach_of_respond rfl
  | presentMain _ _ _ _ _ _ hstart => exact hstart.reach
  | mainMicro _ _ h => exact h.reach
  | enterRx | enterTx | ltx => rfl
  | isrMicro _ _ h => exact h.reach
  | lrx _ val => exact reach_of_eq (latchReceived_writes val s) rfl
  | presentProd _ _ _ _ _ hstart => cases hstart <;> rfl
  | prodMicro _ _ h => exact h.reach
  | presentCons _ _ _ _ _ hstart => cases hstart <;> rfl
  | consMicro _ _ h => exact h.reach

/-- An operation changes nothing but what it reaches. -/
theorem exec_reach (h : exec i s = .next t) : t = reach i t s :=
  exec_keeps (P := fun u => u = reach i u s) (fun _ _ hm hx => reach_trans hx (move_reach hm)) h
    (reach_self i s)

/-! ### What each agent reaches -/

theorem IsrBy.agent {i : Option Instr} (h : IsrBy s i) : s.agent = .hrx ∨ s.agent = .htx := by
  cases h with
  | irqrx ha | enq _ ha => exact .inl ha
  | irqtx ha | deq ha => exact .inr ha

/-- A move changes nothing but what its agent reaches. -/
theorem move_agentReach {i : Option Instr} (h : Move i s t) : t = agentReach s.agent t s := by
  cases h with
  | mainMicro _ _ h => rw [h.agent]; exact mainMicro_frame s
  | isrMicro _ _ h => obtain ha | ha := h.agent <;> rw [ha] <;> exact isrMicro_frame s
  | prodMicro _ _ h => rw [h.agent]; exact prodMicro_frame s
  | consMicro _ _ h => rw [h.agent]; exact consMicro_frame s
  | lrx _ val ha => rw [ha]; exact agentReach_of_eq (latchReceived_writes val s) rfl
  | illegalHost _ _ ha | illegalProd _ _ ha | illegalCons _ _ ha | presentMain _ _ _ ha
  | enterRx _ ha | enterTx _ ha | ltx _ ha | presentProd _ _ _ ha | presentCons _ _ _ ha =>
    rw [ha]; rfl

/-- A turn changes nothing but what its agent reaches. -/
theorem exec_agentReach (h : exec i s = .next t) : t = agentReach s.agent t s :=
  have keep (x y : State) (hm : Move (some i) x y)
      (hx : x.agent = s.agent ∧ x = agentReach s.agent x s) :
      y.agent = s.agent ∧ y = agentReach s.agent y s :=
    ⟨(move_agent hm).trans hx.1, agentReach_trans hx.2 (hx.1 ▸ move_agentReach hm)⟩
  (exec_keeps keep h ⟨rfl, agentReach_self s.agent s⟩).2

/-- An operation on an agent's turn changes nothing but what both reach. -/
theorem exec_reach_of_agent {a : Agent} (ha : s.agent = a) (h : exec i s = .next t) :
    t = reach i (agentReach a t s) s :=
  (exec_reach h).trans (congrArg (reach i · s) (ha ▸ exec_agentReach h))

end

/-! ### Which slots a producer fills -/

/-- `b'` is `b` after a producer has advanced `tail` so far that with `left` slots still to fill it fills at
most the `m` slots from `b.tail` on; no other slot has changed. -/
structure Fills {α : Type} [Inhabited α] (n m left : Nat) (b b' : RingBuf α) : Prop where
  tail : ∃ k, k + left ≤ m ∧ b'.tail = (advance n)^[k] b.tail
  slots : ∀ j, (∀ k < m, j ≠ ((advance n)^[k] b.tail).toNat) → slotAt b' j = slotAt b j

section
variable {α : Type} [Inhabited α] {n m left left' : Nat} {b b' b'' : RingBuf α} {v : α}

theorem Fills.refl (h : left ≤ m) : Fills n m left b b :=
  ⟨⟨0, by omega, rfl⟩, fun _ _ => rfl⟩

/-- A producer that leaves `tail` and the slots alone may come to have less to fill. -/
theorem Fills.of_eq (h : Fills n m left b b') (hle : left' ≤ left) (htail : b''.tail = b'.tail)
    (hmem : b''.mem = b'.mem) : Fills n m left' b b'' := by
  obtain ⟨k, hk, hadv⟩ := h.tail
  exact ⟨⟨k, by omega, htail.trans hadv⟩, fun j hj => (slotAt_congr hmem j).trans (h.slots j hj)⟩

/-- E2 writes one of the slots still to fill. -/
theorem Fills.slotWrite (h : Fills n m left b b') (hpos : 0 < left) :
    Fills n m left b (slotWrite b' b'.tail v) := by
  obtain ⟨k, hk, hadv⟩ := h.tail
  refine ⟨⟨k, hk, hadv⟩, fun j hj => ?_⟩
  have hne : j ≠ b'.tail.toNat := hadv ▸ hj k (by omega)
  exact (slotAt_slotWrite_other _ hne).trans (h.slots j hj)

/-- E3 leaves one slot less to fill. -/
theorem Fills.advance (h : Fills n m (left + 1) b b') :
    Fills n m left b { b' with tail := advance n b'.tail } := by
  obtain ⟨k, hk, hadv⟩ := h.tail
  refine ⟨⟨k + 1, by omega, ?_⟩, h.slots⟩
  rw [Function.iterate_succ_apply', ← hadv]

/-- The slots an ENQ has still to fill: one, until its E3. -/
def enqLeft : Option (α × EnqAt) → Nat
  | some (_, .e1) | some (_, .e2) | some (_, .e3) => 1
  | some (_, .e4) | none => 0

/-- Each micro-step of ENQ fills the slots it has to. -/
theorem Fills.enqMicro {r : Nat} {e : EnqAt} (h : Fills n m (r + enqLeft (some (v, e))) b b') :
    Fills n m (r + enqLeft (afterEnqMicro v (enqMicro n v e b').2)) b (enqMicro n v e b').1 := by
  cases e with
  | e1 =>
    by_cases hfull : b'.count.toNat = n
    · rw [enqMicro_e1_full hfull]
      exact h.of_eq (Nat.le_succ r) rfl rfl
    · rw [enqMicro_e1_room hfull]
      exact h
  | e2 => exact h.slotWrite (Nat.succ_pos r)
  | e3 => exact h.advance
  | e4 => exact h.of_eq le_rfl rfl rfl

/-- What one ENQ leaves alone. -/
theorem Fills.slots_one (h : Fills n 1 left b b') (j : Nat) (hj : j ≠ b.tail.toNat) :
    slotAt b' j = slotAt b j :=
  h.slots j fun k hk => by
    obtain rfl : k = 0 := by omega
    exact hj

/-- What two ENQs in a row leave alone. -/
theorem Fills.slots_two (h : Fills n 2 left b b') (j : Nat) (hj : j ≠ b.tail.toNat)
    (hj' : j ≠ (Machine.advance n b.tail).toNat) : slotAt b' j = slotAt b j :=
  h.slots j fun k hk => by
    obtain rfl | rfl : k = 0 ∨ k = 1 := by omega
    · exact hj
    · exact hj'

end

/-! ### The slots each producer's operation fills -/

/-- A word that is not accepted writes nothing but a response. -/
theorem respond_of_answerIllegal {why : Refusal} {s t : State} (h : answerIllegal why s = .next t) :
    t = respond t s := by
  unfold answerIllegal at h
  split at h
  · split_ifs at h <;> cases h <;> rfl
  · split_ifs at h; cases h; rfl
  · split_ifs at h; cases h; rfl
  all_goals cases h

theorem enqLeft_le_one {α : Type} (p : Option (α × EnqAt)) : enqLeft p ≤ 1 := by
  unfold enqLeft
  split <;> decide

/-- The slots HRX has still to fill: one, from its entry to its E3. -/
def rxLeft (s : State) : Nat :=
  match s.isr with
  | .rx .h1 => 1
  | .rx (.h2 _ _) | .rx .h3 | .none | .tx _ => enqLeft (rxbProducer s)

theorem rxLeft_le_one (s : State) : rxLeft s ≤ 1 := by
  unfold rxLeft
  split
  · exact le_rfl
  all_goals exact enqLeft_le_one _

/-- A WRITE in flight has at most two slots to fill (41_serial_transport.md R157). -/
theorem pendingOut_length_le_two (s : State) : (pendingOut s).length ≤ 2 := by
  have hexpand (byte : Byte) : (expand s.cfg byte).length ≤ 2 := by
    unfold expand
    split <;> simp
  have hlf (lf : Bool) : (if lf then [s.cfg.lf] else []).length ≤ 1 := by cases lf <;> simp
  unfold pendingOut
  split
  · exact hexpand _
  iterate 3 exact (hlf _).trans (by decide)
  iterate 3 exact Nat.succ_le_succ (hlf _)
  all_goals exact Nat.zero_le _

section
variable {m : Nat} {s t : State}

/-- Port P fills slots of the standalone RB inside its ENQ only. -/
theorem prodMicro_fills {b : RingBuf Nat} (h : Fills s.cfg.nRb m (enqLeft (rbProducer s)) b s.rb) :
    Fills s.cfg.nRb m (enqLeft (rbProducer (prodMicro s))) b (prodMicro s).rb := by
  cases hp : s.prod with
  | idle => simpa only [prodMicro, hp] using h
  | size =>
    simp only [prodMicro, hp]
    exact h.of_eq (Nat.zero_le _) rfl rfl
  | enq v e =>
    obtain ⟨hring, hafter⟩ := prodMicro_enq hp
    simp only [rbProducer, hp] at h
    rw [hring, hafter, ← Nat.zero_add (enqLeft _)]
    exact Fills.enqMicro (by rwa [Nat.zero_add])

/-- HRX fills slots of RXB inside H2's ENQ only, and HTX none. -/
theorem isrMicro_fills {b : RingBuf Byte} (h : Fills s.cfg.nRx m (rxLeft s) b s.rxb) :
    Fills s.cfg.nRx m (rxLeft (isrMicro s)) b (isrMicro s).rxb := by
  cases hi : s.isr with
  | none => simpa only [isrMicro, hi] using h
  | tx pos =>
    simp only [isrMicro, hi]
    cases pos <;> exact h.of_eq (Nat.zero_le _) rfl rfl
  | rx pos =>
    simp only [isrMicro, hi]
    cases pos with
    | h1 => exact h.of_eq (by simp only [rxLeft, hi]; exact le_rfl) rfl rfl
    | h3 => exact h.of_eq (Nat.zero_le _) rfl rfl
    | h2 d e =>
      simp only [rxLeft, rxbProducer, hi] at h
      have hring := Fills.enqMicro (r := 0) (v := d) (by rwa [Nat.zero_add])
      rw [Nat.zero_add] at hring
      simp only [rxMicro]
      cases hnext : (enqMicro s.cfg.nRx d e s.rxb).2 <;> rw [hnext] at hring <;> exact hring

/-- MAIN fills slots of TXB inside W2's ENQ only; what it has still to fill is what its WRITE has still to
enqueue. -/
theorem mainMicro_fills {b : RingBuf Byte} (h : Fills s.cfg.nTx m (pendingOut s).length b s.txb) :
    Fills s.cfg.nTx m (pendingOut (mainMicro s)).length b (mainMicro s).txb := by
  cases hm : s.main with
  | idle => simpa only [mainMicro, hm] using h
  | init _ pos =>
    simp only [mainMicro, hm]
    cases pos <;> exact h.of_eq (Nat.zero_le _) rfl rfl
  | read pos =>
    simp only [mainMicro, hm]
    cases pos <;> exact h.of_eq (Nat.zero_le _) rfl rfl
  | rmw _ _ pos =>
    simp only [mainMicro, hm]
    cases pos <;> exact h.of_eq (Nat.zero_le _) rfl rfl
  | get pin =>
    simp only [mainMicro, hm]
    exact h.of_eq (Nat.zero_le _) (by simp [getMicro]) (by simp [getMicro])
  | tsize | gien | gdis =>
    simp only [mainMicro, hm]
    exact h.of_eq (Nat.zero_le _) rfl rfl
  | write byte pos =>
    simp only [pendingOut, hm] at h
    simp only [mainMicro, hm]
    cases pos with
    | w1 =>
      refine h.of_eq ?_ rfl rfl
      simp only [writeMicro, expand]
      split_ifs <;> exact le_rfl
    | w2 cur lf e =>
      cases e with
      | e1 =>
        refine h.of_eq ?_ rfl rfl
        by_cases hfull : s.txb.count.toNat = s.cfg.nTx
        · simp [writeMicro, pendingOut, enqMicro_e1_full hfull, afterEnq]
        · simp [writeMicro, pendingOut, enqMicro_e1_room hfull, afterEnq]
      | e2 => exact h.slotWrite (Nat.succ_pos _)
      | e3 => exact h.advance
      | e4 => exact h.of_eq le_rfl rfl rfl
    | w3 lf => exact h.of_eq le_rfl rfl rfl
    | w4 lf => cases lf <;> exact h.of_eq le_rfl rfl rfl

end

section
variable {s t : State}

/-- What fills slots micro-step by micro-step fills them over a burst. -/
theorem burst_fills {α : Type} [Inhabited α] {stop : State → Bool} {micro : State → State} {m : Nat}
    (n : Config → Nat) (ring : State → RingBuf α) (left : State → Nat)
    (hcfg : ∀ u, (micro u).cfg = u.cfg)
    (keep : ∀ u b, Fills (n u.cfg) m (left u) b (ring u) →
      Fills (n u.cfg) m (left (micro u)) b (ring (micro u)))
    (k : Nat) (hleft : left s ≤ m) : Fills (n s.cfg) m 0 (ring s) (ring (burst stop micro k s)) := by
  obtain ⟨-, hfills⟩ := burst_induction (stop := stop)
    (P := fun u => u.cfg = s.cfg ∧ Fills (n s.cfg) m (left u) (ring s) (ring u))
    (fun u _ ⟨hu, h⟩ => ⟨(hcfg u).trans hu, hu ▸ keep u (ring s) (hu ▸ h)⟩) k ⟨rfl, .refl hleft⟩
  exact hfills.of_eq (Nat.zero_le _) rfl rfl

theorem runProd_fills (k : Nat) (s : State) : Fills s.cfg.nRb 1 0 s.rb (runProd k s).rb :=
  burst_fills Config.nRb State.rb (fun u => enqLeft (rbProducer u)) prodMicro_cfg
    (fun _ _ => prodMicro_fills) k (enqLeft_le_one _)

theorem runIsr_fills (k : Nat) (s : State) : Fills s.cfg.nRx 1 0 s.rxb (runIsr k s).rxb :=
  burst_fills Config.nRx State.rxb rxLeft isrMicro_cfg (fun _ _ => isrMicro_fills) k (rxLeft_le_one s)

theorem runMain_fills (k : Nat) (s : State) : Fills s.cfg.nTx 2 0 s.txb (runMain k s).txb :=
  burst_fills Config.nTx State.txb (fun u => (pendingOut u).length) mainMicro_cfg
    (fun _ _ => mainMicro_fills) k (pendingOut_length_le_two s)

/-- Port P begins its operation or goes on with it, for the turn's micro-steps. -/
theorem byProd_next {first : ProdOp} (h : byProd first s = .next t) :
    t = runProd s.steps (presentProd first s) ∨ t = runProd s.steps s := by
  unfold byProd at h
  split_ifs at h <;> cases h
  · exact .inl rfl
  · exact .inr rfl

/-- MAIN's turn passes, or it begins its operation or goes on with it. -/
theorem byMain_next {i : Instr} {first : Main} {bar : Option Refusal} (ha : s.agent = .main)
    (h : byMain i first bar s = .next t) :
    t = s ∨ t = runMain s.steps (presentMain first s) ∨ t = runMain s.steps s := by
  unfold byMain at h
  simp only [ha] at h
  split at h
  · split at h
    · cases h; exact .inr (.inl rfl)
    · cases h
    · split_ifs at h
      cases h
      exact .inr (.inr rfl)
  · cases h; exact .inl rfl

/-- HRX's turn passes, or the handler is entered or goes on. -/
theorem execIrqrx_next (ha : s.agent = .hrx) (h : execIrqrx s = .next t) :
    t = s ∨ t = runIsr s.steps (enterHandler (.rx .h1) s) ∨ t = runIsr s.steps s := by
  unfold execIrqrx at h
  simp only [ha] at h
  split at h
  · split_ifs at h <;> cases h
    · exact .inr (.inl rfl)
    · exact .inl rfl
  · cases h; exact .inr (.inr rfl)
  · cases h; exact .inl rfl

/-- ENQ on port P fills at most the slot at `tail`. -/
theorem exec_enq_fills {sel : Sel} {v : Byte} (ha : s.agent = .prod)
    (h : exec (.enq sel v) s = .next t) : Fills s.cfg.nRb 1 0 s.rb t.rb := by
  cases sel with
  | tx =>
    rw [exec_enq_of_prod ha] at h
    obtain rfl | rfl := byProd_next h
    · exact runProd_fills s.steps (presentProd _ s)
    · exact runProd_fills s.steps s
  | rx =>
    have hno : notAccepted s = .next t := by simpa [exec, execEnq, ha] using h
    rw [respond_of_answerIllegal hno]
    exact .refl (Nat.zero_le _)

/-- WRITE fills at most the two slots from `tail` on. -/
theorem exec_write_fills {v : Byte} (ha : s.agent = .main) (h : exec (.write v) s = .next t) :
    Fills s.cfg.nTx 2 0 s.txb t.txb := by
  obtain rfl | rfl | rfl := byMain_next ha h
  · exact .refl (Nat.zero_le _)
  · exact runMain_fills s.steps (presentMain _ s)
  · exact runMain_fills s.steps s

/-- IRQRX fills at most the slot at `tail`. -/
theorem exec_irqrx_fills (ha : s.agent = .hrx) (h : exec .irqrx s = .next t) :
    Fills s.cfg.nRx 1 0 s.rxb t.rxb := by
  obtain rfl | rfl | rfl := execIrqrx_next ha h
  · exact .refl (Nat.zero_le _)
  · exact runIsr_fills s.steps (enterHandler (.rx .h1) s)
  · exact runIsr_fills s.steps s

end

/-! ### The register each GPIO operation reaches -/

/-- The register of the GPIO space an operation reaches, if it reaches one (44_gpio.md R223 to R229). -/
def gpioRegister (c : Config) : Instr → Option Nat
  | .get pin => some (addrIn c (pinPort pin))
  | .high pin | .low pin | .setv pin _ | .toggle pin => some (addrOut c (pinPort pin))
  | .dirin pin | .dirout pin => some (addrDir c (pinPort pin))
  | .enq _ _ | .deq _ | .size _ | .init _ | .write _ | .read | .tsize _ | .gien | .gdis | .irqrx
  | .irqtx | .lrx _ | .ltx => none

theorem gpioRegister_rmwInstr (c : Config) (op : RmwOp) (pin : Byte) :
    gpioRegister c (rmwInstr op pin) = some (rmwAddr c op pin) := by
  cases op <;> rfl

section
variable {i : Instr} {s t : State} {a : Nat}

/-- MAIN writes no register of the GPIO space but its operation's. -/
theorem mainMicro_memRead_of_inFlight (hf : inFlight s = some i) (hwf : s.gpio.wf = true)
    (ha : gpioRegister s.cfg i ≠ some a) : memRead (mainMicro s).gpio a = memRead s.gpio a := by
  cases hm : s.main with
  | idle => simp [mainMicro, hm]
  | init _ pos => cases pos <;> simp [mainMicro, hm, initMicro]
  | write _ pos =>
    cases pos with
    | w4 lf => cases lf <;> simp [mainMicro, hm, writeMicro]
    | _ => simp [mainMicro, hm, writeMicro]
  | read pos => cases pos <;> simp [mainMicro, hm, readMicro]
  | tsize | gien | gdis => simp [mainMicro, hm]
  | rmw op pin pos =>
    cases (by simpa [inFlight, hm] using hf : rmwInstr op pin = i)
    rw [gpioRegister_rmwInstr] at ha
    have hne : a ≠ rmwAddr s.cfg op pin := fun h => ha (congrArg some h.symm)
    cases pos with
    | p1 => simp [mainMicro, hm, rmwMicro]
    | p2 x => simpa [mainMicro, hm, rmwMicro] using memRead_memWrite_other _ hwf hne
  | get pin =>
    cases (by simpa [inFlight, hm] using hf : Instr.get pin = i)
    have hne : a ≠ addrIn s.cfg (pinPort pin) := fun h => ha (congrArg some h.symm)
    simpa [mainMicro, hm, getMicro] using memRead_memWrite_other _ hwf hne

/-- A move under a GPIO operation writes no register but that operation's. -/
theorem move_memRead (h : Move (some i) s t) (hi : presenter i = .main) (hwf : s.gpio.wf = true)
    (ha : gpioRegister s.cfg i ≠ some a) : memRead t.gpio a = memRead s.gpio a := by
  cases h with
  | mainMicro _ _ h =>
    obtain ⟨-, -, ⟨hf, -⟩ | ⟨v, hv, -⟩ | ⟨hd, -⟩ | ⟨sel, hsel, -⟩⟩ := h
    · exact mainMicro_memRead_of_inFlight hf.symm hwf ha
    · cases hv; cases hi
    · cases hd; cases hi
    · cases hsel; cases hi
  | isrMicro => rw [isrMicro_frame]
  | prodMicro => rw [prodMicro_frame]
  | consMicro => rw [consMicro_frame]
  | _ => simp

theorem move_gpio_wf {i : Option Instr} (h : Move i s t) (hwf : s.gpio.wf = true) :
    t.gpio.wf = true := by
  cases h with
  | mainMicro => exact mainMicro_gpio_wf hwf
  | isrMicro => rw [isrMicro_frame]; exact hwf
  | prodMicro => rw [prodMicro_frame]; exact hwf
  | consMicro => rw [consMicro_frame]; exact hwf
  | _ => simpa using hwf

/-- An operation of port H writes no register of the GPIO space but its own. -/
theorem exec_memRead (h : exec i s = .next t) (hi : presenter i = .main) (hwf : s.gpio.wf = true)
    (ha : gpioRegister s.cfg i ≠ some a) : memRead t.gpio a = memRead s.gpio a := by
  have keep (x y : State) (hm : Move (some i) x y)
      (hx : x.cfg = s.cfg ∧ x.gpio.wf = true ∧ memRead x.gpio a = memRead s.gpio a) :
      y.cfg = s.cfg ∧ y.gpio.wf = true ∧ memRead y.gpio a = memRead s.gpio a := by
    obtain ⟨hcfg, hwf, hread⟩ := hx
    exact ⟨(move_cfg hm).trans hcfg, move_gpio_wf hm hwf,
      (move_memRead hm hi hwf (hcfg.symm ▸ ha)).trans hread⟩
  exact (exec_keeps keep h ⟨rfl, hwf, rfl⟩).2.2

end

/-! ### The frames -/

/-- Settles O57: each operation changes only what it reaches, and on its port only what the port reaches;
one ENQ fills one slot, and a consumer writes neither `tail` nor a slot. -/
theorem ringUnitFrame : Obligations.RingUnitFrame := by
  intro s t sel v
  refine ⟨fun h => ⟨exec_reach h, fun ha => ?_⟩, fun h => ⟨exec_reach h, fun ha => ?_⟩, exec_reach⟩
  · have hhead := (exec_ringsKept h).rb.consumer (by simp [ha])
    exact ⟨exec_reach_of_agent ha h, hhead, (exec_enq_fills ha h).slots_one⟩
  · have hslots := (exec_ringsKept h).rb.producer (by simp [ha])
    exact ⟨exec_reach_of_agent ha h, hslots⟩

/-- Settles O58: on MAIN's turn an operation changes only what both it and MAIN reach; one WRITE fills at
most two slots of TXB, and MAIN is no consumer of TXB and no producer of RXB. -/
theorem transportFrame : Obligations.TransportFrame := by
  intro s t ha
  refine ⟨fun v h => ?_, fun h => ?_, fun baud h => exec_reach_of_agent ha h,
    fun sel h => exec_reach_of_agent ha h, fun h => ?_⟩
  · have hhead := (exec_ringsKept h).txb.consumer (by simp [ha])
    exact ⟨exec_reach_of_agent ha h, hhead, (exec_write_fills ha h).slots_two⟩
  · have hslots := (exec_ringsKept h).rxb.producer (by simp [ha])
    exact ⟨exec_reach_of_agent ha h, hslots⟩
  · obtain h | h := h
    · exact exec_reach_of_agent ha h
    · exact exec_reach_of_agent ha h

/-- Settles O59: an event changes only what both it and its agent reach; one IRQRX fills at most one slot of
RXB, and HTX is no producer of TXB. -/
theorem eventFrame : Obligations.EventFrame := by
  intro s t
  refine ⟨fun ha h => ?_, fun ha h => ?_, fun ha v h => exec_reach_of_agent ha h,
    fun ha h => exec_reach_of_agent ha h⟩
  · have hhead := (exec_ringsKept h).rxb.consumer (by simp [ha])
    exact ⟨exec_reach_of_agent ha h, hhead, (exec_irqrx_fills ha h).slots_one⟩
  · have hslots := (exec_ringsKept h).txb.producer (by simp [ha])
    exact ⟨exec_reach_of_agent ha h, hslots⟩

/-- Settles O60: a GPIO operation changes only what both it and MAIN reach, and of the GPIO space only its
own register. -/
theorem gpioFrame : Obligations.GpioFrame := by
  intro s t op pin ha hwf
  refine ⟨fun h => ⟨?_, fun a hne => ?_⟩, fun h => ⟨exec_reach_of_agent ha h, fun a hne => ?_⟩⟩
  · have hreach := exec_reach_of_agent ha h
    rw [reach_rmwInstr] at hreach
    exact hreach
  · have hi : presenter (rmwInstr op pin) = .main := by cases op <;> rfl
    refine exec_memRead h hi hwf ?_
    rw [gpioRegister_rmwInstr]
    exact fun heq => hne (Option.some.inj heq).symm
  · exact exec_memRead h rfl hwf fun heq => hne (Option.some.inj heq).symm

end Sys2Proof.Machine

/-! SUPPORT. The proofs about the encoding (30_encoding.md): the rows of the opcode map, the round trip
between words and operations, the illegal words, and which words each port takes. -/

namespace Sys2Proof

/-! ### The fields of a word (30_encoding.md R91, R92) -/

section
variable {w : Word}

/-- A word is put together from its `unit`, its `fn` and its `arg`. -/
theorem word_of_fields {u f : BitVec 4} {arg : BitVec 24} (hu : w.extractLsb' 28 4 = u)
    (hf : w.extractLsb' 24 4 = f) (ha : argOf w = arg) : (u ++ f ++ arg : Word) = w := by
  subst hu hf ha
  rw [argOf, BitVec.extractLsb'_append_extractLsb'_eq_extractLsb' (by rfl),
    BitVec.extractLsb'_append_extractLsb'_eq_extractLsb' (by rfl)]
  exact BitVec.extractLsb'_eq_self

theorem selBit_selOf (w : Word) : selBit (selOf w) = w.extractLsb' 8 1 := by
  unfold selOf
  split
  · next h => exact h.symm
  · next h => exact ((BitVec.eq_zero_or_eq_one _).resolve_right h).symm

end

section
variable (u f : BitVec 4)

theorem argOf_append (arg : BitVec 24) : argOf (u ++ f ++ arg : Word) = arg :=
  BitVec.extractLsb'_append_eq_right

theorem lowByte_append (hi : BitVec 16) (v : Byte) :
    lowByte (u ++ f ++ (hi ++ v : BitVec 24) : Word) = v :=
  (BitVec.extractLsb'_append_eq_of_add_le (by decide)).trans BitVec.extractLsb'_append_eq_right

theorem highByte_append (hi : BitVec 8) (v v' : Byte) :
    highByte (u ++ f ++ (hi ++ v ++ v' : BitVec 24) : Word) = v :=
  (BitVec.extractLsb'_append_eq_of_add_le (by decide)).trans
    ((BitVec.extractLsb'_append_eq_of_le (by decide)).trans BitVec.extractLsb'_append_eq_right)

theorem selOf_append (hi : BitVec 15) (sel : Sel) (v : Byte) :
    selOf (u ++ f ++ (hi ++ selBit sel ++ v : BitVec 24) : Word) = sel := by
  have hbit : (u ++ f ++ (hi ++ selBit sel ++ v : BitVec 24) : Word).extractLsb' 8 1 = selBit sel :=
    (BitVec.extractLsb'_append_eq_of_add_le (by decide)).trans
      ((BitVec.extractLsb'_append_eq_of_le (by decide)).trans BitVec.extractLsb'_append_eq_right)
  rw [selOf, hbit]
  cases sel <;> rfl

end

section
variable {w : Word}

/-- Where a mask keeps a whole field, the masked word tells that field. -/
theorem extractLsb'_of_and {m r : Word} {start len : Nat} {v : BitVec len} (h : w &&& m = r)
    (hm : m.extractLsb' start len = BitVec.allOnes len) (hr : r.extractLsb' start len = v) :
    w.extractLsb' start len = v := by
  rw [← hr, ← h, BitVec.extractLsb'_and, hm, BitVec.and_allOnes]

theorem arg_of_zeroAbove9 (h : zeroAbove9 w = true) :
    argOf w = 0#15 ++ selBit (selOf w) ++ lowByte w := by
  rw [← eq_of_beq h, selBit_selOf, lowByte, BitVec.extractLsb'_append_extractLsb'_eq_extractLsb' (by rfl),
    BitVec.extractLsb'_append_extractLsb'_eq_extractLsb' (by rfl)]
  rfl

theorem arg_of_zeroButSel (h : zeroButSel w = true) : argOf w = 0#15 ++ selBit (selOf w) ++ 0#8 := by
  obtain ⟨habove, hlow⟩ := Bool.and_eq_true_iff.1 h
  rw [arg_of_zeroAbove9 habove, eq_of_beq hlow]

theorem arg_of_zeroAbove8 (h : zeroAbove8 w = true) : argOf w = 0#16 ++ lowByte w := by
  rw [← eq_of_beq h, lowByte, BitVec.extractLsb'_append_extractLsb'_eq_extractLsb' (by rfl)]
  rfl

theorem arg_of_zeroAbove16 (h : zeroAbove16 w = true) : argOf w = 0#8 ++ highByte w ++ lowByte w := by
  rw [← eq_of_beq h, lowByte, highByte, BitVec.extractLsb'_append_extractLsb'_eq_extractLsb' (by rfl),
    BitVec.extractLsb'_append_extractLsb'_eq_extractLsb' (by rfl)]
  rfl

end

/-! ### The rows of the opcode map (30_encoding.md R93) -/

/-- The operation of the row of `i` with the operands that `w` holds. -/
def withOperands (i : Instr) (w : Word) : Instr :=
  match i with
  | .enq _ _ => .enq (selOf w) (lowByte w)
  | .deq _ => .deq (selOf w)
  | .size _ => .size (selOf w)
  | .init _ => .init (argOf w)
  | .write _ => .write (lowByte w)
  | .tsize _ => .tsize (selOf w)
  | .lrx _ => .lrx (lowByte w)
  | .get _ => .get (lowByte w)
  | .high _ => .high (lowByte w)
  | .low _ => .low (lowByte w)
  | .dirin _ => .dirin (lowByte w)
  | .dirout _ => .dirout (lowByte w)
  | .setv _ _ => .setv (lowByte w) (highByte w)
  | .toggle _ => .toggle (lowByte w)
  | .read | .gien | .gdis | .irqrx | .irqtx | .ltx => i

/-- Whether `w` has a zero at every must-be-zero bit of the row of `i` (30_encoding.md R101 (c)). -/
def restZero (i : Instr) (w : Word) : Bool :=
  match i with
  | .enq _ _ => zeroAbove9 w
  | .deq _ | .size _ | .tsize _ => zeroButSel w
  | .init _ => true
  | .write _ | .lrx _ | .get _ | .high _ | .low _ | .dirin _ | .dirout _ | .toggle _ => zeroAbove8 w
  | .setv _ _ => zeroAbove16 w
  | .read | .gien | .gdis | .irqrx | .irqtx | .ltx => zeroArg w

/-- The `unit` of the row of `i`. -/
def unitCode : Instr → BitVec 4
  | .enq _ _ | .deq _ | .size _ => 1#4
  | .init _ | .write _ | .read | .tsize _ => 2#4
  | .gien | .gdis => 3#4
  | .irqrx | .irqtx | .lrx _ | .ltx => 4#4
  | .get _ | .high _ | .low _ | .dirin _ | .dirout _ | .setv _ _ | .toggle _ => 5#4

/-- The `fn` of the row of `i`. -/
def fnCode : Instr → BitVec 4
  | .enq _ _ | .init _ | .gien | .irqrx | .get _ => 0#4
  | .deq _ | .write _ | .gdis | .irqtx | .high _ => 1#4
  | .size _ | .read | .lrx _ | .low _ => 2#4
  | .tsize _ | .ltx | .dirin _ => 3#4
  | .dirout _ => 4#4
  | .setv _ _ => 5#4
  | .toggle _ => 6#4

/-- `w` has the `unit` and the `fn` of the row of `i`. -/
structure HasOpcode (i : Instr) (w : Word) : Prop where
  unit : w.extractLsb' 28 4 = unitCode i
  fn : w.extractLsb' 24 4 = fnCode i

/-- `w` selects the row of `i`. -/
def SelectsRow (i : Instr) (w : Word) : Prop := w &&& opMask i = opMatch i

section
variable {i : Instr} {w : Word}

@[simp] theorem opMatch_withOperands (i : Instr) (w : Word) : opMatch (withOperands i w) = opMatch i := by
  cases i <;> rfl

@[simp] theorem opMask_withOperands (i : Instr) (w : Word) : opMask (withOperands i w) = opMask i := by
  cases i <;> rfl

/-- A row's match is its `unit` and its `fn` over an empty `arg`. -/
theorem opMatch_eq (i : Instr) : opMatch i = unitCode i ++ fnCode i ++ 0#24 := by
  cases i <;> (simp only [opMatch, unitCode, fnCode]; decide)

/-- The word of every operation selects the operation's own row. -/
theorem selectsRow_encode (i : Instr) : SelectsRow i (encode i) := by
  cases i with
  | enq sel val => exact Laws.Row.enq sel val
  | deq sel => exact Laws.Row.deq sel
  | size sel => exact Laws.Row.size sel
  | init baud => exact Laws.Row.init baud
  | write val => exact Laws.Row.write val
  | read => exact Laws.Row.read
  | tsize sel => exact Laws.Row.tsize sel
  | gien => exact Laws.Row.gien
  | gdis => exact Laws.Row.gdis
  | irqrx => exact Laws.Row.irqrx
  | irqtx => exact Laws.Row.irqtx
  | lrx val => exact Laws.Row.lrx val
  | ltx => exact Laws.Row.ltx
  | get pin => exact Laws.Row.get pin
  | high pin => exact Laws.Row.high pin
  | low pin => exact Laws.Row.low pin
  | dirin pin => exact Laws.Row.dirin pin
  | dirout pin => exact Laws.Row.dirout pin
  | setv pin pval => exact Laws.Row.setv pin pval
  | toggle pin => exact Laws.Row.toggle pin

/-- The eight upper bits of a word are its opcode. -/
theorem hasOpcode_iff : HasOpcode i w ↔ w &&& 0xFF000000#32 = opMatch i := by
  constructor
  · rintro ⟨hu, hf⟩
    rw [opMatch_eq, ← word_of_fields hu hf rfl]
    exact Laws.Row.mask_word _ _ _ 0 BitVec.and_zero
  · intro h
    have hu : (opMatch i).extractLsb' 28 4 = unitCode i := by
      cases i <;> (simp only [opMatch, unitCode]; decide)
    have hf : (opMatch i).extractLsb' 24 4 = fnCode i := by
      cases i <;> (simp only [opMatch, fnCode]; decide)
    exact ⟨extractLsb'_of_and h (by decide) hu, extractLsb'_of_and h (by decide) hf⟩

/-- A row's mask covers the opcode, and its match has no other bits. -/
theorem SelectsRow.hasOpcode (h : SelectsRow i w) : HasOpcode i w := by
  have hmask : opMask i &&& 0xFF000000#32 = 0xFF000000#32 := by
    cases i <;> (simp only [opMask]; decide)
  have hmatch : opMatch i &&& 0xFF000000#32 = opMatch i := by
    cases i <;> (simp only [opMatch]; decide)
  rw [hasOpcode_iff, ← hmask, ← BitVec.and_assoc, h, hmatch]

/-- A word of a row without a must-be-zero bit set is its operands' word. -/
theorem encode_withOperands (h : HasOpcode i w) (hz : restZero i w = true) :
    encode (withOperands i w) = w := by
  cases i with
  | enq => exact word_of_fields h.unit h.fn (arg_of_zeroAbove9 hz)
  | deq | size | tsize => exact word_of_fields h.unit h.fn (arg_of_zeroButSel hz)
  | init => exact word_of_fields h.unit h.fn rfl
  | write | lrx | get | high | low | dirin | dirout | toggle =>
    exact word_of_fields h.unit h.fn (arg_of_zeroAbove8 hz)
  | setv => exact word_of_fields h.unit h.fn (arg_of_zeroAbove16 hz)
  | read | gien | gdis | irqrx | irqtx | ltx => exact word_of_fields h.unit h.fn (eq_of_beq hz)

theorem restZero_of_selectsRow (h : SelectsRow i w) : restZero i w = true := by
  cases i with
  | init => rfl
  | deq | size | tsize =>
    have habove : zeroAbove9 w = true := beq_iff_eq.2
      (extractLsb'_of_and h (by simp only [opMask]; decide) (by simp only [opMatch]; decide))
    have hlow : (lowByte w == 0#8) = true := beq_iff_eq.2
      (extractLsb'_of_and h (by simp only [opMask]; decide) (by simp only [opMatch]; decide))
    exact Bool.and_eq_true_iff.2 ⟨habove, hlow⟩
  | _ =>
    exact beq_iff_eq.2
      (extractLsb'_of_and h (by simp only [opMask]; decide) (by simp only [opMatch]; decide))

/-- A word with the row's opcode selects the row when its must-be-zero bits are zero. -/
theorem HasOpcode.selectsRow_iff (h : HasOpcode i w) : SelectsRow i w ↔ restZero i w = true := by
  refine ⟨restZero_of_selectsRow, fun hz => ?_⟩
  have hrow := selectsRow_encode (withOperands i w)
  rwa [encode_withOperands h hz, SelectsRow, opMask_withOperands, opMatch_withOperands] at hrow

/-- Reading the operands back from an operation's word. -/
theorem withOperands_encode (i : Instr) : withOperands i (encode i) = i := by
  cases i with
  | enq => exact congrArg₂ Instr.enq (selOf_append ..) (lowByte_append ..)
  | deq => exact congrArg Instr.deq (selOf_append ..)
  | size => exact congrArg Instr.size (selOf_append ..)
  | init => exact congrArg Instr.init (argOf_append ..)
  | write => exact congrArg Instr.write (lowByte_append ..)
  | tsize => exact congrArg Instr.tsize (selOf_append ..)
  | lrx => exact congrArg Instr.lrx (lowByte_append ..)
  | get => exact congrArg Instr.get (lowByte_append ..)
  | high => exact congrArg Instr.high (lowByte_append ..)
  | low => exact congrArg Instr.low (lowByte_append ..)
  | dirin => exact congrArg Instr.dirin (lowByte_append ..)
  | dirout => exact congrArg Instr.dirout (lowByte_append ..)
  | setv => exact congrArg₂ Instr.setv (lowByte_append ..) (highByte_append ..)
  | toggle => exact congrArg Instr.toggle (lowByte_append ..)
  | read | gien | gdis | irqrx | irqtx | ltx => rfl

/-- What the decoder reads from a word with a row's opcode. -/
theorem decode_of_hasOpcode (h : HasOpcode i w) :
    decode w = if (withOperands i w).wf then whenZero (restZero i w) (withOperands i w)
      else .illegal .zeroBaud := by
  have hu : unitOf w = (unitCode i).toNat := congrArg BitVec.toNat h.unit
  have hf : fnOf w = (fnCode i).toNat := congrArg BitVec.toNat h.fn
  cases i with
  | enq | deq | size => simp [decode, hu, decodeRb, hf, unitCode, fnCode, withOperands, Instr.wf, restZero]
  | init =>
    simp [decode, hu, decodeSt, hf, unitCode, fnCode, withOperands, Instr.wf, restZero, whenZero]
  | write | read | tsize =>
    simp [decode, hu, decodeSt, hf, unitCode, fnCode, withOperands, Instr.wf, restZero]
  | gien | gdis => simp [decode, hu, decodeIc, hf, unitCode, fnCode, withOperands, Instr.wf, restZero]
  | irqrx | irqtx | lrx | ltx =>
    simp [decode, hu, decodeEv, hf, unitCode, fnCode, withOperands, Instr.wf, restZero]
  | get | high | low | dirin | dirout | setv | toggle =>
    simp [decode, hu, decodeGp, hf, unitCode, fnCode, withOperands, Instr.wf, restZero]

/-- A word of a row, if it is not INIT's with `baud` 0, decodes to its operands' operation. -/
theorem decode_of_selectsRow (h : SelectsRow i w) (hwf : (withOperands i w).wf = true) :
    decode w = .instr (withOperands i w) := by
  rw [decode_of_hasOpcode h.hasOpcode, if_pos hwf, restZero_of_selectsRow h]
  rfl

/-- A word with a row's opcode that is not of the row is illegal. -/
theorem illegal_of_not_selectsRow (h : HasOpcode i w) (hrow : ¬ SelectsRow i w) :
    ∃ why, decode w = .illegal why := by
  rw [h.selectsRow_iff, Bool.not_eq_true] at hrow
  rw [decode_of_hasOpcode h, hrow]
  split
  · exact ⟨_, rfl⟩
  · exact ⟨_, rfl⟩

/-! ### The opcodes with no row (30_encoding.md R101 (a), (b)) -/

/-- An opcode with no row: a reserved `unit`, or a `fn` beyond those of its unit. -/
abbrev ReservedOpcode (unit fn : Nat) : Prop :=
  (unit = 0 ∨ 6 ≤ unit)
    ∨ ((unit = 1 ∧ 3 ≤ fn) ∨ (unit = 2 ∧ 4 ≤ fn) ∨ (unit = 3 ∧ 2 ≤ fn) ∨ (unit = 4 ∧ 4 ≤ fn)
      ∨ (unit = 5 ∧ 7 ≤ fn))

theorem illegal_of_reservedOpcode (h : ReservedOpcode (unitOf w) (fnOf w)) :
    ∃ why, decode w = .illegal why := by
  obtain (hu | hu) | ⟨hu, hf⟩ | ⟨hu, hf⟩ | ⟨hu, hf⟩ | ⟨hu, hf⟩ | ⟨hu, hf⟩ := h
  · exact ⟨.reservedUnit, by simp [decode, hu]⟩
  · obtain ⟨n, hn⟩ := Nat.exists_eq_add_of_le' hu
    exact ⟨.reservedUnit, by simp [decode, hn]⟩
  all_goals
    obtain ⟨n, hn⟩ := Nat.exists_eq_add_of_le' hf
    exact ⟨.reservedFn, by
      simp [decode, hu, hn, decodeRb, decodeSt, decodeIc, decodeEv, decodeGp]⟩

/-- One operation of each row. -/
def rowSamples : List Instr :=
  [.enq .tx 0#8, .deq .tx, .size .tx, .init 0#24, .write 0#8, .read, .tsize .tx, .gien, .gdis, .irqrx,
    .irqtx, .lrx 0#8, .ltx, .get 0#8, .high 0#8, .low 0#8, .dirin 0#8, .dirout 0#8, .setv 0#8 0#8,
    .toggle 0#8]

/-- Every opcode is a row's, or has none. -/
theorem reservedOpcode_or_row :
    ∀ u f : BitVec 4, ReservedOpcode u.toNat f.toNat ∨ ∃ i ∈ rowSamples, u = unitCode i ∧ f = fnCode i := by
  decide

theorem exists_hasOpcode (h : ¬ ReservedOpcode (unitOf w) (fnOf w)) : ∃ i, HasOpcode i w := by
  obtain ⟨i, -, hu, hf⟩ := (reservedOpcode_or_row _ _).resolve_left h
  exact ⟨i, hu, hf⟩

/-! ### The round trip (30_encoding.md R91 to R93) -/

/-- The only operation that is not well formed has the word of INIT with `baud` 0. -/
theorem encode_of_not_wf (h : i.wf = false) : encode i = 0x20000000#32 := by
  cases i with
  | init baud =>
    obtain rfl : baud = 0#24 := by simpa [Instr.wf] using h
    rfl
  | _ => cases h

theorem decode_encode (h : i.wf = true) : decode (encode i) = .instr i := by
  have hop := withOperands_encode i
  exact (decode_of_selectsRow (selectsRow_encode i) (hop.symm ▸ h)).trans (congrArg Decoded.instr hop)

/-- What decodes is a word of a row, and its meaning is the row's operation with the word's operands. -/
theorem eq_withOperands_of_decode (h : decode w = .instr i) :
    ∃ k, SelectsRow k w ∧ (withOperands k w).wf = true ∧ i = withOperands k w := by
  have hlegal : ¬ ∃ why, decode w = .illegal why := by simp [h]
  obtain ⟨k, hk⟩ := exists_hasOpcode fun hr => hlegal (illegal_of_reservedOpcode hr)
  have hrow : SelectsRow k w := by_contra fun hrow => hlegal (illegal_of_not_selectsRow hk hrow)
  rw [decode_of_hasOpcode hk, restZero_of_selectsRow hrow] at h
  split at h
  · next hwf => cases h; exact ⟨k, hrow, hwf, rfl⟩
  · cases h

theorem encode_of_decode (h : decode w = .instr i) : encode i = w := by
  obtain ⟨k, hrow, -, rfl⟩ := eq_withOperands_of_decode h
  exact encode_withOperands hrow.hasOpcode (restZero_of_selectsRow hrow)

theorem wf_of_decode (h : decode w = .instr i) : i.wf = true := by
  obtain ⟨k, -, hwf, rfl⟩ := eq_withOperands_of_decode h
  exact hwf

theorem SelectsRow.exists_decode (h : SelectsRow i w) (hw : w ≠ 0x20000000#32) :
    ∃ j, decode w = .instr j ∧ opMatch j = opMatch i := by
  refine ⟨withOperands i w, decode_of_selectsRow h (by_contra fun hwf => hw ?_), opMatch_withOperands i w⟩
  rw [← encode_withOperands h.hasOpcode (restZero_of_selectsRow h)]
  exact encode_of_not_wf (Bool.not_eq_true _ ▸ hwf)

end

/-- Settles O1: an operation's word lies in the operation's row, and a word of a row decodes to the operation
its operands make. -/
theorem decodeInvertsEncode : Obligations.DecodeInvertsEncode := fun _ => decode_encode

/-- Settles O2: a word that decodes lies in a row and holds zeros where the row asks for them, so it is the
word of its operands. -/
theorem decodedWordReencodes : Obligations.DecodedWordReencodes :=
  fun _ _ h => ⟨encode_of_decode h, wf_of_decode h⟩

/-- Settles O3: a decoded word is its operation's, which lies in its own row; the masks cover the opcode, so
two rows a word selects have one opcode. -/
theorem opcodeMapSelectsRows : Obligations.OpcodeMapSelectsRows := by
  refine ⟨fun w i h => ?_, fun w i hrow hw => SelectsRow.exists_decode hrow hw, fun w i j hi hj => ?_⟩
  · rw [← encode_of_decode h]
    exact selectsRow_encode i
  · exact (hasOpcode_iff.1 (SelectsRow.hasOpcode hi)).symm.trans
      (hasOpcode_iff.1 (SelectsRow.hasOpcode hj))

/-- Exactly the words of R101 (a) to (d) are illegal. -/
theorem illegal_iff (w : Word) : (∃ why, decode w = .illegal why) ↔
    ReservedOpcode (unitOf w) (fnOf w) ∨ (∃ i, HasOpcode i w ∧ ¬ SelectsRow i w) ∨ w = 0x20000000#32 := by
  constructor
  · rintro ⟨why, hill⟩
    refine or_iff_not_imp_left.2 fun hr => ?_
    obtain ⟨i, hop⟩ := exists_hasOpcode hr
    by_cases hrow : SelectsRow i w
    · refine .inr (by_contra fun hw => ?_)
      obtain ⟨j, hj, -⟩ := hrow.exists_decode hw
      cases hill.symm.trans hj
    · exact .inl ⟨i, hop, hrow⟩
  · rintro (hr | ⟨i, hop, hrow⟩ | rfl)
    · exact illegal_of_reservedOpcode hr
    · exact illegal_of_not_selectsRow hop hrow
    · exact ⟨.zeroBaud, by decide⟩

/-- Settles O5: the decoder computes each of the ten readings. -/
theorem specWordsDecode : Obligations.SpecWordsDecode := by
  unfold Obligations.SpecWordsDecode
  decide

end Sys2Proof

namespace Sys2Proof.Machine

open Sys2Proof

/-! ### Words a port does not accept (30_encoding.md R98, R99, R101) -/

/-- The response word `ILLEGAL`/0 (30_encoding.md R95, R101). -/
theorem response_illegal : response .illegal 0#8 = 0x0300#16 := by decide

section
variable {why : Refusal} {s : State}

theorem answerIllegal_host (ha : s.agent = .main) (hn : noIsr s = true) (hm : mainIdle s = true) :
    answerIllegal why s = .next { s with hostResp := some 0x0300#16 } := by
  simp [answerIllegal, ha, hn, hm, answerHost, response_illegal]

theorem answerIllegal_host_busy (ha : s.agent = .main) (hn : noIsr s = true)
    (hm : mainIdle s = false) : answerIllegal why s = .refused .portBusy := by
  simp [answerIllegal, ha, hn, hm]

theorem answerIllegal_prod (ha : s.agent = .prod) (hp : prodIdle s = true) :
    answerIllegal why s = .next { s with prodResp := some 0x0300#16 } := by
  simp [answerIllegal, ha, hp, answerProd, response_illegal]

theorem answerIllegal_prod_busy (ha : s.agent = .prod) (hp : prodIdle s = false) :
    answerIllegal why s = .refused .portBusy := by
  simp [answerIllegal, ha, hp]

theorem answerIllegal_cons (ha : s.agent = .cons) (hc : consIdle s = true) :
    answerIllegal why s = .next { s with consResp := some 0x0300#16, consValue := none } := by
  simp [answerIllegal, ha, hc, answerCons, response_illegal]

theorem answerIllegal_cons_busy (ha : s.agent = .cons) (hc : consIdle s = false) :
    answerIllegal why s = .refused .portBusy := by
  simp [answerIllegal, ha, hc]

/-- The agents without a port refuse. -/
theorem answerIllegal_label (ha : s.agent = .hrx ∨ s.agent = .htx ∨ s.agent = .line) :
    answerIllegal why s = .refused why := by
  obtain ha | ha | ha := ha <;> simp [answerIllegal, ha]

end

/-- An illegal word at the head of the schedule is put to its turn's agent. -/
theorem step_of_illegal {s : State} {t : Turn} {rest : List Turn} {why : Illegal}
    (hs : s.sched = t :: rest) (hd : decode t.word = .illegal why) :
    step s = illegalWord
      { s with sched := rest, agent := t.agent, steps := t.steps, above := t.above } := by
  simp [step, nextTurn, hs, hd]

/-- Settles O4: a word with no row's opcode is reserved, one with a row's opcode is illegal for its
must-be-zero bits or for INIT's `baud`; an idle port answers it and does nothing else. -/
theorem illegalWordsAnsweredIllegal : Obligations.IllegalWordsAnsweredIllegal := by
  refine ⟨fun w => ?_, fun s t rest why hs hd => ?_⟩
  · rw [illegal_iff, or_assoc]
    simp only [hasOpcode_iff]
    rfl
  · rw [step_of_illegal hs hd]
    refine ⟨fun ha hn hm => ?_, fun ha hp => ?_, fun ha hc => ?_⟩
    · rw [ha]; exact answerIllegal_host rfl hn hm
    · rw [ha]; exact answerIllegal_prod rfl hp
    · rw [ha]; exact answerIllegal_cons rfl hc

/-! ### What each agent does not take (30_encoding.md R98 to R100, R104) -/

section
variable {i : Instr} {s : State}

theorem byMain_of_other {first : Main} {bar : Option Refusal} (ha : s.agent ≠ .main) :
    byMain i first bar s = notAccepted s := by
  unfold byMain
  split
  · next h => exact absurd h ha
  all_goals rfl

/-- INIT with `baud` 0 has no legal word and is answered as one. -/
theorem exec_of_not_wf (h : i.wf = false) : exec i s = notAccepted s := by
  cases i with
  | init baud =>
    obtain rfl : baud = 0#24 := by simpa [Instr.wf] using h
    rfl
  | _ => cases h

/-- A well-formed operation of port H is admitted there as every other is. -/
theorem exec_eq_byMain (hi : presenter i = .main) (hwf : i.wf = true) (s : State) :
    ∃ first bar, exec i s = byMain i first bar s := by
  cases i with
  | enq | deq | size | irqrx | irqtx | lrx | ltx => cases hi
  | init baud =>
    have h0 : baud ≠ 0#24 := by simpa [Instr.wf] using hwf
    exact ⟨_, _, if_neg h0⟩
  | _ => exact ⟨_, _, rfl⟩

/-- An operation outside unit RB is taken only by the agent it belongs to. -/
theorem exec_of_other (hprod : presenter i ≠ .prod) (hcons : presenter i ≠ .cons)
    (h : s.agent ≠ presenter i) : exec i s = notAccepted s := by
  cases i with
  | enq | size => exact absurd rfl hprod
  | deq => exact absurd rfl hcons
  | irqrx | irqtx | lrx | ltx =>
    simp only [exec, execIrqrx, execIrqtx, execLrx, execLtx]
    split
    · next ha => exact absurd ha h
    all_goals rfl
  | init baud => simp only [exec, execInit, byMain_of_other h, ite_self]
  | _ => exact byMain_of_other h

/-- Port H takes no word of units RB and EV while MAIN has nothing in flight. -/
theorem exec_of_main_idle (ha : s.agent = .main) (hm : s.main = .idle) (hi : presenter i ≠ .main) :
    exec i s = notAccepted s := by
  cases i with
  | enq => simp [exec, execEnq, ha, mainEnqueuing, hm]
  | deq => simp [exec, execDeq, ha, mainDequeuing, hm]
  | size => simp [exec, execSize, ha, mainSizing, hm]
  | _ => exact exec_of_other (by simp [presenter]) (by simp [presenter]) (ha.trans_ne hi.symm)

/-- What port P does not take, the role violation of an idle port apart. -/
theorem exec_of_prod (ha : s.agent = .prod) (henq : ∀ v, i ≠ .enq .tx v) (hsize : i ≠ .size .tx)
    (hdeq : i = .deq .tx → prodIdle s = false) : exec i s = notAccepted s := by
  cases i with
  | enq sel v =>
    cases sel with
    | tx => exact absurd rfl (henq v)
    | rx => simp [exec, execEnq, ha]
  | deq sel =>
    cases sel with
    | tx => simp [exec, execDeq, ha, hdeq rfl]
    | rx => simp [exec, execDeq, ha]
  | size sel =>
    cases sel with
    | tx => exact absurd rfl hsize
    | rx => simp [exec, execSize, ha]
  | _ => exact exec_of_other (by simp [presenter]) (by simp [presenter]) (by simp [ha, presenter])

/-- What port C does not take, the role violation of an idle port apart. -/
theorem exec_of_cons (ha : s.agent = .cons) (hdeq : i ≠ .deq .tx) (hsize : i ≠ .size .tx)
    (henq : ∀ v, i = .enq .tx v → consIdle s = false) : exec i s = notAccepted s := by
  cases i with
  | enq sel v =>
    cases sel with
    | tx => simp [exec, execEnq, ha, henq v rfl]
    | rx => simp [exec, execEnq, ha]
  | deq sel =>
    cases sel with
    | tx => exact absurd rfl hdeq
    | rx => simp [exec, execDeq, ha]
  | size sel =>
    cases sel with
    | tx => exact absurd rfl hsize
    | rx => simp [exec, execSize, ha]
  | _ => exact exec_of_other (by simp [presenter]) (by simp [presenter]) (by simp [ha, presenter])

/-- HRX takes its own event and the label of its ENQ in flight. -/
theorem exec_of_hrx (ha : s.agent = .hrx) (hi : i ≠ .irqrx)
    (henq : ∀ v, i = .enq .rx v → rxEnqueuing s ≠ some v) : exec i s = notAccepted s := by
  cases i with
  | enq sel v =>
    cases sel with
    | tx => simp [exec, execEnq, ha]
    | rx => simp [exec, execEnq, ha, henq v rfl]
  | deq => simp [exec, execDeq, ha]
  | size => simp [exec, execSize, ha]
  | irqrx => exact absurd rfl hi
  | _ => exact exec_of_other (by simp [presenter]) (by simp [presenter]) (by simp [ha, presenter])

/-- HTX takes its own event and the label of its DEQ in flight. -/
theorem exec_of_htx (ha : s.agent = .htx) (hi : i ≠ .irqtx)
    (hdeq : i = .deq .tx → txDequeuing s = false) : exec i s = notAccepted s := by
  cases i with
  | enq => simp [exec, execEnq, ha]
  | deq sel =>
    cases sel with
    | tx => simp [exec, execDeq, ha, hdeq rfl]
    | rx => simp [exec, execDeq, ha]
  | size => simp [exec, execSize, ha]
  | irqtx => exact absurd rfl hi
  | _ => exact exec_of_other (by simp [presenter]) (by simp [presenter]) (by simp [ha, presenter])

/-- LINE takes its two events. -/
theorem exec_of_line (ha : s.agent = .line) (hltx : i ≠ .ltx) (hlrx : ∀ v, i ≠ .lrx v) :
    exec i s = notAccepted s := by
  cases i with
  | enq => simp [exec, execEnq, ha]
  | deq => simp [exec, execDeq, ha]
  | size => simp [exec, execSize, ha]
  | lrx v => exact absurd rfl (hlrx v)
  | ltx => exact absurd rfl hltx
  | _ => exact exec_of_other (by simp [presenter]) (by simp [presenter]) (by simp [ha, presenter])

end

/-! ### The response word (30_encoding.md R95) -/

section
variable (st : Status) (v : Byte)

theorem response_reserved : (response st v).extractLsb' 10 6 = 0#6 :=
  (BitVec.extractLsb'_append_eq_of_le (by decide)).trans BitVec.extractLsb'_append_eq_left

theorem response_status : (response st v).extractLsb' 8 2 = statusCode st :=
  (BitVec.extractLsb'_append_eq_of_le (by decide)).trans BitVec.extractLsb'_append_eq_right

theorem response_value : (response st v).extractLsb' 0 8 = v := BitVec.extractLsb'_append_eq_right

end

theorem response_ok_ne_illegal (v : Byte) : response .ok v ≠ 0x0300#16 := fun h => by
  have hstatus := response_status .ok v
  rw [h] at hstatus
  revert hstatus
  decide

/-- Settles O6: each field of the response word is one part of what it is put together from. -/
theorem responseWordLayout : Obligations.ResponseWordLayout :=
  ⟨fun st v => ⟨response_reserved st v, response_status st v, response_value st v⟩, rfl, rfl, rfl, rfl⟩

/-! ### Port H (30_encoding.md R97, R98) -/

theorem hostReady_iff (s : State) :
    hostReady s = true ↔ s.agent = .main ∧ noIsr s = true ∧ mainIdle s = true := by
  simp [hostReady, and_assoc]

/-- MAIN's micro-steps answer `OK` only. -/
theorem mainMicro_hostResp (s : State) :
    (mainMicro s).hostResp = s.hostResp ∨ ∃ v, (mainMicro s).hostResp = some (response .ok v) := by
  cases hm : s.main with
  | idle => simp [mainMicro, hm]
  | init _ pos => cases pos <;> simp [mainMicro, hm, initMicro]
  | write _ pos =>
    cases pos with
    | w4 lf => cases lf <;> simp [mainMicro, hm, writeMicro]
    | _ => simp [mainMicro, hm, writeMicro]
  | read pos => cases pos <;> simp [mainMicro, hm, readMicro]
  | rmw _ _ pos => cases pos <;> simp [mainMicro, hm, rmwMicro]
  | tsize | gien | gdis => simp [mainMicro, hm]
  | get => simp [mainMicro, hm, getMicro]

theorem runMain_hostResp_ne_illegal (k : Nat) {s : State} (h : s.hostResp ≠ some 0x0300#16) :
    (runMain k s).hostResp ≠ some 0x0300#16 := by
  refine burst_induction (P := fun x => x.hostResp ≠ some 0x0300#16) (fun x _ hx => ?_) k h
  obtain hsame | ⟨v, hok⟩ := mainMicro_hostResp x
  · rwa [hsame]
  · rw [hok]
    exact fun heq => response_ok_ne_illegal v (Option.some.inj heq)

/-- An operation port H accepts is not answered `ILLEGAL`. -/
theorem exec_hostResp_ne_illegal {i : Instr} {s t : State} (hready : hostReady s = true)
    (hwf : i.wf = true) (hi : presenter i = .main) (h : exec i s = .next t) :
    t.hostResp ≠ some 0x0300#16 := by
  obtain ⟨ha, hn, hm⟩ := (hostReady_iff s).1 hready
  have hf := (inFlight_eq_none s).2 hm
  obtain ⟨first, bar, hexec⟩ := exec_eq_byMain hi hwf s
  rw [hexec] at h
  cases bar with
  | none =>
    rw [byMain_idle ha hn hf] at h
    cases h
    exact runMain_hostResp_ne_illegal _ (by simp)
  | some why => exact nomatch (byMain_barred ha hn hf).symm.trans h

/-- The operations of port H are those of units ST, IC and GP. -/
theorem presenter_eq_main_iff (i : Instr) :
    presenter i = .main ↔ unitOf (encode i) = 2 ∨ unitOf (encode i) = 3 ∨ unitOf (encode i) = 5 := by
  have hunit : unitOf (encode i) = (unitCode i).toNat :=
    congrArg BitVec.toNat (selectsRow_encode i).hasOpcode.unit
  rw [hunit]
  cases i <;> simp [presenter, unitCode]

/-- Settles O8: the operations of port H are those of three units; an idle MAIN takes no others, and answers
those it takes with `OK`. -/
theorem hostPortAdmission : Obligations.HostPortAdmission := by
  refine ⟨presenter_eq_main_iff, fun s hready => ?_⟩
  obtain ⟨ha, hn, hm⟩ := (hostReady_iff s).1 hready
  refine ⟨fun i hi => ?_, answerIllegal_host ha hn hm, fun i hwf hi t h =>
    exec_hostResp_ne_illegal hready hwf hi h⟩
  rw [exec_of_main_idle ha ((mainIdle_eq s).1 hm) hi]
  exact answerIllegal_host ha hn hm

/-- Settles O10: port H refuses what is not the operation in flight, INIT with `baud` 0 as a word it does not
accept. -/
theorem hostPortTakesOneOperation : Obligations.HostPortTakesOneOperation := by
  intro s i j ha hn hf hi hne
  cases hwf : i.wf with
  | true =>
    obtain ⟨first, bar, hexec⟩ := exec_eq_byMain hi hwf s
    rw [hexec, byMain_busy ha hn hf hne.symm]
  | false =>
    have hm : mainIdle s = false := by
      rw [Bool.eq_false_iff, ne_eq, ← inFlight_eq_none, hf]
      simp
    rw [exec_of_not_wf hwf]
    exact answerIllegal_host_busy ha hn hm

/-! ### Ports P and C (30_encoding.md R99, R104) -/

section
variable {i : Instr} {s : State}

/-- Port P with an operation in flight refuses every other. -/
theorem exec_of_prod_busy (ha : s.agent = .prod) (hp : prodIdle s = false)
    (henq : ∀ v, i = .enq .tx v → s.prod.first ≠ .enq (enqElement s v) .e1)
    (hsize : i = .size .tx → s.prod.first ≠ .size) : exec i s = .refused .portBusy := by
  by_cases hi : (∃ v, i = .enq .tx v) ∨ i = .size .tx
  · obtain ⟨v, rfl⟩ | rfl := hi
    · rw [exec_enq_of_prod ha, byProd_busy hp (henq v rfl)]
    · rw [exec_size_of_prod ha, byProd_busy hp (hsize rfl)]
  · obtain ⟨hnenq, hnsize⟩ := not_or.1 hi
    rw [exec_of_prod ha (not_exists.1 hnenq) hnsize fun _ => hp]
    exact answerIllegal_prod_busy ha hp

/-- Port C with an operation in flight refuses every other. -/
theorem exec_of_cons_busy (ha : s.agent = .cons) (hc : consIdle s = false)
    (hdeq : i = .deq .tx → s.cons.first ≠ .deq .d1)
    (hsize : i = .size .tx → s.cons.first ≠ .size) : exec i s = .refused .portBusy := by
  by_cases hi : i = .deq .tx ∨ i = .size .tx
  · obtain rfl | rfl := hi
    · rw [exec_deq_of_cons ha, byCons_busy hc (hdeq rfl)]
    · rw [exec_size_of_cons ha, byCons_busy hc (hsize rfl)]
  · obtain ⟨hndeq, hnsize⟩ := not_or.1 hi
    rw [exec_of_cons ha hndeq hnsize fun _ _ => hc]
    exact answerIllegal_cons_busy ha hc

end

/-- Settles O9: an idle port answers what it does not take, and one with an operation in flight refuses what
has another first position. -/
theorem ringPortAdmission : Obligations.RingPortAdmission := by
  intro s i
  refine ⟨fun ha hp henq hsize hdeq => ?_, fun ha hc henq hsize hdeq => ?_,
    fun ha => ⟨fun v e hp henq => ?_, fun hp hsize => ?_⟩,
    fun ha => ⟨fun d hc hdeq => ?_, fun hc hsize => ?_⟩⟩
  · rw [exec_of_prod ha henq hsize fun h => absurd h hdeq]
    exact answerIllegal_prod ha ((prodIdle_eq s).2 hp)
  · rw [exec_of_cons ha hdeq hsize fun v h => absurd h (henq v)]
    exact answerIllegal_cons ha ((consIdle_eq s).2 hc)
  · refine exec_of_prod_busy ha (by simp [prodIdle, hp]) (fun val hi heq => ?_) (by simp [hp, ProdOp.first])
    rw [hp, ProdOp.first, ProdOp.enq.injEq] at heq
    exact henq val hi heq.1.symm
  · exact exec_of_prod_busy ha (by simp [prodIdle, hp]) (by simp [hp, ProdOp.first])
      fun h => absurd h hsize
  · exact exec_of_cons_busy ha (by simp [consIdle, hc]) (fun h => absurd h hdeq)
      (by simp [hc, ConsOp.first])
  · exact exec_of_cons_busy ha (by simp [consIdle, hc]) (by simp [hc, ConsOp.first])
      fun h => absurd h hsize

/-- Settles O11: a ring's wrong side is refused by name, and what HRX, HTX and LINE do not take is refused
because they have no port to answer on. -/
theorem roleViolationsRefused : Obligations.RoleViolationsRefused := by
  intro s i
  refine ⟨fun ha hc v hi => ?_, fun ha hp hi => ?_, fun ha hi henq => ?_, fun ha hi hdeq => ?_,
    fun ha hltx hlrx => ?_⟩
  · simp [hi, exec, execEnq, ha, consIdle, hc]
  · simp [hi, exec, execDeq, ha, prodIdle, hp]
  · rw [exec_of_hrx ha hi henq]
    exact answerIllegal_label (.inl ha)
  · rw [exec_of_htx ha hi hdeq]
    exact answerIllegal_label (.inr (.inl ha))
  · rw [exec_of_line ha hltx hlrx]
    exact answerIllegal_label (.inr (.inr ha))

/-! ### Whole ring primitives (40_ring_buffer.md R121, R125) -/

section
variable {α : Type} {n k : Nat} {b : RingBuf α} {stop : State → Bool} {micro : State → State}

/-- Four micro-steps of an ENQ that finds room are the whole ENQ, wherever it is performed: `stateAt b r`
is the state with the ring `b` in which a micro-step has led to `r`. -/
theorem burst_enq {v : α} (stateAt : RingBuf α → EnqNext → State)
    (hmicro : ∀ b e, micro (stateAt b (.more e)) = stateAt (enqMicro n v e b).1 (enqMicro n v e b).2)
    (hgo : ∀ b e, stop (stateAt b (.more e)) = false) (hstop : ∀ b, stop (stateAt b .ok) = true)
    (hroom : b.count.toNat ≠ n) (hk : 4 ≤ k) :
    burst stop micro k (stateAt b (.more .e1)) = stateAt (ringPut n v b) .ok := by
  obtain ⟨j, rfl⟩ := Nat.exists_eq_add_of_le' hk
  rw [burst_of_go (hgo _ _), hmicro, enqMicro_e1_room hroom, burst_of_go (hgo _ _), hmicro, enqMicro_e2,
    burst_of_go (hgo _ _), hmicro, enqMicro_e3, burst_of_go (hgo _ _), hmicro, enqMicro_e4,
    burst_of_stop (hstop _)]
  rfl

/-- Four micro-steps of a DEQ that finds an element are the whole DEQ, wherever it is performed. -/
theorem burst_deq [Inhabited α] (stateAt : RingBuf α → DeqNext α → State)
    (hmicro : ∀ b d, micro (stateAt b (.more d)) = stateAt (deqMicro n d b).1 (deqMicro n d b).2)
    (hgo : ∀ b d, stop (stateAt b (.more d)) = false) (hstop : ∀ b v, stop (stateAt b (.ok v)) = true)
    (hsome : b.count ≠ 0#8) (hk : 4 ≤ k) :
    burst stop micro k (stateAt b (.more .d1)) = stateAt (ringTake n b) (.ok (slotAt b b.head.toNat)) := by
  obtain ⟨j, rfl⟩ := Nat.exists_eq_add_of_le' hk
  rw [burst_of_go (hgo _ _), hmicro, deqMicro_d1_some hsome, burst_of_go (hgo _ _), hmicro, deqMicro_d2,
    burst_of_go (hgo _ _), hmicro, deqMicro_d3, burst_of_go (hgo _ _), hmicro, deqMicro_d4,
    burst_of_stop (hstop _ _)]
  rfl

end

section
variable (s : State)

/-- `s` with TXB `b`, in WRITE after a micro-step of W2's ENQ has led to `r`. -/
def inWriteEnq (byte cur : Byte) (lf : Bool) (b : RingBuf Byte) (r : EnqNext) : State :=
  { s with txb := b, main := .write byte (afterEnq cur lf r) }

/-- `s` with RXB `b`, in HRX after a micro-step of H2's ENQ has led to `r`. -/
def inRxEnq (d : Byte) (b : RingBuf Byte) (r : EnqNext) : State :=
  { s with rxb := b, isr := .rx (afterEnqRx d r) }

/-- `s` with RXB `b`, in READ after a micro-step of Rd1's DEQ has led to `r`. -/
def inReadDeq (b : RingBuf Byte) (r : DeqNext Byte) : State :=
  { s with rxb := b, main := .read (afterDeqRead r) }

/-- `s` with TXB `b`, in HTX after a micro-step of T1's DEQ has led to `r`. -/
def inTxDeq (b : RingBuf Byte) (r : DeqNext Byte) : State :=
  { s with txb := b, isr := .tx (afterDeqTx r) }

end

section
variable {s : State}

/-- ENQ as the label of WRITE's ENQ runs it until it ends (30_encoding.md R100). -/
theorem exec_enq_of_write {byte cur : Byte} {lf : Bool} (ha : s.agent = .main) (hn : noIsr s = true)
    (hm : s.main = .write byte (.w2 cur lf .e1)) :
    exec (.enq .tx cur) s = .next (burst (fun t => mainEnqueuing t == none) mainMicro s.steps
      (inWriteEnq s byte cur lf s.txb (.more .e1))) := by
  have hs : inWriteEnq s byte cur lf s.txb (.more .e1) = s := by rw [inWriteEnq, afterEnq, ← hm]
  simp [exec, execEnq, ha, hn, mainEnqueuing, hm, hs]

/-- ENQ as the label of HRX's ENQ runs it until it ends. -/
theorem exec_enq_of_rx {d : Byte} (ha : s.agent = .hrx) (hi : s.isr = .rx (.h2 d .e1)) :
    exec (.enq .rx d) s = .next (burst (fun t => rxEnqueuing t == none) isrMicro s.steps
      (inRxEnq s d s.rxb (.more .e1))) := by
  have hs : inRxEnq s d s.rxb (.more .e1) = s := by rw [inRxEnq, afterEnqRx, ← hi]
  simp [exec, execEnq, ha, rxEnqueuing, hi, hs]

/-- DEQ as the label of READ's DEQ runs it until it ends. -/
theorem exec_deq_of_read (ha : s.agent = .main) (hn : noIsr s = true)
    (hm : s.main = .read (.rd1 .d1)) :
    exec (.deq .rx) s = .next (burst (fun t => !mainDequeuing t) mainMicro s.steps
      (inReadDeq s s.rxb (.more .d1))) := by
  have hs : inReadDeq s s.rxb (.more .d1) = s := by rw [inReadDeq, afterDeqRead, ← hm]
  simp [exec, execDeq, ha, hn, mainDequeuing, hm, hs]

/-- DEQ as the label of HTX's DEQ runs it until it ends. -/
theorem exec_deq_of_tx (ha : s.agent = .htx) (hi : s.isr = .tx (.t1 .d1)) :
    exec (.deq .tx) s = .next (burst (fun t => !txDequeuing t) isrMicro s.steps
      (inTxDeq s s.txb (.more .d1))) := by
  have hs : inTxDeq s s.txb (.more .d1) = s := by rw [inTxDeq, afterDeqTx, ← hi]
  simp [exec, execDeq, ha, txDequeuing, hi, hs]

/-- SIZE as the label of TSIZE's S1 takes it and ends. -/
theorem exec_size_of_tsize {sel : Sel} (ha : s.agent = .main) (hn : noIsr s = true)
    (hm : s.main = .tsize sel) (hk : 1 ≤ s.steps) :
    exec (.size sel) s = .next (finishMain (countOf s sel) s) := by
  have hgo : (mainSizing s == none) = false := by simp [mainSizing, hm]
  have hmicro : mainMicro s = finishMain (countOf s sel) s := by simp [mainMicro, hm]
  obtain ⟨k, hsteps⟩ := Nat.exists_eq_add_of_le' hk
  have hburst : burst (fun t => mainSizing t == none) mainMicro s.steps s
      = finishMain (countOf s sel) s := by
    rw [hsteps, burst_of_go hgo, hmicro]
    exact burst_of_stop rfl k
  rw [← hburst]
  simp [exec, execSize, ha, hn, mainSizing, hm]

end

/-- Settles O26: a label runs the primitive in flight until it ends, and a primitive that finds room or an
element ends after its fourth micro-step. -/
theorem ringLabelsPerformThePrimitive : Obligations.RingLabelsPerformThePrimitive := by
  intro s hk
  refine ⟨fun byte cur lf ha hn hm hroom => ?_, fun d ha hi hroom => ?_, fun ha hn hm hsome => ?_,
    fun ha hi hsome => ?_, fun sel ha hn hm => exec_size_of_tsize ha hn hm (by omega)⟩
  · rw [exec_enq_of_write ha hn hm, burst_enq (inWriteEnq s byte cur lf) (fun _ _ => rfl)
      (fun _ _ => rfl) (fun _ => rfl) hroom hk]
    rfl
  · rw [exec_enq_of_rx ha hi, burst_enq (inRxEnq s d) (fun _ _ => rfl) (fun _ _ => rfl) (fun _ => rfl)
      hroom hk]
    rfl
  · rw [exec_deq_of_read ha hn hm, burst_deq (n := s.cfg.nRx) (inReadDeq s) (fun _ _ => rfl)
      (fun _ _ => rfl) (fun _ _ => rfl) hsome hk]
    rfl
  · rw [exec_deq_of_tx ha hi, burst_deq (n := s.cfg.nTx) (inTxDeq s) (fun _ _ => rfl)
      (fun _ _ => rfl) (fun _ _ => rfl) hsome hk]
    rfl

end Sys2Proof.Machine

/-! SUPPORT. The proofs about the ring buffer (40_ring_buffer.md): the micro-step laws for every capacity and
element type, the queue laws that follow from them, and ENQ, DEQ and SIZE on ports P and C. -/

namespace Sys2Proof.Machine

open Sys2Proof

/-! ### Each micro-step, wherever the other side stands (40_ring_buffer.md R135) -/

/-- Settles O20: the micro-steps keep the ring's invariant one by one, and a producer at E2 has room for the
slot it writes. -/
theorem ringMicroStepsKeepInvariant : Obligations.RingMicroStepsKeepInvariant := by
  refine fun α _ n _ hn => ⟨fun b v e c h => ⟨h.after_enqMicro hn, fun he k hk => ?_⟩,
    fun b p d h => h.after_deqMicro hn⟩
  subst he
  exact h.tail_not_between hk

theorem takenAt_eq_nil {α : Type} {d : DeqAt α} (h : ∀ v, d ≠ .d3 v) : takenAt d = [] := by
  cases d with
  | d3 v => exact absurd rfl (h v)
  | d1 | d2 | d4 => rfl

/-- Settles O21: only E3 appends and only D3 takes, and from D3 to D4 the consumer carries what it took. -/
theorem ringIsFifoUnderInterleaving : Obligations.RingIsFifoUnderInterleaving := by
  refine fun α _ n _ hn => ⟨fun b v e c h => h.inRing_enqMicro hn, fun b p d h =>
    ⟨fun v hd => ?_, fun hd => ?_, fun v hd => ?_⟩⟩
  · subst hd
    exact h.inRing_deqMicro hn
  · rw [h.inRing_deqMicro hn, takenAt_eq_nil hd, List.nil_append]
  · rw [hd, deqMicro_d4]

/-! ### The queue of a ring at rest (40_ring_buffer.md R132) -/

section
variable {α : Type} [Inhabited α] {n : Nat} {b : RingBuf α}

@[simp] theorem queue_length : (queue n b).length = b.count.toNat := by
  simp [queue, liveFrom]

theorem queue_eq_nil_iff : queue n b = [] ↔ b.count = 0#8 := by
  rw [← List.length_eq_zero_iff, queue_length, BitVec.toNat_eq]
  rfl

/-- A whole ENQ on a ring at rest appends its element: E3 does, and E2 and E4 change nothing. -/
theorem RingOk.queue_ringPut (hn : n ≤ 255) (h : RingOk n b none none) (hroom : b.count.toNat < n)
    (v : α) : queue n (ringPut n v b) = queue n b ++ [v] := by
  have h2 : RingOk n b (some (v, .e2)) none :=
    { h with room := fun _ => hroom, cursors := h.cursors, stored := nofun }
  have h3 : RingOk n (slotWrite b b.tail v) (some (v, .e3)) none := h2.after_enqMicro hn
  have h4 : RingOk n { slotWrite b b.tail v with tail := advance n b.tail } (some (v, .e4)) none :=
    h3.after_enqMicro hn
  calc queue n (ringPut n v b)
      = inRing n { slotWrite b b.tail v with tail := advance n b.tail } (some (v, .e4)) none :=
        (h4.inRing_enqMicro hn).trans (List.append_nil _)
    _ = inRing n (slotWrite b b.tail v) (some (v, .e3)) none ++ [v] := h3.inRing_enqMicro hn
    _ = queue n b ++ [v] :=
        congrArg (· ++ [v]) ((h2.inRing_enqMicro hn).trans (List.append_nil _))

/-- A whole DEQ on a ring at rest takes the element at `head`: D3 does, and D2 and D4 change nothing. -/
theorem RingOk.queue_ringTake (hn : n ≤ 255) (h : RingOk n b none none) (hsome : b.count ≠ 0#8) :
    queue n b = slotAt b b.head.toNat :: queue n (ringTake n b) := by
  have h1 : RingOk n b none (some .d1) := ringOk_consumer_d1.2 h
  have h2 : RingOk n b none (some .d2) := by
    simpa only [deqMicro_d1_some hsome, afterDeqMicro] using h1.after_deqMicro hn
  have h3 : RingOk n b none (some (.d3 (slotAt b b.head.toNat))) := h2.after_deqMicro hn
  have h4 : RingOk n { b with head := advance n b.head } none (some (.d4 (slotAt b b.head.toNat))) :=
    h3.after_deqMicro hn
  calc queue n b
      = inRing n b none (some (.d3 (slotAt b b.head.toNat))) := h2.inRing_deqMicro hn
    _ = slotAt b b.head.toNat :: inRing n { b with head := advance n b.head } none
          (some (.d4 (slotAt b b.head.toNat))) := h3.inRing_deqMicro hn
    _ = slotAt b b.head.toNat :: queue n (ringTake n b) :=
        congrArg (slotAt b b.head.toNat :: ·) (h4.inRing_deqMicro hn)

end

/-! ### ENQ on port P (40_ring_buffer.md R121) -/

section
variable (s : State)

/-- `s` with the standalone RB `b`, after a micro-step of port P's ENQ of `v` has led to the given
outcome. -/
def inProdEnq (v : Nat) (b : RingBuf Nat) : EnqNext → State
  | .more e => { s with rb := b, prod := .enq v e }
  | .ok => finishProd .ok 0#8 { s with rb := b }
  | .full => finishProd .full 0#8 { s with rb := b }

theorem prodMicro_inProdEnq (v : Nat) (b : RingBuf Nat) (e : EnqAt) :
    prodMicro (inProdEnq s v b (.more e))
      = inProdEnq s v (enqMicro s.cfg.nRb v e b).1 (enqMicro s.cfg.nRb v e b).2 := by
  simp only [prodMicro, inProdEnq]
  obtain ⟨b', next⟩ := enqMicro s.cfg.nRb v e b
  cases next <;> rfl

/-- The first micro-step of a turn of an ENQ in flight. -/
theorem runProd_succ_inProdEnq (k : Nat) (v : Nat) (b : RingBuf Nat) (e : EnqAt) :
    runProd (k + 1) (inProdEnq s v b (.more e)) = runProd k
      (inProdEnq s v (enqMicro s.cfg.nRb v e b).1 (enqMicro s.cfg.nRb v e b).2) := by
  rw [← prodMicro_inProdEnq]
  exact burst_of_go rfl k

end

section
variable {s : State} {val : Byte}

/-- An ENQ in flight on port P goes on from where it stands. -/
theorem exec_enq_inFlight {e : EnqAt} (ha : s.agent = .prod)
    (hp : s.prod = .enq (enqElement s val) e) :
    exec (.enq .tx val) s
      = .next (runProd s.steps (inProdEnq s (enqElement s val) s.rb (.more e))) := by
  have hs : inProdEnq s (enqElement s val) s.rb (.more e) = s := by rw [inProdEnq, ← hp]
  rw [hs, exec_enq_of_prod ha, byProd_inFlight (by simp [prodIdle, hp]) (by rw [hp]; rfl)]

/-- An ENQ on an idle port P starts at E1, with no response yet. -/
theorem exec_enq_idle (ha : s.agent = .prod) (hp : s.prod = .idle) :
    exec (.enq .tx val) s = .next (runProd s.steps
      (inProdEnq { s with prodResp := none } (enqElement s val) s.rb (.more .e1))) := by
  rw [exec_enq_of_prod ha, byProd_idle ((prodIdle_eq s).2 hp)]
  rfl

/-- One micro-step of an ENQ in flight on port P. -/
theorem exec_enq_microStep {e : EnqAt} (ha : s.agent = .prod)
    (hp : s.prod = .enq (enqElement s val) e) (hsteps : s.steps = 1) :
    exec (.enq .tx val) s = .next (inProdEnq s (enqElement s val)
      (enqMicro s.cfg.nRb (enqElement s val) e s.rb).1
      (enqMicro s.cfg.nRb (enqElement s val) e s.rb).2) := by
  rw [exec_enq_inFlight ha hp, hsteps, runProd_succ_inProdEnq]
  rfl

/-- ENQ on a full ring answers `Full` at E1 and changes nothing else. -/
theorem exec_enq_full (ha : s.agent = .prod) (hp : s.prod = .idle)
    (hfull : s.rb.count.toNat = s.cfg.nRb) (hk : 1 ≤ s.steps) :
    exec (.enq .tx val) s = .next { s with prodResp := some (response .full 0#8) } := by
  obtain ⟨k, hsteps⟩ := Nat.exists_eq_add_of_le' hk
  rw [exec_enq_idle ha hp, hsteps, runProd_succ_inProdEnq, enqMicro_e1_full hfull,
    runProd, burst_prod_of_idle rfl]
  simp only [inProdEnq, finishProd, answerProd, ← hp]

/-- ENQ with room stores its element at `tail`, advances `tail`, publishes and answers `Ok`. -/
theorem exec_enq_room (ha : s.agent = .prod) (hp : s.prod = .idle)
    (hroom : s.rb.count.toNat ≠ s.cfg.nRb) (hk : 4 ≤ s.steps) :
    exec (.enq .tx val) s = .next { s with
      rb := ringPut s.cfg.nRb (enqElement s val) s.rb, prodResp := some (response .ok 0#8) } := by
  rw [exec_enq_idle ha hp, runProd, burst_enq (inProdEnq { s with prodResp := none } (enqElement s val))
    (prodMicro_inProdEnq _ _) (fun _ _ => rfl) (fun _ => rfl) hroom hk]
  simp only [inProdEnq, finishProd, answerProd, ← hp]

end

/-- Settles O23: each clause is the equation of E1, E2, E3 or E4 as port P's micro-step, or of the whole
operation. -/
theorem enqOnProducerPort : Obligations.EnqOnProducerPort := by
  intro s val ha v
  refine ⟨enqElement_fit, exec_enq_full ha, fun hp hroom hk => ?_, exec_enq_room ha,
    fun hp hk hfull => ?_, fun hp hk hroom => ?_, fun hp hk => exec_enq_microStep ha hp hk,
    fun hp hk => exec_enq_microStep ha hp hk, fun hp hk => exec_enq_microStep ha hp hk⟩
  · rw [exec_enq_idle ha hp, hk, runProd_succ_inProdEnq, enqMicro_e1_room hroom]
    rfl
  · rw [exec_enq_microStep ha hp hk, enqMicro_e1_full hfull]
    rfl
  · rw [exec_enq_microStep ha hp hk, enqMicro_e1_room hroom]
    rfl

/-! ### DEQ on port C (40_ring_buffer.md R125) -/

section
variable (s : State)

/-- `s` with the standalone RB `b`, after a micro-step of port C's DEQ has led to the given outcome. -/
def inConsDeq (b : RingBuf Nat) : DeqNext Nat → State
  | .more d => { s with rb := b, cons := .deq d }
  | .ok v => finishDeq v { s with rb := b }
  | .empty => finishCons .empty 0#8 { s with rb := b }

theorem consMicro_inConsDeq (b : RingBuf Nat) (d : DeqAt Nat) :
    consMicro (inConsDeq s b (.more d))
      = inConsDeq s (deqMicro s.cfg.nRb d b).1 (deqMicro s.cfg.nRb d b).2 := by
  simp only [consMicro, inConsDeq]
  obtain ⟨b', next⟩ := deqMicro s.cfg.nRb d b
  cases next <;> rfl

/-- The first micro-step of a turn of a DEQ in flight. -/
theorem runCons_succ_inConsDeq (k : Nat) (b : RingBuf Nat) (d : DeqAt Nat) :
    runCons (k + 1) (inConsDeq s b (.more d))
      = runCons k (inConsDeq s (deqMicro s.cfg.nRb d b).1 (deqMicro s.cfg.nRb d b).2) := by
  rw [← consMicro_inConsDeq]
  exact burst_of_go rfl k

end

section
variable {s : State}

/-- A DEQ in flight on port C goes on from where it stands. -/
theorem exec_deq_inFlight {d : DeqAt Nat} (ha : s.agent = .cons) (hc : s.cons = .deq d) :
    exec (.deq .tx) s = .next (runCons s.steps (inConsDeq s s.rb (.more d))) := by
  have hs : inConsDeq s s.rb (.more d) = s := by rw [inConsDeq, ← hc]
  rw [hs, exec_deq_of_cons ha, byCons_inFlight (by simp [consIdle, hc]) (by rw [hc]; rfl)]

/-- A DEQ on an idle port C starts at D1, with no response yet. -/
theorem exec_deq_idle (ha : s.agent = .cons) (hc : s.cons = .idle) :
    exec (.deq .tx) s = .next (runCons s.steps
      (inConsDeq { s with consResp := none, consValue := none } s.rb (.more .d1))) := by
  rw [exec_deq_of_cons ha, byCons_idle ((consIdle_eq s).2 hc)]
  rfl

/-- One micro-step of a DEQ in flight on port C. -/
theorem exec_deq_microStep {d : DeqAt Nat} (ha : s.agent = .cons) (hc : s.cons = .deq d)
    (hsteps : s.steps = 1) :
    exec (.deq .tx) s = .next
      (inConsDeq s (deqMicro s.cfg.nRb d s.rb).1 (deqMicro s.cfg.nRb d s.rb).2) := by
  rw [exec_deq_inFlight ha hc, hsteps, runCons_succ_inConsDeq]
  rfl

/-- DEQ on an empty ring answers `Empty` at D1 and changes nothing else. -/
theorem exec_deq_empty (ha : s.agent = .cons) (hc : s.cons = .idle) (hempty : s.rb.count = 0#8)
    (hk : 1 ≤ s.steps) :
    exec (.deq .tx) s
      = .next { s with consResp := some (response .empty 0#8), consValue := none } := by
  obtain ⟨k, hsteps⟩ := Nat.exists_eq_add_of_le' hk
  rw [exec_deq_idle ha hc, hsteps, runCons_succ_inConsDeq, deqMicro_d1_empty hempty,
    runCons, burst_cons_of_idle rfl]
  simp only [inConsDeq, finishCons, answerCons, ← hc]

/-- DEQ with an element answers it, advances `head` and releases the slot, which it leaves as it is. -/
theorem exec_deq_some (ha : s.agent = .cons) (hc : s.cons = .idle) (hsome : s.rb.count ≠ 0#8)
    (hk : 4 ≤ s.steps) :
    exec (.deq .tx) s = .next { s with
      rb := ringTake s.cfg.nRb s.rb
      consResp := some (response .ok (elementByte s.cfg (slotAt s.rb s.rb.head.toNat)))
      consValue := some (slotAt s.rb s.rb.head.toNat) } := by
  rw [exec_deq_idle ha hc, runCons, burst_deq (n := s.cfg.nRb)
    (inConsDeq { s with consResp := none, consValue := none })
    (consMicro_inConsDeq _) (fun _ _ => rfl) (fun _ _ => rfl) hsome hk]
  simp only [inConsDeq, finishDeq, finishCons, answerCons, ← hc]

end

/-- Settles O24: each clause is the equation of D1, D2, D3 or D4 as port C's micro-step, or of the whole
operation. -/
theorem deqOnConsumerPort : Obligations.DeqOnConsumerPort := by
  intro s ha
  refine ⟨fun v hw => elementByte_fit hw v, exec_deq_empty ha, fun hc hsome hk => ?_, exec_deq_some ha,
    fun hc hk hempty => ?_, fun hc hk hsome => ?_, fun hc hk => ?_,
    fun v hc hk => exec_deq_microStep ha hc hk, fun v hc hk => exec_deq_microStep ha hc hk⟩
  · rw [exec_deq_idle ha hc, hk, runCons_succ_inConsDeq, deqMicro_d1_some hsome]
    rfl
  · rw [exec_deq_microStep ha hc hk, deqMicro_d1_empty hempty]
    rfl
  · rw [exec_deq_microStep ha hc hk, deqMicro_d1_some hsome]
    rfl
  · rw [exec_deq_microStep ha hc hk]
    rfl

/-! ### SIZE on both ports (40_ring_buffer.md R129) -/

section
variable {s : State}

/-- SIZE in flight on port P answers `count` in its one micro-step. -/
theorem runProd_of_size (hp : s.prod = .size) (hk : 1 ≤ s.steps) :
    runProd s.steps s = finishProd .ok s.rb.count s := by
  obtain ⟨k, hsteps⟩ := Nat.exists_eq_add_of_le' hk
  have hmicro : prodMicro s = finishProd .ok s.rb.count s := by simp only [prodMicro, hp]
  rw [hsteps, runProd, burst_of_go (by simp only [prodIdle, hp]), hmicro, burst_prod_of_idle rfl]

/-- SIZE in flight on port C answers `count` in its one micro-step. -/
theorem runCons_of_size (hc : s.cons = .size) (hk : 1 ≤ s.steps) :
    runCons s.steps s = finishCons .ok s.rb.count s := by
  obtain ⟨k, hsteps⟩ := Nat.exists_eq_add_of_le' hk
  have hmicro : consMicro s = finishCons .ok s.rb.count s := by simp only [consMicro, hc]
  rw [hsteps, runCons, burst_of_go (by simp only [consIdle, hc]), hmicro, burst_cons_of_idle rfl]

/-- SIZE on port P, presented or in flight, ends with `count` in the response. -/
theorem exec_size_prod (ha : s.agent = .prod) (hk : 1 ≤ s.steps) (hp : s.prod = .idle ∨ s.prod = .size) :
    exec (.size .tx) s = .next (finishProd .ok s.rb.count s) := by
  rw [exec_size_of_prod ha]
  obtain hp | hp := hp
  · rw [byProd_idle ((prodIdle_eq s).2 hp)]
    exact congrArg _ (runProd_of_size (s := presentProd .size s) rfl hk)
  · rw [byProd_inFlight (by simp only [prodIdle, hp]) (by rw [hp]; rfl), runProd_of_size hp hk]

/-- SIZE on port C, presented or in flight, ends with `count` in the response. -/
theorem exec_size_cons (ha : s.agent = .cons) (hk : 1 ≤ s.steps) (hc : s.cons = .idle ∨ s.cons = .size) :
    exec (.size .tx) s = .next (finishCons .ok s.rb.count s) := by
  rw [exec_size_of_cons ha]
  obtain hc | hc := hc
  · rw [byCons_idle ((consIdle_eq s).2 hc)]
    exact congrArg _ (runCons_of_size (s := presentCons .size s) rfl hk)
  · rw [byCons_inFlight (by simp only [consIdle, hc]) (by rw [hc]; rfl), runCons_of_size hc hk]

end

/-- Settles O25: SIZE is one micro-step, which reads `count` and answers it. -/
theorem sizeOnRingPorts : Obligations.SizeOnRingPorts :=
  fun _ hk => ⟨fun ha hp => exec_size_prod ha hk hp, fun ha hc => exec_size_cons ha hk hc⟩

/-! ### ENQ, DEQ and SIZE with no overlap (40_ring_buffer.md R132) -/

/-- Settles O22: the port's whole operation puts into the ring or takes from it, and what that does to the
queue of a ring at rest is the FIFO law. -/
theorem sequentialQueueLaw : Obligations.SequentialQueueLaw := by
  intro s hinv hp hc
  obtain ⟨-, -, -, hn⟩ := Config.capacity_of_wf hinv.cfg
  have hring : RingOk s.cfg.nRb s.rb none none := by
    simpa only [rbProducer, rbConsumer, hp, hc] using hinv.rb
  simp only [queue_length, queue_eq_nil_iff, BitVec.ofNat_toNat, BitVec.setWidth_eq]
  refine ⟨fun ha hk val => ⟨fun hroom => ?_, fun hfull => ?_⟩,
    fun ha hk => ⟨fun x rest hq => ?_, fun hempty => ?_⟩, fun ha hk => ?_, fun ha hk => ?_⟩
  · exact ⟨_, exec_enq_room ha hp hroom.ne hk, rfl, hring.queue_ringPut hn hroom _⟩
  · exact ⟨_, exec_enq_full ha hp hfull (by omega), rfl, rfl⟩
  · have hsome : s.rb.count ≠ 0#8 := fun h0 => by simp [queue_eq_nil_iff.2 h0] at hq
    rw [hring.queue_ringTake hn hsome, List.cons.injEq] at hq
    obtain ⟨rfl, rfl⟩ := hq
    exact ⟨_, exec_deq_some ha hc hsome hk, rfl, rfl, rfl⟩
  · exact ⟨_, exec_deq_empty ha hc hempty (by omega), rfl, rfl, rfl⟩
  · rw [exec_size_prod ha hk (.inl hp)]
    simp only [finishProd, answerProd, ← hp]
  · rw [exec_size_cons ha hk (.inl hc)]
    simp only [finishCons, answerCons, ← hc]

end Sys2Proof.Machine

/-! SUPPORT. The proofs about the serial transport (41_serial_transport.md): the transmit gating under every
step, INIT, WRITE, READ and TSIZE whole and micro-step by micro-step, and what WRITE adds to the transmit
stream. -/

namespace Sys2Proof.Machine

open Sys2Proof

/-! ### The transmit gating (41_serial_transport.md R167) -/

/-- Nothing stands in TXB and no WRITE is in flight: INIT may clear `TXR_IE` and strands no byte. -/
structure Unwritten (s : State) : Prop where
  count : s.txb.count = 0#8
  main : mainWriting s = false

/-- No INIT is in flight, and the word `i` starts none. -/
structure NoInit (i : Option Instr) (s : State) : Prop where
  main : mainInitialising s = false
  word : ∀ baud, i ≠ some (.init baud)

/-- The gating, with what lets every move under the word `i` keep it. -/
structure GatedUnder (i : Option Instr) (s : State) : Prop where
  gated : TxGated s
  safe : Unwritten s ∨ NoInit i s

section
variable {i : Option Instr} {s t : State}

theorem Unwritten.txGated (h : Unwritten s) : TxGated s :=
  ⟨fun hpos => absurd hpos (by simp [h.count]), fun _ => h.count, fun _ => ⟨h.count, h.main⟩⟩

theorem Unwritten.gatedUnder (h : Unwritten s) : GatedUnder i s := ⟨h.txGated, .inl h⟩

/-- MAIN has neither a WRITE nor an INIT in flight. -/
def Inert (s : State) : Prop := mainWriting s = false ∧ mainInitialising s = false

/-- Only a WRITE stands before W3. -/
theorem beforeW3_of_not_writing (h : mainWriting s = false) : beforeW3 s = false := by
  unfold mainWriting at h
  unfold beforeW3
  split at h <;> simp_all

/-- What leaves TXB's count, its enable, `st`, HTX's T2b and MAIN's WRITE and INIT alone leaves the gating and
what keeps it. -/
theorem GatedUnder.of_same (h : GatedUnder i s) (hw3 : beforeW3 t = beforeW3 s)
    (hwriting : mainWriting t = mainWriting s) (hinit : mainInitialising t = mainInitialising s)
    (hcount : t.txb.count = s.txb.count) (hie : t.txrIe = s.txrIe) (hst : t.st = s.st)
    (hisr : t.isr = .tx .t2b → s.isr = .tx .t2b) : GatedUnder i t where
  gated :=
    { armed := by rw [hcount, hie, hw3]; exact h.gated.armed
      empty := fun hi => hcount.trans (h.gated.empty (hisr hi))
      fresh := by rw [hst, hcount, hwriting]; exact h.gated.fresh }
  safe := h.safe.imp (fun hu => ⟨hcount.trans hu.count, hwriting.trans hu.main⟩)
    (fun hn => ⟨hinit.trans hn.main, hn.word⟩)

/-- So does what leaves MAIN where it stands. -/
theorem GatedUnder.congr (h : GatedUnder i s) (hmain : t.main = s.main := by simp)
    (hcount : t.txb.count = s.txb.count := by simp) (hie : t.txrIe = s.txrIe := by simp)
    (hst : t.st = s.st := by simp) (hisr : t.isr = .tx .t2b → s.isr = .tx .t2b := by simp) :
    GatedUnder i t :=
  h.of_same (by simp only [beforeW3, hmain]) (by simp only [mainWriting, hmain])
    (by simp only [mainInitialising, hmain]) hcount hie hst hisr

/-- So does an operation of MAIN's that is neither WRITE nor INIT. -/
theorem GatedUnder.congr_inert (h : GatedUnder i s) (hs : Inert s) (ht : Inert t)
    (hcount : t.txb.count = s.txb.count := by simp) (hie : t.txrIe = s.txrIe := by simp)
    (hst : t.st = s.st := by simp) (hisr : t.isr = .tx .t2b → s.isr = .tx .t2b := by simp) :
    GatedUnder i t :=
  h.of_same ((beforeW3_of_not_writing ht.1).trans (beforeW3_of_not_writing hs.1).symm)
    (ht.1.trans hs.1.symm) (ht.2.trans hs.2.symm) hcount hie hst hisr

/-! ### MAIN's part of the gating -/

/-- With `st` Uninitialized nothing has been written yet. -/
theorem TxGated.ready_of_writing (h : TxGated s) (hw : mainWriting s = true) : s.st = .ready := by
  cases hst : s.st with
  | ready => rfl
  | uninitialized => exact nomatch (h.fresh hst).2.symm.trans hw

/-- A micro-step of INIT with nothing written leaves nothing written. -/
theorem initMicro_unwritten (baud : BitVec 24) (pos : InitAt) (h : Unwritten s) :
    Unwritten (initMicro baud pos s) := by
  cases pos <;> exact ⟨h.count, rfl⟩

/-- A WRITE publishes at E4, just before W3, and at W3 the enable is set. -/
theorem writeMicro_armed {byte : Byte} {pos : WriteAt} (hm : s.main = .write byte pos)
    (h : 0 < s.txb.count.toNat → s.txrIe = true ∨ beforeW3 s = true) :
    0 < (writeMicro byte pos s).txb.count.toNat →
      (writeMicro byte pos s).txrIe = true ∨ beforeW3 (writeMicro byte pos s) = true := by
  simp only [beforeW3, hm] at h
  cases pos with
  | w1 => exact fun hpos => (h hpos).imp_right nofun
  | w2 cur lf e =>
    cases e with
    | e4 => exact fun _ => .inr rfl
    | e1 | e2 | e3 => exact fun hpos => (h hpos).imp_right nofun
  | w3 lf => exact fun _ => .inl rfl
  | w4 lf => cases lf <;> exact fun hpos => (h hpos).imp_right nofun

theorem writeMicro_st (byte : Byte) (pos : WriteAt) (s : State) : (writeMicro byte pos s).st = s.st := by
  rw [writeMicro_reach]
  rfl

/-- WRITE keeps the gating; at T2b a handler is in service, and then MAIN takes no micro-step. -/
theorem writeMicro_txGated {byte : Byte} {pos : WriteAt} (hm : s.main = .write byte pos)
    (hi : s.isr = .none) (h : TxGated s) : TxGated (writeMicro byte pos s) where
  armed := writeMicro_armed hm h.armed
  empty := by rw [writeMicro_reach]; exact fun h2b => nomatch hi.symm.trans h2b
  fresh := by
    have hst : s.st = .ready := h.ready_of_writing (by simp only [mainWriting, hm])
    rw [writeMicro_st, hst]
    exact nofun

theorem writeMicro_noInit {byte : Byte} {pos : WriteAt} :
    mainInitialising (writeMicro byte pos s) = false := by
  cases pos with
  | w4 lf => cases lf <;> rfl
  | _ => rfl

/-- MAIN keeps the gating, as long as INIT finds nothing written. -/
theorem mainMicro_gatedUnder (hi : s.isr = .none) (h : GatedUnder i s) :
    GatedUnder i (mainMicro s) := by
  cases hm : s.main with
  | idle => simpa only [mainMicro, hm] using h
  | init baud pos =>
    have hinit : mainInitialising s = true := by simp only [mainInitialising, hm]
    have hu : Unwritten s := h.safe.resolve_right fun hn => nomatch hinit.symm.trans hn.main
    simpa only [mainMicro, hm] using (initMicro_unwritten baud pos hu).gatedUnder
  | write byte pos =>
    have hw : mainWriting s = true := by simp only [mainWriting, hm]
    have hn : NoInit i s := h.safe.resolve_left fun hu => nomatch hw.symm.trans hu.main
    simpa only [mainMicro, hm]
      using GatedUnder.mk (writeMicro_txGated hm hi h.gated) (.inr ⟨writeMicro_noInit, hn.word⟩)
  | read pos | rmw op pin pos =>
    have hs : Inert s := by simp only [Inert, mainWriting, mainInitialising, hm, and_self]
    simp only [mainMicro, hm]
    cases pos <;> exact h.congr_inert hs ⟨rfl, rfl⟩ rfl rfl rfl id
  | get | tsize | gien | gdis =>
    have hs : Inert s := by simp only [Inert, mainWriting, mainInitialising, hm, and_self]
    simp only [mainMicro, hm, getMicro]
    exact h.congr_inert hs ⟨rfl, rfl⟩

/-- An operation of port H is presented on an idle port: a WRITE with `st` Ready only, an INIT with nothing
written. -/
theorem MayStart.gatedUnder {j : Instr} {first : Main} (hm : mainIdle s = true)
    (hstart : MayStart s j first) (h : GatedUnder (some j) s) :
    GatedUnder (some j) (presentMain first s) := by
  have hidle : s.main = .idle := (mainIdle_eq s).1 hm
  have hs : Inert s := by simp only [Inert, mainWriting, mainInitialising, hidle, and_self]
  cases hstart with
  | init baud =>
    have hu : Unwritten s := h.safe.resolve_right fun hn => hn.word baud rfl
    exact Unwritten.gatedUnder ⟨hu.count, rfl⟩
  | write byte hst =>
    have harmed := h.gated.armed
    rw [beforeW3_of_not_writing hs.1] at harmed
    exact ⟨⟨fun hpos => (harmed hpos).imp_right nofun, h.gated.empty,
      fun hun => nomatch hst.symm.trans hun⟩, .inr ⟨rfl, nofun⟩⟩
  | _ => exact h.congr_inert hs ⟨rfl, rfl⟩

/-! ### HTX's part of the gating (42_interrupt_handlers.md R185) -/

/-- What keeps the gating stays while MAIN stands still and an empty TXB stays empty. -/
theorem GatedUnder.safe_congr (h : GatedUnder i s) (hmain : t.main = s.main)
    (hcount : s.txb.count = 0#8 → t.txb.count = 0#8) : Unwritten t ∨ NoInit i t :=
  h.safe.imp (fun hu => ⟨hcount hu.count, by simpa only [mainWriting, hmain] using hu.main⟩)
    (fun hn => ⟨by simpa only [mainInitialising, hmain] using hn.main, hn.word⟩)

/-- HTX comes to T2b with TXB empty, and it releases a byte only with one there. -/
theorem txMicro_gatedUnder_of_t1 {d : DeqAt Byte} (hi : s.isr = .tx (.t1 d)) (hinv : Inv s)
    (h : GatedUnder i s) : GatedUnder i (txMicro (.t1 d) s) := by
  cases d with
  | d1 =>
    by_cases hempty : s.txb.count = 0#8
    · exact ⟨⟨h.gated.armed, fun _ => hempty, h.gated.fresh⟩, h.safe_congr rfl id⟩
    · refine h.congr rfl rfl rfl rfl fun h2b => ?_
      simp [txMicro, deqMicro_d1_some hempty, afterDeqTx] at h2b
  | d2 | d3 => exact h.congr rfl rfl rfl rfl nofun
  | d4 v =>
    have hpos : 0 < s.txb.count.toNat := by
      have hring := hinv.txb
      simp only [txbConsumer, hi] at hring
      exact hring.element rfl
    have hne : s.txb.count ≠ 0#8 := fun h0 => by simp [h0] at hpos
    exact ⟨⟨fun _ => h.gated.armed hpos, nofun, fun hun => absurd (h.gated.fresh hun).1 hne⟩,
      h.safe_congr rfl fun h0 => absurd h0 hne⟩

/-- HTX clears the enable at T2b only, where TXB is empty. -/
theorem txMicro_gatedUnder {pos : TxAt} (hi : s.isr = .tx pos) (hinv : Inv s) (h : GatedUnder i s) :
    GatedUnder i (txMicro pos s) := by
  cases pos with
  | t1 d => exact txMicro_gatedUnder_of_t1 hi hinv h
  | t2b =>
    have hcount : (txMicro .t2b s).txb.count = 0#8 := h.gated.empty hi
    exact ⟨⟨fun hpos => absurd hpos (by simp [hcount]), nofun, h.gated.fresh⟩, h.safe_congr rfl id⟩
  | t2a | t3 => exact h.congr rfl rfl rfl rfl nofun

theorem isrMicro_gatedUnder (hinv : Inv s) (h : GatedUnder i s) : GatedUnder i (isrMicro s) := by
  cases hi : s.isr with
  | none => simpa only [isrMicro, hi] using h
  | rx pos =>
    simp only [isrMicro, hi]
    cases pos <;> exact h.congr rfl rfl rfl rfl nofun
  | tx pos => simpa only [isrMicro, hi] using txMicro_gatedUnder hi hinv h

/-! ### Every step keeps the gating -/

theorem move_gatedUnder (hmove : Move i s t) (hinv : Inv s) (h : GatedUnder i s) : GatedUnder i t := by
  cases hmove with
  | presentMain _ _ _ _ _ hm hstart => exact hstart.gatedUnder hm h
  | mainMicro _ _ hby => exact mainMicro_gatedUnder ((noIsr_eq s).1 hby.unfrozen) h
  | isrMicro => exact isrMicro_gatedUnder hinv h
  | prodMicro => rw [prodMicro_frame]; exact h.congr
  | consMicro => rw [consMicro_frame]; exact h.congr
  | _ => exact h.congr

/-- The word of the next turn is the next turn's word. -/
theorem turn_of_nextInstr {j : Instr} (h : nextInstr s = some j) :
    ∃ turn rest, s.sched = turn :: rest ∧ decode turn.word = .instr j := by
  unfold nextInstr at h
  cases hs : s.sched with
  | nil => simp [hs] at h
  | cons turn rest =>
    refine ⟨turn, rest, rfl, ?_⟩
    cases hd : decode turn.word <;> simp_all [Decoded.toInstr]

end

/-- Settles O16: before INIT nothing is written, so INIT strands no byte; from then on, with no second INIT,
each move keeps TXB's bytes under an enabled interrupt or before the W3 that enables it. -/
theorem stepKeepsTransmitGating : Obligations.StepKeepsTransmitGating := by
  intro s t hinv hgated hinit h
  have hsafe : Unwritten s ∨ NoInit (nextInstr s) s := by
    cases hst : s.st with
    | uninitialized =>
      obtain ⟨hcount, hmain⟩ := hgated.fresh hst
      exact .inl ⟨hcount, hmain⟩
    | ready =>
      obtain ⟨hmain, hword⟩ := hinit hst
      refine .inr ⟨hmain, fun baud hnext => ?_⟩
      obtain ⟨turn, rest, hsched, hd⟩ := turn_of_nextInstr hnext
      exact hword turn rest baud hsched hd
  obtain rfl | ⟨sched, agent, steps, above, hmoves⟩ := step_moves h
  · exact hgated
  · have hstart : GatedUnder (nextInstr s)
        { s with sched := sched, agent := agent, steps := steps, above := above } :=
      GatedUnder.congr ⟨hgated, hsafe⟩
    exact (moves_keep (P := fun x => Inv x ∧ GatedUnder (nextInstr s) x)
      (fun _ _ hm hx => ⟨move_inv hm hx.1, move_gatedUnder hm hx.1 hx.2⟩) hmoves
      ⟨hinv.of_turn sched agent steps above, hstart⟩).2.gated

/-! ### MAIN's turns on port H (30_encoding.md R97) -/

section
variable {s : State}

/-- A micro-step that changes nothing may be taken any number of times. -/
theorem burst_of_fixed {stop : State → Bool} {micro : State → State} (h : micro s = s) (k : Nat) :
    burst stop micro k s = s :=
  burst_induction (P := (· = s)) (fun _ _ hx => hx ▸ h) k rfl

theorem runMain_succ (h : mainIdle s = false) (k : Nat) : runMain (k + 1) s = runMain k (mainMicro s) :=
  burst_of_go h k

/-- A turn of one micro-step of an operation in flight. -/
theorem runMain_one {k : Nat} (hk : k = 1) (h : mainIdle s = false) : runMain k s = mainMicro s :=
  hk ▸ burst_of_go h 0

/-- A turn of one micro-step of MAIN's operation in flight. -/
theorem byMain_microStep {i : Instr} {first : Main} {bar : Option Refusal} (ha : s.agent = .main)
    (hn : noIsr s = true) (hk : s.steps = 1) (hf : inFlight s = some i) :
    byMain i first bar s = .next (mainMicro s) := by
  have hgo : mainIdle s = false :=
    Bool.eq_false_iff.2 fun hm => nomatch hf.symm.trans ((inFlight_eq_none s).2 hm)
  rw [byMain_inFlight ha hn hf, runMain_one hk hgo]

/-- On a ready port H a request is presented and takes the turn's micro-steps. -/
theorem byMain_ready {i : Instr} {first : Main} (hready : hostReady s = true) :
    byMain i first none s = .next (runMain s.steps (presentMain first s)) := by
  obtain ⟨ha, hn, hm⟩ := (hostReady_iff s).1 hready
  exact byMain_idle ha hn ((inFlight_eq_none s).2 hm)

theorem lifecycleBar_of_uninitialized (h : s.st = .uninitialized) :
    lifecycleBar s = some .uninitialized := by
  simp only [lifecycleBar, h]

theorem main_of_hostReady (hready : hostReady s = true) : s.main = .idle :=
  (mainIdle_eq s).1 ((hostReady_iff s).1 hready).2.2

end

/-! ### INIT (41_serial_transport.md R152) -/

section
variable {s : State} {baud : BitVec 24}

theorem exec_init_ready (hready : hostReady s = true) (hb : baud ≠ 0#24) :
    exec (.init baud) s = .next (runMain s.steps (presentMain (.init baud .i1) s)) :=
  (if_neg hb).trans (byMain_ready hready)

/-- One micro-step of an INIT in flight. -/
theorem exec_init_microStep {pos : InitAt} (ha : s.agent = .main) (hn : noIsr s = true)
    (hb : baud ≠ 0#24) (hk : s.steps = 1) (hm : s.main = .init baud pos) :
    exec (.init baud) s = .next (initMicro baud pos s) := by
  refine ((if_neg hb).trans (byMain_microStep ha hn hk (by simp only [inFlight, hm]))).trans ?_
  simp only [mainMicro, hm]

/-- A whole INIT, once it is presented. -/
theorem runMain_init {k : Nat} (hk : 4 ≤ k) (s : State) :
    runMain k (presentMain (.init baud .i1) s) = finishMain 0#8 { enableByInit s with
      baudDiv := Config.divisor s.cfg.fClk baud.toNat
      frame := { dataBits := 8, parity := .none, stop := s.cfg.stopBits }
      st := .ready } := by
  obtain ⟨j, rfl⟩ := Nat.exists_eq_add_of_le' hk
  rw [runMain_succ rfl, runMain_succ rfl, runMain_succ rfl, runMain_succ rfl, runMain,
    burst_main_of_idle rfl]
  rfl

/-- A whole INIT on a ready port H. -/
theorem exec_init_whole (hready : hostReady s = true) (hb : baud ≠ 0#24) (hk : 4 ≤ s.steps) :
    exec (.init baud) s = .next { s with
      baudDiv := Config.divisor s.cfg.fClk baud.toNat
      rxcIe := true, rxEn := true, txEn := true
      txrIe := s.txrIe && Config.freeBit s.draws
      frame := { dataBits := 8, parity := .none, stop := s.cfg.stopBits }
      st := .ready
      draws := s.draws + 1
      hostResp := some (response .ok 0#8) } := by
  rw [exec_init_ready hready hb, runMain_init hk]
  simp only [finishMain, answerHost, ← main_of_hostReady hready]
  rfl

end

/-- Settles O27: each clause is the equation of I1, I2, I3 or I4 as MAIN's micro-step, or of the four in a
row. -/
theorem initProgramsTransport : Obligations.InitProgramsTransport := by
  refine fun s baud => ⟨fun hready hb hk => ⟨_, exec_init_whole hready hb hk⟩, fun hready hb hk => ?_,
    fun ha hn hb hk => ⟨fun hm => exec_init_microStep ha hn hb hk hm,
      fun hm => ⟨_, exec_init_microStep ha hn hb hk hm⟩, fun hm => exec_init_microStep ha hn hb hk hm,
      fun hm => exec_init_microStep ha hn hb hk hm⟩⟩
  exact (exec_init_ready hready hb).trans (congrArg _ (runMain_one hk rfl))

/-! ### TSIZE (41_serial_transport.md R163) -/

section
variable {s : State} {sel : Sel}

/-- TSIZE in flight answers the count in its one micro-step. -/
theorem runMain_tsize {k : Nat} (hm : s.main = .tsize sel) (hk : 1 ≤ k) :
    runMain k s = finishMain (countOf s sel) s := by
  obtain ⟨j, rfl⟩ := Nat.exists_eq_add_of_le' hk
  have hmicro : mainMicro s = finishMain (countOf s sel) s := by simp only [mainMicro, hm]
  rw [runMain_succ (by simp only [mainIdle, hm]), hmicro, runMain, burst_main_of_idle rfl]

/-- TSIZE, presented or in flight, ends with the count in the response. -/
theorem exec_tsize (h : hostReady s = true ∨ (s.agent = .main ∧ noIsr s = true ∧ s.main = .tsize sel))
    (hk : 1 ≤ s.steps) : exec (.tsize sel) s = .next (finishMain (countOf s sel) s) := by
  obtain hready | ⟨ha, hn, hm⟩ := h
  · refine (byMain_ready hready).trans (congrArg _ ?_)
    exact runMain_tsize (s := presentMain (.tsize sel) s) rfl hk
  · rw [← runMain_tsize hm hk]
    exact byMain_inFlight ha hn (by simp only [inFlight, hm])

end

/-- Settles O35: TSIZE is one micro-step, which reads the count of the buffer it names and answers it. -/
theorem tsizeReportsOccupancy : Obligations.TsizeReportsOccupancy := by
  intro s sel c h hk
  refine (exec_tsize h hk).trans ?_
  cases sel <;> rfl

/-- Settles O28: what `st` bars is refused at its presentation; TSIZE and INIT are never barred. -/
theorem transportRefusedBeforeInit : Obligations.TransportRefusedBeforeInit := by
  intro s hready
  obtain ⟨ha, hn, hm⟩ := (hostReady_iff s).1 hready
  have hf : inFlight s = none := (inFlight_eq_none s).2 hm
  refine ⟨fun hst v => ?_, fun hst => ?_, fun sel => ⟨_, byMain_ready hready, fun hk => ?_⟩,
    fun baud hb => ⟨_, exec_init_ready hready hb, fun hk => ?_⟩⟩
  · rw [exec, execWrite, lifecycleBar_of_uninitialized hst]
    exact byMain_barred ha hn hf
  · rw [exec, execRead, lifecycleBar_of_uninitialized hst]
    exact byMain_barred ha hn hf
  · exact congrArg State.hostResp (runMain_tsize (s := presentMain (.tsize sel) s) rfl hk)
  · rw [runMain_init hk]
    exact ⟨rfl, rfl⟩

/-! ### WRITE, micro-step by micro-step (41_serial_transport.md R155) -/

section
variable {s : State} {v : Byte}

theorem exec_write_ready (hready : hostReady s = true) (hst : s.st = .ready) :
    exec (.write v) s = .next (runMain s.steps (presentMain (.write v .w1) s)) := by
  rw [exec, execWrite, lifecycleBar_of_ready hst]
  exact byMain_ready hready

/-- A WRITE in flight takes the turn's micro-steps from where it stands. -/
theorem exec_write_inFlight {pos : WriteAt} (ha : s.agent = .main) (hn : noIsr s = true)
    (hm : s.main = .write v pos) : exec (.write v) s = .next (runMain s.steps s) :=
  byMain_inFlight ha hn (by simp only [inFlight, hm])

/-- One micro-step of a WRITE in flight. -/
theorem exec_write_microStep {pos : WriteAt} (ha : s.agent = .main) (hn : noIsr s = true)
    (hk : s.steps = 1) (hm : s.main = .write v pos) :
    exec (.write v) s = .next (writeMicro v pos s) := by
  refine (byMain_microStep ha hn hk (by simp only [inFlight, hm])).trans ?_
  simp only [mainMicro, hm]

/-- An attempt of WRITE on a full TXB changes nothing. -/
theorem mainMicro_of_write_full {cur : Byte} {lf : Bool} (hm : s.main = .write v (.w2 cur lf .e1))
    (hfull : s.txb.count.toNat = s.cfg.nTx) : mainMicro s = s := by
  simp only [mainMicro, hm, writeMicro, enqMicro_e1_full hfull, afterEnq]
  rw [← hm]

/-- However many attempts it takes. -/
theorem exec_write_full {cur : Byte} {lf : Bool} (ha : s.agent = .main) (hn : noIsr s = true)
    (hm : s.main = .write v (.w2 cur lf .e1)) (hfull : s.txb.count.toNat = s.cfg.nTx) :
    exec (.write v) s = .next s :=
  (exec_write_inFlight ha hn hm).trans
    (congrArg _ (burst_of_fixed (mainMicro_of_write_full hm hfull) _))

end

/-- Settles O29: each clause is the equation of one micro-step of WRITE, and an attempt on a full TXB is the
same again any number of times. -/
theorem writeMicroSteps : Obligations.WriteMicroSteps := by
  intro s v ha hn
  refine ⟨fun hk hm hst => ?present, fun hk hm => exec_write_microStep ha hn hk hm,
    fun cur lf hm hfull => exec_write_full ha hn hm hfull, fun hk cur lf hm hroom => ?room,
    fun hk cur lf hm => exec_write_microStep ha hn hk hm,
    fun hk cur lf hm => exec_write_microStep ha hn hk hm,
    fun hk cur lf hm => exec_write_microStep ha hn hk hm,
    fun hk lf hm => exec_write_microStep ha hn hk hm, fun hk hm => exec_write_microStep ha hn hk hm,
    fun hk hm => exec_write_microStep ha hn hk hm⟩
  case present =>
    have hready : hostReady s = true := (hostReady_iff s).2 ⟨ha, hn, (mainIdle_eq s).2 hm⟩
    exact (exec_write_ready hready hst).trans (congrArg _ (runMain_one hk rfl))
  case room =>
    rw [exec_write_microStep ha hn hk hm]
    simp only [writeMicro, enqMicro_e1_room hroom, afterEnq]

/-! ### Whole WRITEs (41_serial_transport.md R155, R156) -/

/-- A WRITE at W2's E1 stands in its own ring, before the first micro-step of an ENQ. -/
theorem inWriteEnq_self {s : State} {byte cur : Byte} {lf : Bool}
    (hm : s.main = .write byte (.w2 cur lf .e1)) :
    inWriteEnq s byte cur lf s.txb (.more .e1) = s := by
  rw [inWriteEnq, afterEnq, ← hm]

section
variable (s : State) (byte cur : Byte) {b : RingBuf Byte}

/-- The first micro-step of a turn of W2's ENQ. -/
theorem runMain_succ_inWriteEnq (k : Nat) (lf : Bool) (e : EnqAt) :
    runMain (k + 1) (inWriteEnq s byte cur lf b (.more e)) = runMain k
      (inWriteEnq s byte cur lf (enqMicro s.cfg.nTx cur e b).1 (enqMicro s.cfg.nTx cur e b).2) :=
  burst_of_go rfl k

/-- W2's ENQ with room, then W3: the byte stands in TXB and the enable is set. -/
theorem runMain_inWriteEnq_room (k : Nat) (lf : Bool) (hroom : b.count.toNat ≠ s.cfg.nTx) :
    runMain (k + 5) (inWriteEnq s byte cur lf b (.more .e1)) = runMain k
      { s with txb := ringPut s.cfg.nTx cur b, txrIe := true, main := .write byte (.w4 lf) } := by
  rw [runMain_succ_inWriteEnq, enqMicro_e1_room hroom, runMain_succ_inWriteEnq, enqMicro_e2,
    runMain_succ_inWriteEnq, enqMicro_e3, runMain_succ_inWriteEnq, enqMicro_e4, runMain_succ rfl]
  rfl

/-- From W2 with room and no LF pending WRITE ends. -/
theorem runMain_inWriteEnq_last {k : Nat} (hk : 6 ≤ k) (hroom : b.count.toNat ≠ s.cfg.nTx) :
    runMain k (inWriteEnq s byte cur false b (.more .e1)) = { s with
      txb := ringPut s.cfg.nTx cur b, txrIe := true, main := .idle
      hostResp := some (response .ok 0#8) } := by
  obtain ⟨j, rfl⟩ := Nat.exists_eq_add_of_le' hk
  refine (runMain_inWriteEnq_room s byte cur (j + 1) false hroom).trans ?_
  rw [runMain_succ rfl, runMain, burst_main_of_idle rfl]
  rfl

/-- From W2 with room and an LF pending WRITE comes to the LF's W2. -/
theorem runMain_inWriteEnq_lf (k : Nat) (hroom : b.count.toNat ≠ s.cfg.nTx) :
    runMain (k + 6) (inWriteEnq s byte cur true b (.more .e1)) = runMain k
      (inWriteEnq { s with txrIe := true } byte s.cfg.lf false (ringPut s.cfg.nTx cur b)
        (.more .e1)) := by
  refine (runMain_inWriteEnq_room s byte cur (k + 1) true hroom).trans ?_
  rw [runMain_succ rfl]
  rfl

/-- W1 of a byte other than LF comes to the byte's W2. -/
theorem runMain_w1_plain (k : Nat) (hv : byte ≠ s.cfg.lf) :
    runMain (k + 1) (presentMain (.write byte .w1) s)
      = runMain k (inWriteEnq { s with hostResp := none } byte byte false s.txb (.more .e1)) := by
  rw [runMain_succ rfl]
  simp [mainMicro, presentMain, writeMicro, inWriteEnq, afterEnq, hv]

/-- W1 of LF comes to the CR's W2. -/
theorem runMain_w1_lf (k : Nat) :
    runMain (k + 1) (presentMain (.write s.cfg.lf .w1) s)
      = runMain k (inWriteEnq { s with hostResp := none } s.cfg.lf s.cfg.cr true s.txb (.more .e1)) := by
  rw [runMain_succ rfl]
  simp [mainMicro, presentMain, writeMicro, inWriteEnq, afterEnq]

/-- A whole WRITE of a byte other than LF, once it is presented. -/
theorem runMain_write_plain {k : Nat} (hk : 7 ≤ k) (hv : byte ≠ s.cfg.lf)
    (hroom : s.txb.count.toNat ≠ s.cfg.nTx) :
    runMain k (presentMain (.write byte .w1) s) = { s with
      txb := ringPut s.cfg.nTx byte s.txb, txrIe := true, main := .idle
      hostResp := some (response .ok 0#8) } := by
  obtain ⟨j, rfl⟩ := Nat.exists_eq_add_of_le' hk
  exact (runMain_w1_plain s byte (j + 6) hv).trans
    (runMain_inWriteEnq_last { s with hostResp := none } byte byte (by omega) hroom)

/-- A whole WRITE of LF, once it is presented: W2 to W4 for the CR, then for the LF. -/
theorem runMain_write_lf {k : Nat} (hk : 13 ≤ k) (hn : s.cfg.nTx ≤ 255)
    (hroom : s.txb.count.toNat + 2 ≤ s.cfg.nTx) :
    runMain k (presentMain (.write s.cfg.lf .w1) s) = { s with
      txb := ringPut s.cfg.nTx s.cfg.lf (ringPut s.cfg.nTx s.cfg.cr s.txb), txrIe := true
      main := .idle, hostResp := some (response .ok 0#8) } := by
  obtain ⟨j, rfl⟩ := Nat.exists_eq_add_of_le' hk
  have hcr : s.txb.count.toNat ≠ s.cfg.nTx := by omega
  have hcount : (ringPut s.cfg.nTx s.cfg.cr s.txb).count.toNat = s.txb.count.toNat + 1 :=
    count_succ (by omega)
  have hlf : (ringPut s.cfg.nTx s.cfg.cr s.txb).count.toNat ≠ s.cfg.nTx := by omega
  rw [runMain_w1_lf s (j + 12)]
  exact (runMain_inWriteEnq_lf { s with hostResp := none } s.cfg.lf s.cfg.cr (j + 6) hcr).trans
    (runMain_inWriteEnq_last { s with hostResp := none, txrIe := true } s.cfg.lf s.cfg.lf (by omega) hlf)

end

/-- Settles O30: W1, then W2 with room and no LF pending. -/
theorem writePlainByteEnqueues : Obligations.WritePlainByteEnqueues := by
  intro s v hready hst hv hroom hk
  rw [exec_write_ready hready hst, runMain_write_plain s v hk hv hroom]
  simp only [← main_of_hostReady hready]

/-- Settles O31: W1, then W2 to W4 for the CR and again for the LF, each with room. -/
theorem writeLineFeedEnqueuesCrLf : Obligations.WriteLineFeedEnqueuesCrLf := by
  intro s hready hst hn hroom hk
  rw [exec_write_ready hready hst, runMain_write_lf s hk hn hroom]
  simp only [← main_of_hostReady hready]

/-! ### READ (41_serial_transport.md R160, R161) -/

section
variable {s : State}

theorem exec_read_ready (hready : hostReady s = true) (hst : s.st = .ready) :
    exec .read s = .next (runMain s.steps (presentMain (.read (.rd1 .d1)) s)) := by
  rw [exec, execRead, lifecycleBar_of_ready hst]
  exact byMain_ready hready

/-- A READ in flight takes the turn's micro-steps from where it stands. -/
theorem exec_read_inFlight {pos : ReadAt} (ha : s.agent = .main) (hn : noIsr s = true)
    (hm : s.main = .read pos) : exec .read s = .next (runMain s.steps s) :=
  byMain_inFlight ha hn (by simp only [inFlight, hm])

/-- One micro-step of a READ in flight. -/
theorem exec_read_microStep {pos : ReadAt} (ha : s.agent = .main) (hn : noIsr s = true)
    (hk : s.steps = 1) (hm : s.main = .read pos) : exec .read s = .next (readMicro pos s) := by
  refine (byMain_microStep ha hn hk (by simp only [inFlight, hm])).trans ?_
  simp only [mainMicro, hm]

/-- An attempt of READ on an empty RXB changes nothing. -/
theorem mainMicro_of_read_empty (hm : s.main = .read (.rd1 .d1)) (hempty : s.rxb.count = 0#8) :
    mainMicro s = s := by
  simp only [mainMicro, hm, readMicro, deqMicro_d1_empty hempty, afterDeqRead]
  rw [← hm]

/-- However many attempts it takes. -/
theorem runMain_read_empty (k : Nat) (hm : s.main = .read (.rd1 .d1)) (hempty : s.rxb.count = 0#8) :
    runMain k s = s :=
  burst_of_fixed (mainMicro_of_read_empty hm hempty) k

theorem exec_read_empty (ha : s.agent = .main) (hn : noIsr s = true) (hm : s.main = .read (.rd1 .d1))
    (hempty : s.rxb.count = 0#8) : exec .read s = .next s :=
  (exec_read_inFlight ha hn hm).trans (congrArg _ (runMain_read_empty _ hm hempty))

/-- A READ at Rd1's D1 stands in its own ring, before the first micro-step of a DEQ. -/
theorem inReadDeq_self (hm : s.main = .read (.rd1 .d1)) : inReadDeq s s.rxb (.more .d1) = s := by
  rw [inReadDeq, afterDeqRead, ← hm]

/-- The first micro-step of a turn of Rd1's DEQ. -/
theorem runMain_succ_inReadDeq (k : Nat) (s : State) (b : RingBuf Byte) (d : DeqAt Byte) :
    runMain (k + 1) (inReadDeq s b (.more d))
      = runMain k (inReadDeq s (deqMicro s.cfg.nRx d b).1 (deqMicro s.cfg.nRx d b).2) :=
  burst_of_go rfl k

/-- From Rd1 with a byte waiting READ ends with it. -/
theorem runMain_inReadDeq_some {k : Nat} (hk : 5 ≤ k) (s : State) {b : RingBuf Byte}
    (hsome : b.count ≠ 0#8) :
    runMain k (inReadDeq s b (.more .d1)) = { s with
      rxb := ringTake s.cfg.nRx b, main := .idle
      hostResp := some (response .ok (slotAt b b.head.toNat)) } := by
  obtain ⟨j, rfl⟩ := Nat.exists_eq_add_of_le' hk
  rw [runMain_succ_inReadDeq, deqMicro_d1_some hsome, runMain_succ_inReadDeq, deqMicro_d2,
    runMain_succ_inReadDeq, deqMicro_d3, runMain_succ_inReadDeq, deqMicro_d4, runMain_succ rfl, runMain,
    burst_main_of_idle rfl]
  rfl

end

/-- Settles O34: each clause is the equation of one micro-step of READ, of its whole run with a byte waiting,
or of its presentation with none. -/
theorem readReturnsOldestByte : Obligations.ReadReturnsOldestByte := by
  refine fun s => ⟨fun hready hst hsome hk => ?whole, fun hready hst hempty => ?spin,
    fun hready hst hsome hk => ?begin, fun ha hn hk => ⟨fun hm hempty => exec_read_empty ha hn hm hempty,
      fun hm hsome => ?d1, fun hm => exec_read_microStep ha hn hk hm,
      fun v hm => exec_read_microStep ha hn hk hm, fun v hm => exec_read_microStep ha hn hk hm,
      fun v hm => exec_read_microStep ha hn hk hm⟩⟩
  case whole =>
    rw [exec_read_ready hready hst]
    refine congrArg _ ((runMain_inReadDeq_some hk { s with hostResp := none } hsome).trans ?_)
    simp only [← main_of_hostReady hready]
  case spin =>
    rw [exec_read_ready hready hst, runMain_read_empty (s := presentMain _ s) _ rfl hempty]
    rfl
  case begin =>
    rw [exec_read_ready hready hst, runMain_one hk rfl]
    simp only [mainMicro, presentMain, readMicro, deqMicro_d1_some hsome, afterDeqRead]
  case d1 =>
    rw [exec_read_microStep ha hn hk hm]
    simp only [readMicro, deqMicro_d1_some hsome, afterDeqRead]

/-! ### Spinning (41_serial_transport.md R156, R161) -/

/-- Settles O33: an attempt that finds no room or no byte leaves the state as it is, and one that finds it
goes on from there as a first attempt does. -/
theorem spinningChangesNothing : Obligations.SpinningChangesNothing := by
  intro s ha hn
  refine ⟨fun v cur lf hm => ⟨exec_write_full ha hn hm, fun hroom hlf hk => ?last,
    fun hroom hlf hk => ?pending⟩, fun hm => ⟨exec_read_empty ha hn hm, fun hsome hk => ?byte⟩⟩
  case last =>
    subst hlf
    have hrun := runMain_inWriteEnq_last s v cur hk hroom
    rw [inWriteEnq_self hm] at hrun
    rw [exec_write_inFlight ha hn hm, hrun]
  case pending =>
    subst hlf
    have hrun := runMain_inWriteEnq_lf s v cur 0 hroom
    rw [inWriteEnq_self hm] at hrun
    exact (exec_write_inFlight ha hn hm).trans (congrArg _ (hk ▸ hrun))
  case byte =>
    have hrun := runMain_inReadDeq_some hk s hsome
    rw [inReadDeq_self hm] at hrun
    rw [exec_read_inFlight ha hn hm, hrun]

/-! ### What WRITE adds to the transmit stream (41_serial_transport.md R157) -/

/-- The bytes on their way out: the transmit stream, then what the WRITE in flight has still to enqueue. -/
def outgoing (s : State) : List Byte := txStream s ++ pendingOut s

section
variable {s t : State}

theorem pendingOut_of_idle (h : mainIdle s = true) : pendingOut s = [] := by
  simp only [pendingOut, (mainIdle_eq s).1 h]

theorem outgoing_congr (hstream : txStream t = txStream s) (hmain : t.main = s.main := by simp)
    (hcfg : t.cfg = s.cfg := by simp) : outgoing t = outgoing s := by
  simp only [outgoing, hstream, pendingOut, hmain, hcfg]

/-- What MAIN's micro-step appends to the stream is the first of what it had still to enqueue. -/
theorem mainAppends_append_pendingOut (s : State) :
    mainAppends s ++ pendingOut (mainMicro s) = pendingOut s := by
  cases hm : s.main with
  | write byte pos =>
    cases pos with
    | w1 =>
      by_cases hlf : byte = s.cfg.lf <;>
        simp [mainMicro, writeMicro, mainAppends, pendingOut, expand, hm, hlf]
    | w2 cur lf e =>
      cases e with
      | e1 =>
        by_cases hfull : s.txb.count.toNat = s.cfg.nTx
        · simp [mainMicro, writeMicro, mainAppends, pendingOut, hm, enqMicro_e1_full hfull, afterEnq]
        · simp [mainMicro, writeMicro, mainAppends, pendingOut, hm, enqMicro_e1_room hfull, afterEnq]
      | e2 | e3 | e4 => simp [mainMicro, writeMicro, mainAppends, pendingOut, hm, afterEnq]
    | w3 lf => simp [mainMicro, writeMicro, mainAppends, pendingOut, hm]
    | w4 lf => cases lf <;> simp [mainMicro, writeMicro, mainAppends, pendingOut, hm]
  | init _ pos => cases pos <;> simp [mainMicro, initMicro, mainAppends, pendingOut, hm]
  | read pos => cases pos <;> simp [mainMicro, readMicro, mainAppends, pendingOut, hm]
  | rmw _ _ pos => cases pos <;> simp [mainMicro, rmwMicro, mainAppends, pendingOut, hm]
  | _ => simp [mainMicro, getMicro, mainAppends, pendingOut, hm]

theorem mainMicro_outgoing (hcfg : s.cfg.wf = true) (h : TransportOk s) :
    outgoing (mainMicro s) = outgoing s := by
  rw [outgoing, mainMicro_txStream hcfg h, List.append_assoc, mainAppends_append_pendingOut]
  rfl

theorem runMain_outgoing (k : Nat) (hcfg : s.cfg.wf = true) (h : TransportOk s) :
    outgoing (runMain k s) = outgoing s := by
  have keep (x : State) (_ : mainIdle x = false)
      (hx : x.cfg.wf = true ∧ TransportOk x ∧ outgoing x = outgoing s) :
      (mainMicro x).cfg.wf = true ∧ TransportOk (mainMicro x) ∧ outgoing (mainMicro x) = outgoing s := by
    obtain ⟨hcfg, h, hout⟩ := hx
    exact ⟨by rwa [mainMicro_cfg], mainMicro_transportOk hcfg h, (mainMicro_outgoing hcfg h).trans hout⟩
  exact (burst_induction keep k ⟨hcfg, h, rfl⟩).2.2

/-- The start of an operation other than WRITE has nothing to enqueue. -/
theorem MayStart.outgoing {i : Instr} {first : Main} (hi : ∀ v, i ≠ .write v) (hm : mainIdle s = true)
    (hstart : MayStart s i first) : outgoing (presentMain first s) = outgoing s := by
  have hpending : pendingOut (presentMain first s) = [] := by
    cases hstart with
    | write byte => exact absurd rfl (hi byte)
    | _ => rfl
  rw [Machine.outgoing, Machine.outgoing, hstart.txStream hm, hpending, pendingOut_of_idle hm]

/-- The start of a WRITE has its whole expansion to enqueue. -/
theorem outgoing_present_write {v : Byte} (hm : mainIdle s = true) (hst : s.st = .ready) :
    outgoing (presentMain (.write v .w1) s) = outgoing s ++ expand s.cfg v := by
  rw [outgoing, outgoing, (MayStart.write v hst).txStream hm, pendingOut_of_idle hm, List.append_nil]
  rfl

/-- A move under any word but WRITE's neither adds to the outgoing bytes nor loses any. -/
theorem move_outgoing {i : Instr} (hi : ∀ v, i ≠ .write v) (h : Move (some i) s t) (hs : Inv s) :
    outgoing t = outgoing s := by
  obtain ⟨hcfg, htransport, -⟩ := (inv_iff s).1 hs
  cases h with
  | presentMain _ _ first _ _ hm hstart => exact hstart.outgoing hi hm
  | mainMicro => exact mainMicro_outgoing hcfg htransport
  | enterRx _ _ he => exact outgoing_congr (enterHandler_txStream (isr_of_rxMayEnter he) (.inl rfl))
  | enterTx _ _ he => exact outgoing_congr (enterHandler_txStream (isr_of_txMayEnter he).1 (.inr rfl))
  | isrMicro => exact outgoing_congr (isrMicro_txStream hcfg htransport)
  | ltx _ _ _ hr => exact outgoing_congr (takeTransmitted_txStream hr)
  | prodMicro => rw [prodMicro_frame]; exact outgoing_congr txStream_congr
  | consMicro => rw [consMicro_frame]; exact outgoing_congr txStream_congr
  | _ => exact outgoing_congr txStream_congr

theorem exec_outgoing {i : Instr} (hi : ∀ v, i ≠ .write v) (hs : Inv s) (h : exec i s = .next t) :
    outgoing t = outgoing s :=
  (exec_keeps (P := fun x => Inv x ∧ outgoing x = outgoing s)
    (fun _ _ hm hx => ⟨move_inv hm hx.1, (move_outgoing hi hm hx.1).trans hx.2⟩) h ⟨hs, rfl⟩).2

/-- A WRITE presented on a ready port H adds its expansion. -/
theorem exec_write_outgoing_ready {v : Byte} (hs : Inv s) (hready : hostReady s = true)
    (h : exec (.write v) s = .next t) : outgoing t = outgoing s ++ expand s.cfg v := by
  obtain ⟨ha, hn, hm⟩ := (hostReady_iff s).1 hready
  obtain ⟨hcfg, htransport, -⟩ := (inv_iff s).1 hs
  cases hst : s.st with
  | uninitialized =>
    rw [exec, execWrite, lifecycleBar_of_uninitialized hst,
      byMain_barred ha hn ((inFlight_eq_none s).2 hm)] at h
    cases h
  | ready =>
    cases (exec_write_ready hready hst).symm.trans h
    have hstart := (MayStart.write v hst).transportOk hm htransport
    exact (runMain_outgoing (s := presentMain _ s) _ hcfg hstart).trans (outgoing_present_write hm hst)

/-- On any other turn a WRITE passes, goes on, or is not accepted, and adds nothing. -/
theorem exec_write_outgoing_busy {v : Byte} (hs : Inv s) (hready : hostReady s = false)
    (h : exec (.write v) s = .next t) : outgoing t = outgoing s := by
  obtain ⟨hcfg, htransport, -⟩ := (inv_iff s).1 hs
  by_cases ha : s.agent = .main
  · cases hn : noIsr s with
    | false => cases (exec_frozen (.write v) ha hn).symm.trans h; rfl
    | true =>
      cases hf : inFlight s with
      | none =>
        have hm := (inFlight_eq_none s).1 hf
        exact nomatch hready.symm.trans ((hostReady_iff s).2 ⟨ha, hn, hm⟩)
      | some j =>
        by_cases hj : j = .write v
        · cases (byMain_inFlight ha hn (hj ▸ hf)).symm.trans h
          exact runMain_outgoing _ hcfg htransport
        · exact nomatch (byMain_busy ha hn hf hj).symm.trans h
  · have hno : notAccepted s = .next t := (byMain_of_other ha).symm.trans h
    rw [respond_of_answerIllegal hno]
    rfl

/-- A turn long enough of a WRITE that finds room for its expansion completes it. -/
theorem exec_write_completes {v : Byte} (hready : hostReady s = true) (hst : s.st = .ready)
    (hn : s.cfg.nTx ≤ 255) (hroom : s.txb.count.toNat + (expand s.cfg v).length ≤ s.cfg.nTx)
    (hk : 13 ≤ s.steps) : ∃ t, exec (.write v) s = .next t ∧ mainIdle t = true := by
  refine ⟨_, exec_write_ready hready hst, ?_⟩
  by_cases hv : v = s.cfg.lf
  · subst hv
    simp only [expand, if_pos, List.length_cons, List.length_nil] at hroom
    rw [runMain_write_lf s hk hn hroom]
    rfl
  · simp only [expand, if_neg hv, List.length_cons, List.length_nil] at hroom
    rw [runMain_write_plain s v (by omega) hv (by omega)]
    rfl

end

/-- Settles O32: each move keeps the outgoing bytes but the presentation of a WRITE, which adds its
expansion; with room the WRITE then runs to its end, where nothing is pending. -/
theorem writeAddsItsExpansion : Obligations.WriteAddsItsExpansion := by
  refine ⟨fun s t i hs h => ?_, fun s => pendingOut_of_idle, fun s v hs hready hst hroom hk => ?_⟩
  · cases i with
    | write v =>
      cases hready : hostReady s with
      | true => exact exec_write_outgoing_ready hs hready h
      | false => exact (exec_write_outgoing_busy hs hready h).trans (List.append_nil _).symm
    | _ => simpa [outgoing] using exec_outgoing (by simp) hs h
  · obtain ⟨⟨-, hn⟩, -, -⟩ := Config.capacity_of_wf hs.cfg
    obtain ⟨t, h, hidle⟩ := exec_write_completes hready hst hn hroom hk
    have hout := exec_write_outgoing_ready hs hready h
    simp only [outgoing, pendingOut_of_idle hidle, pendingOut_of_idle ((hostReady_iff s).1 hready).2.2,
      List.append_nil] at hout
    exact ⟨t, h, hidle, hout⟩

end Sys2Proof.Machine

/-! SUPPORT. The proofs about the two interrupt handlers (42_interrupt_handlers.md): HRX and HTX micro-step
by micro-step, and their whole executions. -/

namespace Sys2Proof.Machine

open Sys2Proof

/-! ### A handler's turn -/

section
variable {s : State}

theorem runIsr_succ (h : noIsr s = false) (k : Nat) : runIsr (k + 1) s = runIsr k (isrMicro s) :=
  burst_of_go h k

/-- A handler about to return does so and takes no micro-step more. -/
theorem runIsr_return {k : Nat} (hk : 1 ≤ k) (hi : s.isr = .rx .h3 ∨ s.isr = .tx .t3) :
    runIsr k s = returnFromHandler s := by
  obtain ⟨j, rfl⟩ := Nat.exists_eq_add_of_le' hk
  have hgo : noIsr s = false := by obtain hi | hi := hi <;> simp only [noIsr, hi]
  have hmicro : isrMicro s = returnFromHandler s := by
    obtain hi | hi := hi <;> simp only [isrMicro, hi, rxMicro, txMicro]
  rw [runIsr_succ hgo, hmicro]
  exact burst_of_stop rfl j

/-- A turn of one micro-step of HRX in service. -/
theorem exec_irqrx_microStep {pos : RxAt} (ha : s.agent = .hrx) (hk : s.steps = 1)
    (hi : s.isr = .rx pos) : exec .irqrx s = .next (rxMicro pos s) := by
  have hgo : noIsr s = false := by simp only [noIsr, hi]
  refine (execIrqrx_inService ha hi).trans (congrArg _ ?_)
  rw [hk, runIsr_succ hgo, isrMicro, hi]
  rfl

/-- A turn of one micro-step of HTX in service. -/
theorem exec_irqtx_microStep {pos : TxAt} (ha : s.agent = .htx) (hk : s.steps = 1)
    (hi : s.isr = .tx pos) : exec .irqtx s = .next (txMicro pos s) := by
  have hgo : noIsr s = false := by simp only [noIsr, hi]
  refine (execIrqtx_inService ha hi).trans (congrArg _ ?_)
  rw [hk, runIsr_succ hgo, isrMicro, hi]
  rfl

end

/-! ### HRX (42_interrupt_handlers.md R180) -/

section
variable (s : State)

/-- H1 reads the data register and comes to H2's ENQ of the byte it read. -/
theorem runIsr_h1 (k : Nat) :
    runIsr (k + 1) (enterHandler (.rx .h1) s)
      = runIsr k (inRxEnq { s with rxc := false } s.rxd s.rxb (.more .e1)) :=
  runIsr_succ rfl k

/-- The first micro-step of a turn of H2's ENQ. -/
theorem runIsr_succ_inRxEnq (k : Nat) (d : Byte) (b : RingBuf Byte) (e : EnqAt) :
    runIsr (k + 1) (inRxEnq s d b (.more e))
      = runIsr k (inRxEnq s d (enqMicro s.cfg.nRx d e b).1 (enqMicro s.cfg.nRx d e b).2) :=
  runIsr_succ rfl k

variable {k : Nat} (d : Byte) {b : RingBuf Byte}

/-- From H2 with room HRX enqueues its byte and returns. -/
theorem runIsr_inRxEnq_room (hk : 5 ≤ k) (hroom : b.count.toNat ≠ s.cfg.nRx) :
    runIsr k (inRxEnq s d b (.more .e1)) = { s with rxb := ringPut s.cfg.nRx d b, isr := .none } := by
  obtain ⟨j, rfl⟩ := Nat.exists_eq_add_of_le' hk
  rw [runIsr_succ_inRxEnq, enqMicro_e1_room hroom, runIsr_succ_inRxEnq, enqMicro_e2,
    runIsr_succ_inRxEnq, enqMicro_e3, runIsr_succ_inRxEnq, enqMicro_e4, runIsr_return (by omega) (.inl rfl)]
  rfl

/-- From H2 with RXB full HRX drops its byte and returns. -/
theorem runIsr_inRxEnq_full (hk : 2 ≤ k) (hfull : b.count.toNat = s.cfg.nRx) :
    runIsr k (inRxEnq s d b (.more .e1)) = { s with rxb := b, isr := .none } := by
  obtain ⟨j, rfl⟩ := Nat.exists_eq_add_of_le' hk
  rw [runIsr_succ_inRxEnq, enqMicro_e1_full hfull, runIsr_return (by omega) (.inl rfl)]
  rfl

/-- From its entry, with room, HRX moves the byte to RXB and returns. -/
theorem runIsr_rx_room (hk : 6 ≤ k) (hroom : s.rxb.count.toNat ≠ s.cfg.nRx) :
    runIsr k (enterHandler (.rx .h1) s) = { s with
      rxc := false, rxb := ringPut s.cfg.nRx s.rxd s.rxb, isr := .none } := by
  obtain ⟨j, rfl⟩ := Nat.exists_eq_add_of_le' hk
  exact (runIsr_h1 s (j + 5)).trans
    (runIsr_inRxEnq_room { s with rxc := false } s.rxd (by omega) hroom)

/-- From its entry, with RXB full, HRX reads the byte and returns. -/
theorem runIsr_rx_full (hk : 3 ≤ k) (hfull : s.rxb.count.toNat = s.cfg.nRx) :
    runIsr k (enterHandler (.rx .h1) s) = { s with rxc := false, isr := .none } := by
  obtain ⟨j, rfl⟩ := Nat.exists_eq_add_of_le' hk
  exact (runIsr_h1 s (j + 2)).trans
    (runIsr_inRxEnq_full { s with rxc := false } s.rxd (by omega) hfull)

end

section
variable {s : State}

/-- A whole HRX that finds room moves the byte to RXB. -/
theorem exec_irqrx_room (ha : s.agent = .hrx) (he : rxMayEnter s = true)
    (hroom : s.rxb.count.toNat ≠ s.cfg.nRx) (hk : 6 ≤ s.steps) :
    exec .irqrx s = .next { s with rxc := false, rxb := ringPut s.cfg.nRx s.rxd s.rxb } := by
  have hi : s.isr = .none := isr_of_rxMayEnter he
  refine (execIrqrx_enter ha hi he).trans (congrArg _ ((runIsr_rx_room s hk hroom).trans ?_))
  simp only [← hi]

/-- A whole HRX that finds RXB full only reads the byte. -/
theorem exec_irqrx_full (ha : s.agent = .hrx) (he : rxMayEnter s = true)
    (hfull : s.rxb.count.toNat = s.cfg.nRx) (hk : 3 ≤ s.steps) :
    exec .irqrx s = .next { s with rxc := false } := by
  have hi : s.isr = .none := isr_of_rxMayEnter he
  refine (execIrqrx_enter ha hi he).trans (congrArg _ ((runIsr_rx_full s hk hfull).trans ?_))
  simp only [← hi]

end

/-- Settles O38: the whole executions are H1, then H2's ENQ with room or on a full RXB, then H3; every other
clause is the equation of one micro-step. -/
theorem receiveHandlerMovesByte : Obligations.ReceiveHandlerMovesByte := by
  refine fun s ha => ⟨exec_irqrx_room ha, exec_irqrx_full ha, fun hk =>
    ⟨fun hi => exec_irqrx_microStep ha hk hi, fun d hi hfull => ?full, fun d hi hroom => ?room,
      fun d hi => exec_irqrx_microStep ha hk hi, fun d hi => exec_irqrx_microStep ha hk hi,
      fun d hi => exec_irqrx_microStep ha hk hi, fun hi => exec_irqrx_microStep ha hk hi⟩⟩
  case full =>
    rw [exec_irqrx_microStep ha hk hi]
    simp only [rxMicro, enqMicro_e1_full hfull, afterEnqRx]
  case room =>
    rw [exec_irqrx_microStep ha hk hi]
    simp only [rxMicro, enqMicro_e1_room hroom, afterEnqRx]

/-! ### HTX (42_interrupt_handlers.md R184) -/

section
variable (s : State)

/-- The first micro-step of a turn of T1's DEQ. -/
theorem runIsr_succ_inTxDeq (k : Nat) (b : RingBuf Byte) (d : DeqAt Byte) :
    runIsr (k + 1) (inTxDeq s b (.more d))
      = runIsr k (inTxDeq s (deqMicro s.cfg.nTx d b).1 (deqMicro s.cfg.nTx d b).2) :=
  runIsr_succ rfl k

/-- T2 on a byte taken writes it to the data register. -/
theorem runIsr_t2a (k : Nat) (v : Byte) (b : RingBuf Byte) :
    runIsr (k + 1) (inTxDeq s b (.ok v))
      = runIsr k { s with txb := b, txd := v, txr := false, isr := .tx .t3 } :=
  runIsr_succ rfl k

/-- T2 on an empty TXB disables the transmit-ready interrupt. -/
theorem runIsr_t2b (k : Nat) (b : RingBuf Byte) :
    runIsr (k + 1) (inTxDeq s b .empty)
      = runIsr k { s with txb := b, txrIe := false, isr := .tx .t3 } :=
  runIsr_succ rfl k

variable {k : Nat} {b : RingBuf Byte}

/-- From T1 with a byte waiting HTX sends the oldest and returns. -/
theorem runIsr_inTxDeq_some (hk : 6 ≤ k) (hsome : b.count ≠ 0#8) :
    runIsr k (inTxDeq s b (.more .d1)) = { s with
      txb := ringTake s.cfg.nTx b, txd := slotAt b b.head.toNat, txr := false, isr := .none } := by
  obtain ⟨j, rfl⟩ := Nat.exists_eq_add_of_le' hk
  rw [runIsr_succ_inTxDeq, deqMicro_d1_some hsome, runIsr_succ_inTxDeq, deqMicro_d2,
    runIsr_succ_inTxDeq, deqMicro_d3, runIsr_succ_inTxDeq, deqMicro_d4, runIsr_t2a,
    runIsr_return (by omega) (.inr rfl)]
  rfl

/-- From T1 with TXB empty HTX disables its interrupt and returns. -/
theorem runIsr_inTxDeq_empty (hk : 3 ≤ k) (hempty : b.count = 0#8) :
    runIsr k (inTxDeq s b (.more .d1)) = { s with txb := b, txrIe := false, isr := .none } := by
  obtain ⟨j, rfl⟩ := Nat.exists_eq_add_of_le' hk
  rw [runIsr_succ_inTxDeq, deqMicro_d1_empty hempty, runIsr_t2b, runIsr_return (by omega) (.inr rfl)]
  rfl

end

section
variable {s : State}

/-- A whole HTX that finds a byte moves it to the data register. -/
theorem exec_irqtx_some (ha : s.agent = .htx) (he : txMayEnter s = true) (hsome : s.txb.count ≠ 0#8)
    (hk : 6 ≤ s.steps) :
    exec .irqtx s = .next { s with
      txb := ringTake s.cfg.nTx s.txb, txd := slotAt s.txb s.txb.head.toNat, txr := false } := by
  have hi : s.isr = .none := (isr_of_txMayEnter he).1
  refine (execIrqtx_enter ha hi he).trans (congrArg _ ((runIsr_inTxDeq_some s hk hsome).trans ?_))
  simp only [← hi]

/-- A whole HTX that finds TXB empty only disables its interrupt. -/
theorem exec_irqtx_empty (ha : s.agent = .htx) (he : txMayEnter s = true) (hempty : s.txb.count = 0#8)
    (hk : 3 ≤ s.steps) : exec .irqtx s = .next { s with txrIe := false } := by
  have hi : s.isr = .none := (isr_of_txMayEnter he).1
  refine (execIrqtx_enter ha hi he).trans (congrArg _ ((runIsr_inTxDeq_empty s hk hempty).trans ?_))
  simp only [← hi]

end

/-- Settles O39: the whole executions are T1's DEQ with a byte or on an empty TXB, its T2, then T3; every
other clause is the equation of one micro-step. -/
theorem transmitHandlerSendsByte : Obligations.TransmitHandlerSendsByte := by
  refine fun s ha => ⟨exec_irqtx_some ha, exec_irqtx_empty ha, fun hk =>
    ⟨fun hi hempty => ?empty, fun hi hsome => ?some, fun hi => exec_irqtx_microStep ha hk hi,
      fun v hi => exec_irqtx_microStep ha hk hi, fun v hi => exec_irqtx_microStep ha hk hi,
      fun v hi => exec_irqtx_microStep ha hk hi, fun hi => exec_irqtx_microStep ha hk hi,
      fun hi => exec_irqtx_microStep ha hk hi⟩⟩
  case empty =>
    rw [exec_irqtx_microStep ha hk hi]
    simp only [txMicro, deqMicro_d1_empty hempty, afterDeqTx]
  case some =>
    rw [exec_irqtx_microStep ha hk hi]
    simp only [txMicro, deqMicro_d1_some hsome, afterDeqTx]

end Sys2Proof.Machine

/-! SUPPORT. The proofs about the line and host control (43_line_and_host_control.md): the two line events,
and the operations that write the global interrupt enable. -/

namespace Sys2Proof.Machine

open Sys2Proof

/-! ### LRX (43_line_and_host_control.md R200) -/

section
variable {s : State} (v : Byte)

/-- An arrival that finds the byte before it read. -/
theorem latchReceived_of_read (hr : s.rxc = false) :
    latchReceived v s = { s with rxd := v, rxc := true, lineIn := s.lineIn ++ [v] } :=
  if_neg (Bool.eq_false_iff.1 hr)

/-- An arrival on an unread byte: the free bit says which of the two `RXD` holds. -/
theorem latchReceived_of_overrun (hr : s.rxc = true) :
    latchReceived v s = { s with
      rxd := if Config.freeBit s.draws then v else s.rxd
      rxc := true, lineIn := s.lineIn ++ [v], draws := s.draws + 1 } :=
  if_pos hr

theorem exec_lrx_disabled (ha : s.agent = .line) (hen : s.rxEn = false) : exec (.lrx v) s = .next s := by
  simp only [exec, execLrx, ha, hen, Bool.false_eq_true, if_false]

theorem exec_lrx_enabled (ha : s.agent = .line) (hen : s.rxEn = true) :
    exec (.lrx v) s = .next (latchReceived v s) := by
  simp only [exec, execLrx, ha, hen, if_true]

end

/-- Settles O45: with the receiver on, an arrival is what `latchReceived` does on a read or an unread byte;
the byte kept on an overrun is the one the free bit chooses. -/
theorem lrxLatchesByte : Obligations.LrxLatchesByte := by
  refine fun s v ha => ⟨exec_lrx_disabled v ha, fun hen hr => ?latched, fun hen hr =>
    ⟨if Config.freeBit s.draws then v else s.rxd, (ite_eq_or_eq _ _ _).symm, ?overrun⟩⟩
  case latched => rw [exec_lrx_enabled v ha hen, latchReceived_of_read v hr]
  case overrun => rw [exec_lrx_enabled v ha hen, latchReceived_of_overrun v hr]

/-! ### LTX (43_line_and_host_control.md R203, R204) -/

section
variable {s : State}

theorem exec_ltx_enabled (ha : s.agent = .line) (h : (s.txEn && !s.txr) = true) :
    exec .ltx s = .next (takeTransmitted s) := by
  simp only [exec, execLtx, ha, h, if_true]

theorem exec_ltx_disabled (ha : s.agent = .line) (h : (s.txEn && !s.txr) = false) :
    exec .ltx s = .next s := by
  simp only [exec, execLtx, ha, h, Bool.false_eq_true, if_false]

end

/-- Settles O46: the two clauses are the two sides of LTX's gate. -/
theorem ltxTakesByte : Obligations.LtxTakesByte := by
  refine fun s ha => ⟨fun hen hr => exec_ltx_enabled ha ?_, fun h => exec_ltx_disabled ha ?_⟩
  · simp only [hen, hr, Bool.not_false, Bool.and_self]
  · obtain hen | hr := h
    · simp only [hen, Bool.false_and]
    · simp only [hr, Bool.not_true, Bool.and_false]

/-! ### Operations of one micro-step on port H (10_state.md R42) -/

section
variable {s : State} {i : Instr} {first : Main}

/-- A turn in which MAIN's operation ends with its first micro-step takes no other. -/
theorem runMain_of_ends {k : Nat} (hk : 1 ≤ k) (hgo : mainIdle s = false)
    (hend : mainIdle (mainMicro s) = true) : runMain k s = mainMicro s := by
  obtain ⟨j, rfl⟩ := Nat.exists_eq_add_of_le' hk
  exact (runMain_succ hgo j).trans (burst_of_stop hend j)

/-- An operation whose only micro-step is `finish` ends in its first turn, presented in that turn or before
it, when `finish` overwrites what the presentation writes. -/
theorem byMain_of_oneMicroStep {finish : State → State}
    (hflight : ∀ t : State, t.main = first → inFlight t = some i)
    (hmicro : ∀ t : State, t.main = first → mainMicro t = finish t)
    (hidle : ∀ t : State, mainIdle (finish t) = true) (hpresent : finish (presentMain first s) = finish s)
    (h : hostReady s = true ∨ (s.agent = .main ∧ noIsr s = true ∧ s.main = first)) (hk : 1 ≤ s.steps) :
    byMain i first none s = .next (finish s) := by
  have hrun (t : State) (hm : t.main = first) : runMain s.steps t = finish t := by
    have hgo : mainIdle t = false :=
      Bool.eq_false_iff.2 fun hstop => nomatch (hflight t hm).symm.trans ((inFlight_eq_none t).2 hstop)
    rw [runMain_of_ends hk hgo (hmicro t hm ▸ hidle t), hmicro t hm]
  obtain hready | ⟨ha, hn, hm⟩ := h
  · rw [byMain_ready hready, hrun _ rfl, hpresent]
  · rw [byMain_inFlight ha hn (hflight s hm), hrun s hm]

end

/-! ### GIEN and GDIS (43_line_and_host_control.md R206, R207) -/

section
variable {s : State} {i : Instr} {first : Main} {b : Bool}

/-- An operation whose only micro-step writes `GIE` and answers `OK`/0 changes nothing else. -/
theorem byMain_of_setGie (hflight : ∀ t : State, t.main = first → inFlight t = some i)
    (hmicro : ∀ t : State, t.main = first → mainMicro t = finishMain 0#8 (setGie b t))
    (h : hostReady s = true ∨ (s.agent = .main ∧ noIsr s = true ∧ s.main = first)) (hk : 1 ≤ s.steps) :
    byMain i first none s = .next { s with
      gie := b, main := .idle, hostResp := some (response .ok 0#8) } :=
  byMain_of_oneMicroStep hflight hmicro (fun _ => rfl) rfl h hk

end

/-- Settles O36: GIEN and GDIS are one micro-step each, which writes `GIE` and answers. -/
theorem hostControlWritesGie : Obligations.HostControlWritesGie := by
  refine fun s => ⟨byMain_of_setGie (fun t hm => ?_) (fun t hm => ?_),
    byMain_of_setGie (fun t hm => ?_) (fun t hm => ?_)⟩
  · simp only [inFlight, hm]
  · simp only [mainMicro, hm]
  · simp only [inFlight, hm]
  · simp only [mainMicro, hm]

end Sys2Proof.Machine

/-! SUPPORT. The proofs about GPIO (44_gpio.md): the pin arithmetic, the refusals, GET, and the
read-modify-writes, whose one argument serves all six. -/

namespace Sys2Proof.Machine

open Sys2Proof

/-! ### The configuration (44_gpio.md R234) -/

/-- Settles O18: no move and no taking of a turn writes the configuration. -/
theorem configNeverChanges : Obligations.ConfigNeverChanges :=
  ⟨fun _ s _ h => exec_keeps (P := fun x => x.cfg = s.cfg) (fun _ _ hm hc => (move_cfg hm).trans hc) h rfl,
    fun s _ h => step_keeps (P := fun x => x.cfg = s.cfg) (fun _ _ _ hm hc => (move_cfg hm).trans hc)
      (fun _ _ _ _ _ hc => hc) h rfl⟩

/-! ### Pins (44_gpio.md R222, R232) -/

section
variable {c : Config} {pin : Byte}

theorem pinBit_lt (pin : Byte) : pinBit pin < 8 := Nat.mod_lt _ (by decide)

theorem pinPort_lt_iff : pinPort pin < c.nports ↔ pin.toNat < 8 * c.nports := by
  rw [pinPort, Nat.div_lt_iff_lt_mul (by decide), Nat.mul_comm]

theorem pinMask_mem (pin : Byte) :
    pinMask pin ∈ [0x01#8, 0x02#8, 0x04#8, 0x08#8, 0x10#8, 0x20#8, 0x40#8, 0x80#8] := by
  have hshift : ∀ b < 8,
      1#8 <<< b ∈ [0x01#8, 0x02#8, 0x04#8, 0x08#8, 0x10#8, 0x20#8, 0x40#8, 0x80#8] := by decide
  exact hshift _ (pinBit_lt pin)

theorem pinMask_ne_zero (pin : Byte) : pinMask pin ≠ 0#8 :=
  ne_of_mem_of_not_mem (pinMask_mem pin) (by decide)

theorem pinBar_of_sentinel (h : pin = c.noPin) : pinBar c pin = some .sentinelPin := if_pos h

theorem pinBar_of_absent (hno : pin ≠ c.noPin) (h : 8 * c.nports ≤ pin.toNat) :
    pinBar c pin = some .absentPort := by
  have hport : c.nports ≤ pinPort pin := Nat.not_lt.1 fun hlt => Nat.not_lt.2 h (pinPort_lt_iff.1 hlt)
  rw [pinBar, if_neg hno, if_pos hport]

end

/-- Settles O47: the shift amount is below 8, which leaves eight masks, and the port is one of those present
as the pin is below eight times their number. -/
theorem pinArithmetic : Obligations.PinArithmetic :=
  ⟨fun _ pin h => ⟨rfl, pinPort_lt_iff.2 h, rfl, Nat.le_of_lt_succ (pinBit_lt pin), rfl,
    pinMask_ne_zero pin, pinMask_mem pin⟩, rfl, rfl, rfl⟩

section
variable {s : State} {pin pval : Byte} {i : Instr}

/-- Every GPIO operation asks `pinBar` of its pin when it is presented. -/
theorem exec_gpio_eq_byMain (s : State)
    (hi : i ∈ [Instr.get pin, .high pin, .low pin, .dirin pin, .dirout pin, .setv pin pval, .toggle pin]) :
    ∃ first, exec i s = byMain i first (pinBar s.cfg pin) s := by
  simp only [List.mem_cons, List.not_mem_nil, or_false] at hi
  obtain rfl | rfl | rfl | rfl | rfl | rfl | rfl := hi <;> exact ⟨_, rfl⟩

end

/-- Settles O48: a barred pin bars every GPIO operation at its presentation. -/
theorem gpioPreconditionsRefused : Obligations.GpioPreconditionsRefused := by
  intro s pin pval i hready hi
  obtain ⟨ha, hn, hm⟩ := (hostReady_iff s).1 hready
  obtain ⟨first, hexec⟩ := exec_gpio_eq_byMain s hi
  refine ⟨fun hsentinel => ?_, fun hno habsent => ?_⟩
  · rw [hexec, pinBar_of_sentinel hsentinel]
    exact byMain_barred ha hn ((inFlight_eq_none s).2 hm)
  · rw [hexec, pinBar_of_absent hno habsent]
    exact byMain_barred ha hn ((inFlight_eq_none s).2 hm)

/-! ### GET (44_gpio.md R223) -/

section
variable {s : State} {pin : Byte}

theorem samplePins_of_cons {x : Byte} {rest : List Byte} (h : s.pinIn = x :: rest) :
    samplePins s = (x, { s with pinIn := rest }) := by
  simp only [samplePins, h]

/-- GET overwrites what its presentation writes. -/
theorem getMicro_presentMain (first : Main) (pin : Byte) (s : State) :
    getMicro pin (presentMain first s) = getMicro pin s := by
  cases h : s.pinIn <;> simp only [getMicro, samplePins, presentMain, h] <;> rfl

/-- GET writes no field but the pins' input, the register it drives and MAIN's. -/
theorem getMicro_frame (pin : Byte) (s : State) :
    getMicro pin s = { s with
      gpio := (getMicro pin s).gpio, pinIn := (getMicro pin s).pinIn, draws := (getMicro pin s).draws
      main := .idle, hostResp := (getMicro pin s).hostResp } := by
  cases h : s.pinIn <;> simp only [getMicro, samplePins, h] <;> rfl

/-- The input register holds what PINS drove at the read. -/
theorem memRead_getMicro_same (pin : Byte) (hwf : s.gpio.wf = true) :
    memRead (getMicro pin s).gpio (addrIn s.cfg (pinPort pin)) = (samplePins s).1 :=
  memRead_memWrite_same _ _ hwf

theorem memRead_getMicro_other {a : Nat} (hwf : s.gpio.wf = true) (ha : a ≠ addrIn s.cfg (pinPort pin)) :
    memRead (getMicro pin s).gpio a = memRead s.gpio a :=
  memRead_memWrite_other _ hwf ha

/-- GET, presented on a valid pin or in flight, is its one micro-step. -/
theorem exec_get (h : (hostReady s = true ∧ pinOk s.cfg pin = true)
      ∨ (s.agent = .main ∧ noIsr s = true ∧ s.main = .get pin)) (hk : 1 ≤ s.steps) :
    exec (.get pin) s = .next (getMicro pin s) := by
  have hunbarred : exec (.get pin) s = byMain (.get pin) (.get pin) none s := by
    obtain ⟨-, hpin⟩ | ⟨ha, hn, hm⟩ := h
    · rw [← pinBar_of_pinOk hpin]; rfl
    · have hf : inFlight s = some (.get pin) := by simp only [inFlight, hm]
      exact (byMain_inFlight ha hn hf).trans (byMain_inFlight ha hn hf).symm
  rw [hunbarred]
  refine byMain_of_oneMicroStep (fun t hm => ?_) (fun t hm => ?_) (fun _ => rfl)
    (getMicro_presentMain _ pin s) (h.imp_left And.left) hk
  · simp only [inFlight, hm]
  · simp only [mainMicro, hm]

end

/-- Settles O49: GET answers the bit of the byte PINS drives, which is the byte its register then holds. -/
theorem getReadsInputBit : Obligations.GetReadsInputBit := by
  refine fun s pin hwf h hk => ⟨getMicro pin s, exec_get h hk, ?answer, fun x rest hin => ⟨?_, ?_⟩,
    fun a ha => memRead_getMicro_other hwf ha, getMicro_frame pin s⟩
  case answer =>
    rw [memRead_getMicro_same pin hwf, ite_not]
    rfl
  · rw [getMicro, samplePins_of_cons hin]; rfl
  · rw [memRead_getMicro_same pin hwf, samplePins_of_cons hin]

/-! ### The read-modify-writes (44_gpio.md R224 to R229) -/

section
variable {s : State} {op : RmwOp} {pin : Byte}

/-- On a valid pin a read-modify-write is presented and takes the turn's micro-steps. -/
theorem exec_rmw_ready (hready : hostReady s = true) (hpin : pinOk s.cfg pin = true) :
    exec (rmwInstr op pin) s = .next (runMain s.steps (presentMain (.rmw op pin .p1) s)) := by
  rw [exec_rmwInstr, byRmw, pinBar_of_pinOk hpin]
  exact byMain_ready hready

theorem exec_rmw_inFlight {pos : RmwAt} (ha : s.agent = .main) (hn : noIsr s = true)
    (hm : s.main = .rmw op pin pos) : exec (rmwInstr op pin) s = .next (runMain s.steps s) := by
  rw [exec_rmwInstr]
  exact byMain_inFlight ha hn (by simp only [inFlight, hm])

/-- P1 in a turn of its own. -/
theorem runMain_p1 {k : Nat} (hk : k = 1) (hm : s.main = .rmw op pin .p1) :
    runMain k s = { s with main := .rmw op pin (.p2 (memRead s.gpio (rmwAddr s.cfg op pin))) } := by
  rw [runMain_one hk (by simp only [mainIdle, hm])]
  simp only [mainMicro, hm, rmwMicro]

/-- P2 ends the turn, with the byte read at P1 whatever the register holds now. -/
theorem runMain_p2 {k : Nat} {x : Byte} (hk : 1 ≤ k) (hm : s.main = .rmw op pin (.p2 x)) :
    runMain k s = { s with
      gpio := memWrite s.gpio (rmwAddr s.cfg op pin) (rmwValue op x (pinMask pin))
      main := .idle, hostResp := some (response .ok 0#8) } := by
  have hmicro : mainMicro s = rmwMicro op pin (.p2 x) s := by simp only [mainMicro, hm]
  rw [runMain_of_ends hk (by simp only [mainIdle, hm]) (by rw [hmicro]; rfl), hmicro]
  rfl

/-- P1 and P2 in one turn, once the request is presented. -/
theorem runMain_rmw {k : Nat} (hk : 2 ≤ k) (s : State) :
    runMain k (presentMain (.rmw op pin .p1) s) = finishMain 0#8 { s with
      gpio := memWrite s.gpio (rmwAddr s.cfg op pin)
        (rmwValue op (memRead s.gpio (rmwAddr s.cfg op pin)) (pinMask pin)) } := by
  obtain ⟨j, rfl⟩ := Nat.exists_eq_add_of_le' hk
  rw [runMain_succ rfl, runMain_p2 (Nat.le_add_left 1 j) rfl]
  rfl

/-- A whole read-modify-write on a ready port H. -/
theorem exec_rmw_whole (hready : hostReady s = true) (hpin : pinOk s.cfg pin = true) (hk : 2 ≤ s.steps) :
    exec (rmwInstr op pin) s = .next { s with
      gpio := memWrite s.gpio (rmwAddr s.cfg op pin)
        (rmwValue op (memRead s.gpio (rmwAddr s.cfg op pin)) (pinMask pin))
      hostResp := some (response .ok 0#8) } := by
  rw [exec_rmw_ready hready hpin, runMain_rmw hk]
  simp only [finishMain, answerHost, ← main_of_hostReady hready]

/-- What every read-modify-write does, in the micro-steps of R224: P1 alone, both, and P2 alone after
whatever ran since P1 (20_memory.md R75, 44_gpio.md R220). -/
theorem exec_rmw (op : RmwOp) (s : State) (pin : Byte) :
    (hostReady s = true → pinOk s.cfg pin = true →
      (s.steps = 1 → exec (rmwInstr op pin) s = .next { s with
          main := .rmw op pin (.p2 (memRead s.gpio (rmwAddr s.cfg op pin))), hostResp := none })
      ∧ (2 ≤ s.steps → exec (rmwInstr op pin) s = .next { s with
          gpio := memWrite s.gpio (rmwAddr s.cfg op pin)
            (rmwValue op (memRead s.gpio (rmwAddr s.cfg op pin)) (pinMask pin))
          hostResp := some (response .ok 0#8) }))
    ∧ (s.agent = .main → noIsr s = true →
      (s.main = .rmw op pin .p1 → s.steps = 1 → exec (rmwInstr op pin) s = .next { s with
          main := .rmw op pin (.p2 (memRead s.gpio (rmwAddr s.cfg op pin))) })
      ∧ (∀ x, s.main = .rmw op pin (.p2 x) → 1 ≤ s.steps → exec (rmwInstr op pin) s = .next { s with
          gpio := memWrite s.gpio (rmwAddr s.cfg op pin) (rmwValue op x (pinMask pin))
          main := .idle, hostResp := some (response .ok 0#8) })) := by
  refine ⟨fun hready hpin => ⟨fun hk => ?presented, exec_rmw_whole hready hpin⟩,
    fun ha hn => ⟨fun hm hk => ?read, fun x hm hk => ?write⟩⟩
  case presented => exact (exec_rmw_ready hready hpin).trans (congrArg _ (runMain_p1 hk rfl))
  case read => exact (exec_rmw_inFlight ha hn hm).trans (congrArg _ (runMain_p1 hk hm))
  case write => exact (exec_rmw_inFlight ha hn hm).trans (congrArg _ (runMain_p2 hk hm))

end

/-- Settles O50: HIGH is the read-modify-write of `OUT[p]` that stores the byte with the mask set. -/
theorem highSetsOutputBit : Obligations.HighSetsOutputBit := exec_rmw .high

/-- Settles O51: LOW is the read-modify-write of `OUT[p]` that stores the byte with the mask cleared. -/
theorem lowClearsOutputBit : Obligations.LowClearsOutputBit := exec_rmw .low

/-- Settles O52: DIRIN is the read-modify-write of `DIR[p]` that stores the byte with the mask cleared. -/
theorem dirinClearsDirectionBit : Obligations.DirinClearsDirectionBit := exec_rmw .dirin

/-- Settles O53: DIROUT is the read-modify-write of `DIR[p]` that stores the byte with the mask set. -/
theorem diroutSetsDirectionBit : Obligations.DiroutSetsDirectionBit := exec_rmw .dirout

/-- Settles O55: TOGGLE is the read-modify-write of `OUT[p]` that stores the byte with the mask inverted. -/
theorem toggleInvertsOutputBit : Obligations.ToggleInvertsOutputBit := exec_rmw .toggle

/-! ### SETV (44_gpio.md R228) -/

theorem rmwValue_setv_of_ne_zero {pval : Byte} (h : pval ≠ 0#8) :
    rmwValue (.setv pval) = rmwValue .high :=
  funext₂ fun _ _ => if_neg h

theorem rmwValue_setv_zero : rmwValue (.setv 0#8) = rmwValue .low := rfl

/-- Settles O54: SETV is the read-modify-write of `OUT[p]` that stores what HIGH or what LOW stores. -/
theorem setvDispatchesOnTruth : Obligations.SetvDispatchesOnTruth := by
  intro s pin pval
  obtain ⟨hidle, hflight⟩ := exec_rmw (.setv pval) s pin
  refine ⟨fun hready hpin => ⟨(hidle hready hpin).1, fun hk => ⟨fun hset => ?set, fun hclear => ?clear⟩⟩,
    fun ha hn => ⟨(hflight ha hn).1, fun x hm hk => ⟨fun hset => ?setP2, fun hclear => ?clearP2⟩⟩⟩
  case set =>
    have hwhole := (hidle hready hpin).2 hk
    rw [rmwValue_setv_of_ne_zero hset] at hwhole
    exact ⟨hwhole, hwhole.trans (exec_rmw_whole (op := .high) hready hpin hk).symm⟩
  case clear =>
    subst hclear
    have hwhole := (hidle hready hpin).2 hk
    rw [rmwValue_setv_zero] at hwhole
    exact ⟨hwhole, hwhole.trans (exec_rmw_whole (op := .low) hready hpin hk).symm⟩
  case setP2 =>
    have hstore := (hflight ha hn).2 x hm hk
    rwa [rmwValue_setv_of_ne_zero hset] at hstore
  case clearP2 =>
    subst hclear
    have hstore := (hflight ha hn).2 x hm hk
    rwa [rmwValue_setv_zero] at hstore

/-! ### The same operation twice (44_gpio.md R233) -/

section
variable {s : State} {pin : Byte}

/-- A read-modify-write run twice: on its register what it stores is computed twice over, and no other
register changes. -/
theorem exec_rmw_twice (op : RmwOp) (hready : hostReady s = true) (hpin : pinOk s.cfg pin = true)
    (hwf : s.gpio.wf = true) (hk : 2 ≤ s.steps) :
    ∃ t u, exec (rmwInstr op pin) s = .next t ∧ exec (rmwInstr op pin) t = .next u
      ∧ memRead t.gpio (rmwAddr s.cfg op pin)
        = rmwValue op (memRead s.gpio (rmwAddr s.cfg op pin)) (pinMask pin)
      ∧ memRead u.gpio (rmwAddr s.cfg op pin)
        = rmwValue op (memRead t.gpio (rmwAddr s.cfg op pin)) (pinMask pin)
      ∧ ∀ a, a ≠ rmwAddr s.cfg op pin →
        memRead t.gpio a = memRead s.gpio a ∧ memRead u.gpio a = memRead t.gpio a := by
  have hwf' := memWrite_wf (rmwAddr s.cfg op pin)
    (rmwValue op (memRead s.gpio (rmwAddr s.cfg op pin)) (pinMask pin)) hwf
  exact ⟨_, _, exec_rmw_whole hready hpin hk, exec_rmw_whole hready hpin hk,
    memRead_memWrite_same _ _ hwf, memRead_memWrite_same _ _ hwf',
    fun _ ha => ⟨memRead_memWrite_other _ hwf ha, memRead_memWrite_other _ hwf' ha⟩⟩

/-- A read-modify-write that stores again what it has stored changes nothing the second time. -/
theorem exec_rmw_idempotent {op : RmwOp} (hready : hostReady s = true) (hpin : pinOk s.cfg pin = true)
    (hwf : s.gpio.wf = true) (hk : 2 ≤ s.steps)
    (hidem : ∀ x m, rmwValue op (rmwValue op x m) m = rmwValue op x m) :
    ∃ t u, exec (rmwInstr op pin) s = .next t ∧ exec (rmwInstr op pin) t = .next u
      ∧ ∀ a, memRead u.gpio a = memRead t.gpio a := by
  obtain ⟨t, u, hst, htu, hfirst, hsecond, hother⟩ := exec_rmw_twice op hready hpin hwf hk
  refine ⟨t, u, hst, htu, fun a => ?_⟩
  by_cases ha : a = rmwAddr s.cfg op pin
  · rw [ha, hsecond, hfirst, hidem]
  · exact (hother a ha).2

end

theorem rmwValue_toggle_toggle (x m : Byte) : rmwValue .toggle (rmwValue .toggle x m) m = x := by
  simp only [rmwValue, BitVec.xor_assoc, BitVec.xor_self, BitVec.xor_zero]

theorem rmwValue_idempotent {op : RmwOp} (hop : op ∈ [RmwOp.dirin, .dirout, .high, .low]) (x m : Byte) :
    rmwValue op (rmwValue op x m) m = rmwValue op x m := by
  simp only [List.mem_cons, List.not_mem_nil, or_false] at hop
  obtain rfl | rfl | rfl | rfl := hop
  · simp only [rmwValue, BitVec.and_assoc, BitVec.and_self]
  · simp only [rmwValue, BitVec.or_assoc, BitVec.or_self]
  · simp only [rmwValue, BitVec.or_assoc, BitVec.or_self]
  · simp only [rmwValue, BitVec.and_assoc, BitVec.and_self]

/-- Settles O56: the byte stored comes back under a second TOGGLE, and is stored again unchanged by a second
DIRIN, DIROUT, HIGH or LOW. -/
theorem toggleInvolutionAndIdempotence : Obligations.ToggleInvolutionAndIdempotence := by
  intro s pin hready hpin hwf hk
  refine ⟨?toggle, fun i hi => ?again⟩
  case toggle =>
    obtain ⟨t, u, hst, htu, hfirst, hsecond, hother⟩ := exec_rmw_twice .toggle hready hpin hwf hk
    refine ⟨t, u, hst, htu, fun a => ?_⟩
    by_cases ha : a = rmwAddr s.cfg .toggle pin
    · rw [ha, hsecond, hfirst, rmwValue_toggle_toggle]
    · exact (hother a ha).2.trans (hother a ha).1
  case again =>
    have hmap : i ∈ [RmwOp.dirin, .dirout, .high, .low].map (rmwInstr · pin) := hi
    obtain ⟨op, hop, rfl⟩ := List.mem_map.1 hmap
    exact exec_rmw_idempotent hready hpin hwf hk (rmwValue_idempotent hop)

end Sys2Proof.Machine

/-! SUPPORT. The proofs about handler entry and return (60_exceptions.md): the gate, entry and return alone,
and two handlers eligible at once. -/

namespace Sys2Proof.Machine

open Sys2Proof

/-! ### The gate (60_exceptions.md R261, R263) -/

section
variable {s : State}

theorem rxEligible_iff :
    rxEligible s = true ↔ s.rxc = true ∧ s.rxcIe = true ∧ s.gie = true ∧ s.isr = .none := by
  simp only [rxEligible, Bool.and_eq_true, noIsr_eq, and_assoc]

theorem txEligible_iff :
    txEligible s = true ↔ s.txr = true ∧ s.txrIe = true ∧ s.gie = true ∧ s.isr = .none := by
  simp only [txEligible, Bool.and_eq_true, noIsr_eq, and_assoc]

theorem rxMayEnter_iff :
    rxMayEnter s = true ↔ rxEligible s = true ∧ ¬(s.cfg.irqPrio = .txFirst ∧ txEligible s = true) := by
  simp only [rxMayEnter, Bool.and_eq_true, Bool.not_eq_true', ← Bool.not_eq_true, beq_iff_eq]

theorem txMayEnter_iff :
    txMayEnter s = true ↔ txEligible s = true ∧ ¬(s.cfg.irqPrio = .rxFirst ∧ rxEligible s = true) := by
  simp only [txMayEnter, Bool.and_eq_true, Bool.not_eq_true', ← Bool.not_eq_true, beq_iff_eq]

theorem rxMayEnter_of_not_txFirst (hr : rxEligible s = true) (hp : s.cfg.irqPrio ≠ .txFirst) :
    rxMayEnter s = true :=
  rxMayEnter_iff.2 ⟨hr, fun h => hp h.1⟩

theorem txMayEnter_of_not_rxFirst (ht : txEligible s = true) (hp : s.cfg.irqPrio ≠ .rxFirst) :
    txMayEnter s = true :=
  txMayEnter_iff.2 ⟨ht, fun h => hp h.1⟩

theorem rxMayEnter_of_alone (hr : rxEligible s = true) (ht : txEligible s = false) : rxMayEnter s = true :=
  rxMayEnter_iff.2 ⟨hr, fun h => Bool.eq_false_iff.1 ht h.2⟩

theorem txMayEnter_of_alone (ht : txEligible s = true) (hr : rxEligible s = false) : txMayEnter s = true :=
  txMayEnter_iff.2 ⟨ht, fun h => Bool.eq_false_iff.1 hr h.2⟩

theorem rxMayEnter_of_txFirst (ht : txEligible s = true) (hp : s.cfg.irqPrio = .txFirst) :
    rxMayEnter s = false :=
  Bool.eq_false_iff.2 fun h => (rxMayEnter_iff.1 h).2 ⟨hp, ht⟩

theorem txMayEnter_of_rxFirst (hr : rxEligible s = true) (hp : s.cfg.irqPrio = .rxFirst) :
    txMayEnter s = false :=
  Bool.eq_false_iff.2 fun h => (txMayEnter_iff.1 h).2 ⟨hp, hr⟩

/-- With none in service and HRX not to be entered there is no step. -/
theorem exec_irqrx_barred (ha : s.agent = .hrx) (hi : s.isr = .none) (he : rxMayEnter s = false) :
    exec .irqrx s = .next s :=
  execIrqrx_none ha (by simp [hi]) fun _ => he

/-- With none in service and HTX not to be entered there is no step. -/
theorem exec_irqtx_barred (ha : s.agent = .htx) (hi : s.isr = .none) (he : txMayEnter s = false) :
    exec .irqtx s = .next s :=
  execIrqtx_none ha (by simp [hi]) fun _ => he

end

/-- Settles O37: a handler that is not eligible may not be entered, and `IRQ_PRIO` keeps an eligible one out
only behind the other. -/
theorem eligibilityGatesEntry : Obligations.EligibilityGatesEntry := by
  refine fun s => ⟨rxEligible_iff, txEligible_iff, fun ha hi hr => ?rxBarred, fun ha hi ht => ?txBarred,
    fun hr h => ?rxEnters, fun ht h => ?txEnters⟩
  case rxBarred => exact exec_irqrx_barred ha hi (by rw [rxMayEnter, hr, Bool.false_and])
  case txBarred => exact exec_irqtx_barred ha hi (by rw [txMayEnter, ht, Bool.false_and])
  case rxEnters =>
    obtain hp | ht := h
    · exact rxMayEnter_of_not_txFirst hr (by simp [hp])
    · exact rxMayEnter_of_alone hr ht
  case txEnters =>
    obtain hp | hr := h
    · exact txMayEnter_of_not_rxFirst ht (by simp [hp])
    · exact txMayEnter_of_alone ht hr

/-! ### Entry and return alone (60_exceptions.md R262, R264) -/

theorem runIsr_of_no_steps {k : Nat} (hk : k = 0) (s : State) : runIsr k s = s := by
  subst hk
  rfl

/-- Settles O40: a turn of no micro-step ends where `enterHandler` leaves the state. -/
theorem handlerEntryWritesOnlyMarker : Obligations.HandlerEntryWritesOnlyMarker := by
  refine fun s hk => ⟨fun ha he => ?rx, fun ha he => ?tx⟩
  case rx =>
    exact (execIrqrx_enter ha (isr_of_rxMayEnter he) he).trans (congrArg _ (runIsr_of_no_steps hk _))
  case tx =>
    exact (execIrqtx_enter ha (isr_of_txMayEnter he).1 he).trans (congrArg _ (runIsr_of_no_steps hk _))

/-- Settles O41: at H3 or T3 a turn is `returnFromHandler`, however many micro-steps it may take. -/
theorem handlerReturnClearsOnlyMarker : Obligations.HandlerReturnClearsOnlyMarker := by
  refine fun s hk => ⟨fun ha hi => ?rx, fun ha hi => ?tx⟩
  case rx => exact (execIrqrx_inService ha hi).trans (congrArg _ (runIsr_return hk (.inl hi)))
  case tx => exact (execIrqtx_inService ha hi).trans (congrArg _ (runIsr_return hk (.inr hi)))

/-! ### Both handlers eligible (60_exceptions.md R263) -/

/-- What a whole HRX does (42_interrupt_handlers.md R180). -/
def received (s : State) : State :=
  if s.rxb.count.toNat = s.cfg.nRx then { s with rxc := false }
  else { s with rxc := false, rxb := ringPut s.cfg.nRx s.rxd s.rxb }

/-- What a whole HTX does (42_interrupt_handlers.md R184). -/
def sent (s : State) : State :=
  if s.txb.count = 0#8 then { s with txrIe := false }
  else { s with
    txb := ringTake s.cfg.nTx s.txb, txd := slotAt s.txb s.txb.head.toNat, txr := false }

section
variable {s : State}

theorem exec_irqrx_received (ha : s.agent = .hrx) (he : rxMayEnter s = true) (hk : 6 ≤ s.steps) :
    exec .irqrx s = .next (received s) := by
  unfold received
  split
  case isTrue hfull => exact exec_irqrx_full ha he hfull (by omega)
  case isFalse hroom => exact exec_irqrx_room ha he hroom hk

theorem exec_irqtx_sent (ha : s.agent = .htx) (he : txMayEnter s = true) (hk : 6 ≤ s.steps) :
    exec .irqtx s = .next (sent s) := by
  unfold sent
  split
  case isTrue hempty => exact exec_irqtx_empty ha he hempty (by omega)
  case isFalse hsome => exact exec_irqtx_some ha he hsome hk

variable (s)

theorem received_rxc : (received s).rxc = false := by unfold received; split <;> rfl

theorem received_isr : (received s).isr = s.isr := by unfold received; split <;> rfl

theorem received_steps : (received s).steps = s.steps := by unfold received; split <;> rfl

/-- HRX leaves HTX as eligible as it was. -/
theorem txEligible_received : txEligible (received s) = txEligible s := by unfold received; split <;> rfl

theorem rxEligible_received : rxEligible (received s) = false := by rw [rxEligible, received_rxc]; rfl

theorem sent_txr_or_txrIe : (sent s).txr = false ∨ (sent s).txrIe = false := by
  unfold sent
  split
  · exact .inr rfl
  · exact .inl rfl

theorem sent_isr : (sent s).isr = s.isr := by unfold sent; split <;> rfl

theorem sent_steps : (sent s).steps = s.steps := by unfold sent; split <;> rfl

/-- HTX leaves HRX as eligible as it was. -/
theorem rxEligible_sent : rxEligible (sent s) = rxEligible s := by unfold sent; split <;> rfl

theorem txEligible_sent : txEligible (sent s) = false := by
  obtain h | h := sent_txr_or_txrIe s
  · rw [txEligible, h]; rfl
  · rw [txEligible, h, Bool.and_false]; rfl

/-- HRX and HTX write different fields and neither reads what the other writes, so their order does not
show. -/
theorem sent_received_comm (a : Agent) :
    { sent { received { s with agent := .hrx } with agent := .htx } with agent := a }
      = { received { sent { s with agent := .htx } with agent := .hrx } with agent := a } := by
  by_cases hfull : s.rxb.count.toNat = s.cfg.nRx <;> by_cases hempty : s.txb.count = 0#8 <;>
    simp only [received, sent, hfull, hempty, if_true, if_false]

variable {s}

/-- After a whole HRX an eligible HTX is alone and may be entered, whatever `IRQ_PRIO` is. -/
theorem txMayEnter_received (ht : txEligible s = true) : txMayEnter (received s) = true :=
  txMayEnter_of_alone ((txEligible_received s).trans ht) (rxEligible_received s)

/-- After a whole HTX an eligible HRX is alone and may be entered, whatever `IRQ_PRIO` is. -/
theorem rxMayEnter_sent (hr : rxEligible s = true) : rxMayEnter (sent s) = true :=
  rxMayEnter_of_alone ((rxEligible_sent s).trans hr) (txEligible_sent s)

end

/-- Settles O43: the whole handlers are `received` and `sent`, which commute; each clears what made its own
handler eligible and leaves the other eligible alone. -/
theorem simultaneousHandlersCommute : Obligations.SimultaneousHandlersCommute := by
  intro s hr ht
  obtain ⟨-, -, -, hi⟩ := rxEligible_iff.1 hr
  refine ⟨fun hp => ?any, fun hp => ?rxFirst, fun hp => ?txFirst⟩
  case any =>
    have hrx : rxMayEnter s = true := rxMayEnter_of_not_txFirst hr (by simp [hp])
    have htx : txMayEnter s = true := txMayEnter_of_not_rxFirst ht (by simp [hp])
    refine ⟨hrx, htx, fun hk => ?_⟩
    let rx := received { s with agent := .hrx }
    let tx := sent { s with agent := .htx }
    have hrxi : rx.isr = .none := (received_isr _).trans hi
    have htxi : tx.isr = .none := (sent_isr _).trans hi
    have htxNext : txMayEnter rx = true := txMayEnter_received ht
    have hrxNext : rxMayEnter tx = true := rxMayEnter_sent hr
    have hrxk : 6 ≤ rx.steps := hk.trans_eq (received_steps { s with agent := .hrx }).symm
    have htxk : 6 ≤ tx.steps := hk.trans_eq (sent_steps { s with agent := .htx }).symm
    exact ⟨rx, sent { rx with agent := .htx }, tx, received { tx with agent := .hrx },
      exec_irqrx_received rfl hrx hk, received_rxc _, hrxi, htxNext,
      exec_irqtx_sent rfl htxNext hrxk, sent_txr_or_txrIe _, (sent_isr _).trans hrxi,
      exec_irqtx_sent rfl htx hk, sent_txr_or_txrIe _, htxi, hrxNext,
      exec_irqrx_received rfl hrxNext htxk, received_rxc _, (received_isr _).trans htxi,
      sent_received_comm s s.agent⟩
  case rxFirst =>
    have hrx : rxMayEnter s = true := rxMayEnter_of_not_txFirst hr (by simp [hp])
    have htx : txMayEnter s = false := txMayEnter_of_rxFirst hr hp
    exact ⟨hrx, htx, fun ha => exec_irqtx_barred ha hi htx, fun ha hk =>
      ⟨received s, exec_irqrx_received ha hrx hk, received_rxc s, (received_isr s).trans hi,
        txMayEnter_received ht⟩⟩
  case txFirst =>
    have htx : txMayEnter s = true := txMayEnter_of_not_rxFirst ht (by simp [hp])
    have hrx : rxMayEnter s = false := rxMayEnter_of_txFirst ht hp
    exact ⟨htx, hrx, fun ha => exec_irqrx_barred ha hi hrx, fun ha hk =>
      ⟨sent s, exec_irqtx_sent ha htx hk, sent_txr_or_txrIe s, (sent_isr s).trans hi,
        rxMayEnter_sent hr⟩⟩

end Sys2Proof.Machine
